-- ==== Sys2Proof/Word.lean ====
section
/-! DEFINITION. The value types of the MBD codec block: bytes, register words, binary32 patterns, the
enumerations of 00_scope.md R15, and the records that requests and responses carry (10_state.md R31, R42,
R44, R45). -/

namespace Sys2Proof

/-- One byte of a frame, a response or the wire. -/
abbrev Byte := BitVec 8

/-- A sensor register word, a channel word or the temperature reference (`REG_WIDTH` = 16, R8). -/
abbrev Word16 := BitVec 16

/-- The 32-bit pattern of an IEEE 754 binary32 value (R16). -/
abbrev F32 := BitVec 32

/-- Gain, an integer 0 … 7 (R15). -/
abbrev Gain := BitVec 3

/-- ChannelSet: bit i is set when Channel i is enabled (R15, R86). -/
abbrev ChannelSet := BitVec 4

/-- The magnetic axes (R15). -/
inductive Axis
  | x | y | z
deriving DecidableEq, Repr, Inhabited

/-- The four measurable signals, in the order of their ChannelSet bits (R15). -/
inductive Channel
  | temp | x | y | z
deriving DecidableEq, Repr, Inhabited

/-- Hall configuration (R15, R116). -/
inductive HallConf
  | twoPhase | fourPhase
deriving DecidableEq, Repr, Inhabited

/-- Resolution of an axis (R15, R120). -/
inductive Resolution
  | res19 | res18 | res17 | res16
deriving DecidableEq, Repr, Inhabited

/-- The calibration snapshot register `SNAP` (R31), the block's one architectural register (R30). -/
structure Snap where
  captured : Bool
  valid    : Bool
  gain     : Gain
  hall     : Option HallConf
  tcmp     : Bool
  resX     : Resolution
  resY     : Resolution
  resZ     : Resolution
  tref     : Word16
deriving DecidableEq, Repr, Inhabited

/-- The fields of the sensor status byte (R42). -/
structure StatusFields where
  burst : Bool
  woc   : Bool
  sm    : Bool
  error : Bool
  sed   : Bool
  rs    : Bool
  d     : BitVec 2
deriving DecidableEq, Repr

/-- A raw sample: status byte, presence mask and the four channel words; a word whose presence bit is 0 is
transmitted but has no meaning (R44). -/
structure RawSample where
  status  : Byte
  present : ChannelSet
  wT      : Word16
  wX      : Word16
  wY      : Word16
  wZ      : Word16
deriving DecidableEq, Repr

/-- Optional physical value per axis (µT) and optional temperature (°C) (R45). -/
structure MagneticField where
  x : Option F32
  y : Option F32
  z : Option F32
  t : Option F32
deriving DecidableEq, Repr

/-- The unit of wire transfer: a field and the sensor's position (R45). -/
structure Message where
  field : MagneticField
  px    : F32
  py    : F32
  pz    : F32
deriving DecidableEq, Repr

/-- CMDENC's results `len`, `bytes[0..3]`, `rlen` (R150). -/
structure CmdFrame where
  len  : Byte
  b0   : Byte
  b1   : Byte
  b2   : Byte
  b3   : Byte
  rlen : Byte
deriving DecidableEq, Repr

/-- What the byte source answers to one read: a block of `RX_BLOCK_LEN` = 128 bytes or a read error (R262). -/
inductive SourceAnswer
  | block (bytes : Vector Byte 128)
  | readError
deriving DecidableEq, Repr, Inhabited

/-- The three binary32 operations of the converter (R13, R208). -/
inductive FloatOp
  | mul | div | add
deriving DecidableEq, Repr, Inhabited

/-- The two values of the parameter `EMPTY_CHUNK_FAULT` (R256). -/
inductive EmptyChunkFault
  | frameDecodeFailure | payloadDecodeFailure
deriving DecidableEq, Repr

end Sys2Proof
end

