-- ==== Sys2Proof/Config.lean ====
section
/-! DEFINITION. The parameters of 00_scope.md R8 (the decided ones with their value, the OPEN ones without a
body) and the free values of what the spec leaves open. Nothing in Lean can evaluate an `opaque` constant. -/

namespace Sys2Proof.Config

/-- Largest address RR and WR encode (`ADDR_BITS` = 6, R77). -/
def addrMax : Nat := 0x3F

/-- `RX_BLOCK_LEN` (R262). -/
def rxBlockLen : Nat := 128

/-- `SER_BUF_LEN` (R240). -/
def serBufLen : Nat := 64

/-- `FRAME_BUF_LEN` (R250). -/
def frameBufLen : Nat := 64

/-- `VEC_MAX` (R81). -/
def vecMax : Nat := 255

/-- `EMPTY_CHUNK_FAULT`, at the value R8 and R256 decide. Assumption 17. -/
def emptyChunkFault : EmptyChunkFault := .frameDecodeFailure

/-- `SETTLE_EX_MS`, about 1 ms, in microseconds: a wait of the requester; no rule of the block uses it (R313, R330). -/
def settleExMicros : Nat := 1000

/-- `SETTLE_RT_MS`, about 1.5 ms, in microseconds: a wait of the requester (R313, R330). -/
def settleRtMicros : Nat := 1500

/-- `SETTLE_WR_MS`, OPEN: a wait of the requester (R322). That it is a whole number of milliseconds is the model's: R8
leaves open whether it may be a fraction, and no rule of the block reads it (DESIGN CHOICE, assumption 16). -/
opaque settleWrMs : Nat

/-- `TREF_ADDR`, OPEN: where the requester reads the temperature reference (R314). -/
opaque trefAddr : Byte

/-- `SENS`, OPEN: µT per count for a gain, resolution, hall configuration and axis (R203, R209). -/
opaque sens : Gain → Resolution → HallConf → Axis → F32

/-- The pattern `TEMP_SCALE` is drawn from; see `tempScale`. -/
opaque tempScaleBits : F32

/-- `TEMP_SCALE`, OPEN but finite and non-zero (R206, R209): `tempScaleBits` where that is finite and non-zero
(so every such value is possible), 1.0 otherwise. DEDUCED, assumption 11. -/
def tempScale : F32 :=
  if tempScaleBits.extractLsb' 23 8 = 0xFF#8 ∨ tempScaleBits.extractLsb' 0 31 = 0#31 then 0x3F800000#32
  else tempScaleBits

/-- `REF_OFFSET`, OPEN (R206). -/
opaque refOffset : Word16 → F32

/-- `TCMP_ADJ`, OPEN (R207). -/
opaque tcmpAdj : F32 → Snap → F32

/-- The converter's parameters, as the arguments R8 makes of them. Configuration, never part of State. -/
structure ConvParams where
  sens      : Gain → Resolution → HallConf → Axis → F32
  tempScale : F32
  refOffset : Word16 → F32
  tcmpAdj   : F32 → Snap → F32

/-- The block's own parameters. -/
def convParams : ConvParams :=
  { sens := sens, tempScale := tempScale, refOffset := refOffset, tcmpAdj := tcmpAdj }

/-! Free values of a NaN result: functions of the operation and its operands, so that CONV stays deterministic (R211,
law 4). PRESUMED from IEEE 754, assumption 9. -/

/-- Free value: the sign of a NaN result, which IEEE 754 leaves open. -/
opaque freeNaNSign : FloatOp → F32 → F32 → Bool

/-- Free value: the payload of the NaN that an invalid operation gives. -/
opaque freeNaNPayload : FloatOp → F32 → F32 → BitVec 22

/-- Free value: whether a result of two NaN operands has the first one's payload. -/
opaque freeNaNFirst : FloatOp → F32 → F32 → Bool

/-- Free value: how many bytes the sink takes of the n-th offer that no entry of `State.sinkTakes` decides
(R259: any k ∈ 0…n; `offer` keeps it within the offer's length). DESIGN CHOICE, assumption 5. -/
opaque freeSinkTake : Nat → Nat

/-- Free value: what the source answers to a read that no entry of `State.source` decides (R262, I18). DESIGN CHOICE,
assumption 5. -/
opaque freeSourceRead : Nat → SourceAnswer

/-- Free value: the fields of `SNAP` that a block reset leaves unspecified (R310, I2). DESIGN CHOICE, assumption 6. -/
opaque freeSnap : Nat → Snap

end Sys2Proof.Config
end

