-- ==== Sys2Proof/Syntax.lean ====
section
/-! DEFINITION. The instructions: one constructor per row of spec/opcode_table.json, that is the ten commands
of the command byte space (30_encoding.md R88) and the 27 operations of the request port (R82), each with the
operand fields and widths R82 gives it. -/

namespace Sys2Proof

/-- One request. The first ten constructors are the commands by their own mnemonic (`CMDENC <cmd> operands`,
R93); the others carry R82's operand fields. A byte vector `(n, b[0..n−1])` is the list of its bytes (R81). -/
inductive Instr
  /-- StartBurst (R151) -/
  | sb (chans : ChannelSet)
  /-- StartWakeOnChange (R152) -/
  | sw (chans : ChannelSet)
  /-- StartSingleMeasurement (R153) -/
  | sm (chans : ChannelSet)
  /-- ReadMeasurement (R154) -/
  | rm (chans : ChannelSet)
  /-- ReadRegister (R155) -/
  | rr (addr : Byte)
  /-- WriteRegister (R156) -/
  | wr (addr : Byte) (data : Word16)
  /-- Exit (R157) -/
  | ex
  /-- MemoryRecall (R158) -/
  | hr
  /-- MemoryStore (R159) -/
  | hs
  /-- Reset (R160) -/
  | rt
  /-- extract a CustomerMemoryArea field (R110) -/
  | fget (addr : Byte) (word : Word16) (idx : BitVec 5)
  /-- insert a CustomerMemoryArea field (R111) -/
  | fset (addr : Byte) (word : Word16) (idx : BitVec 5) (value : Word16)
  /-- decode the gain (R114) -/
  | dgain (addr : Byte) (word : Word16)
  /-- decode the temperature-compensation flag (R115) -/
  | dtcmp (addr : Byte) (word : Word16)
  /-- decode the hall configuration (R116) -/
  | dhall (addr : Byte) (word : Word16)
  /-- decode ZSeries (R117) -/
  | dzser (addr : Byte) (word : Word16)
  /-- decode Bist (R118) -/
  | dbist (addr : Byte) (word : Word16)
  /-- decode the per-axis resolution (R119) -/
  | dres (addr : Byte) (word : Word16)
  /-- write the gain (R122) -/
  | egain (addr : Byte) (word : Word16) (gain : Byte)
  /-- write the temperature-compensation flag (R123) -/
  | etcmp (addr : Byte) (word : Word16) (b : Bool)
  /-- write ZSeries (R124) -/
  | ezser (addr : Byte) (word : Word16) (b : Bool)
  /-- write Bist (R125) -/
  | ebist (addr : Byte) (word : Word16) (b : Bool)
  /-- capture the calibration snapshot (R130) -/
  | snapcap (w0 w1 w2 tref : Word16)
  /-- read the snapshot (R131) -/
  | snapq
  /-- encode one command frame (R150) -/
  | cmdenc (base : Byte) (chans : ChannelSet) (addr : Byte) (data : Word16)
  /-- decode a status byte (R170) -/
  | stdec (s : Byte)
  /-- decode a ReadMeasurement response (R172) -/
  | rmdec (chans : ChannelSet) (b : List Byte)
  /-- decode a ReadRegister response (R174) -/
  | rrdec (b : List Byte)
  /-- decode a status-only response (R175) -/
  | s1dec (b : List Byte)
  /-- convert a raw sample (R200) -/
  | conv (chans : ChannelSet) (raw : RawSample)
  /-- serialize a Message (R240) -/
  | ser (msg : Message)
  /-- deserialize a payload (R244) -/
  | deser (b : List Byte)
  /-- COBS-encode a payload and terminate the frame (R250) -/
  | cenc (b : List Byte)
  /-- COBS-decode one chunk (R255) -/
  | cdec (b : List Byte)
  /-- write a frame to the sink (R258) -/
  | fwrite (b : List Byte)
  /-- read one Message from the source (R262) -/
  | fread
  /-- serialize, frame and write one Message (R266) -/
  | msgtx (msg : Message)
deriving DecidableEq, Repr

end Sys2Proof
end

