-- ==== Sys2Proof/WellFormed.lean ====
section
/-! DEFINITION. What the types of `Instr` do not already bound: a byte vector has at most `VEC_MAX` bytes (R81),
and an RR or WR frame carries a 6-bit address (R85, R87). -/

namespace Sys2Proof

/-- A byte vector fits its 8-bit length field (R81). -/
def vecOk (b : List Byte) : Bool := b.length ≤ Config.vecMax

/-- The address fits the frame's a[7:2] (R77, R87). -/
def addrOk (addr : Byte) : Bool := addr.toNat ≤ Config.addrMax

/-- The instruction has an encoding. -/
def Instr.wellFormed : Instr → Bool
  | .sb _ => true
  | .sw _ => true
  | .sm _ => true
  | .rm _ => true
  | .rr addr => addrOk addr
  | .wr addr _ => addrOk addr
  | .ex => true
  | .hr => true
  | .hs => true
  | .rt => true
  | .fget _ _ _ => true
  | .fset _ _ _ _ => true
  | .dgain _ _ => true
  | .dtcmp _ _ => true
  | .dhall _ _ => true
  | .dzser _ _ => true
  | .dbist _ _ => true
  | .dres _ _ => true
  | .egain _ _ _ => true
  | .etcmp _ _ _ => true
  | .ezser _ _ _ => true
  | .ebist _ _ _ => true
  | .snapcap _ _ _ _ => true
  | .snapq => true
  | .cmdenc _ _ _ _ => true
  | .stdec _ => true
  | .rmdec _ b => vecOk b
  | .rrdec b => vecOk b
  | .s1dec b => vecOk b
  | .conv _ _ => true
  | .ser _ => true
  | .deser b => vecOk b
  | .cenc b => vecOk b
  | .cdec b => vecOk b
  | .fwrite b => vecOk b
  | .fread => true
  | .msgtx _ => true

end Sys2Proof
end

