-- ==== Sys2Proof/Decode.lean ====
section
/-! DEFINITION. The request port's records and the command frames as bytes: decoder (total, rejecting by name)
and encoder. The op map is 30_encoding.md R82, the command map R85 and R88. The spec gives the operand fields
of a request and their widths and order, but no byte layout: the layout here (assumption 3) is the op byte, then
each operand in R82's order, each in whole bytes, least significant byte first, unused high bits 0. -/

namespace Sys2Proof

/-- Which of the opcode table's two spaces a record belongs to: the request port's op selector or the command
byte of the sensor bus. Their codes overlap, so a byte alone does not say which. -/
inductive Space
  | port | bus
deriving DecidableEq, Repr

/-- One request as it is presented: a record of the request port (R80) or a command by its frame bytes (R85). -/
structure Record where
  space : Space
  bytes : List Byte
deriving DecidableEq, Repr

/-- Why a record is no instruction. -/
inductive DecodeError
  /-- the op is not in R82's map; the block answers IllegalRequest(op) (R84) -/
  | unassignedOp (op : Byte)
  /-- the command byte is one the block never produces; answered as CMDENC answers such a base (R89, R150) -/
  | unknownCommand (c : Byte)
  /-- fewer bytes than the operands take: no record of R80 -/
  | truncated
  /-- a bit above an operand's width is set: no record of R80 -/
  | paddingSet
  /-- a non-zero byte follows the last operand: no record of R80 -/
  | trailing
  /-- bits 1:0 of an RR or WR address byte are not 00 (R85) -/
  | addressLowBits
deriving DecidableEq, Repr

/-! ### Reading operands -/

/-- A parser takes bytes from the front and returns what is left. -/
abbrev Parser (α : Type) := List Byte → Except DecodeError (α × List Byte)

/-- Answer `a`, taking nothing. -/
def give {α : Type} (a : α) : Parser α := fun bs => .ok (a, bs)

/-- Run `p`, then `f` on what it read. -/
def andThen {α β : Type} (p : Parser α) (f : α → Parser β) : Parser β := fun bs =>
  match p bs with
  | .ok (a, rest) => f a rest
  | .error e => .error e

/-- An 8-bit operand. -/
def takeByte : Parser Byte
  | [] => .error .truncated
  | b :: rest => .ok (b, rest)

/-- A 16-bit operand. -/
def takeWord16 : Parser Word16 :=
  andThen takeByte fun lo => andThen takeByte fun hi => give (hi ++ lo)

/-- A 32-bit operand. -/
def takeWord32 : Parser F32 :=
  andThen takeWord16 fun lo => andThen takeWord16 fun hi => give (hi ++ lo)

/-- An operand of `w ≤ 8` bits, in one byte. -/
def takeNarrow (w : Nat) : Parser (BitVec w) :=
  andThen takeByte fun b rest => if b.toNat < 2 ^ w then .ok (b.setWidth w, rest) else .error .paddingSet

/-- A one-bit operand, 1 = true (R83). -/
def takeBool : Parser Bool :=
  andThen (takeNarrow 1) fun b => give (b.getLsbD 0)

/-- `n` bytes. -/
def takeBytes (n : Nat) : Parser (List Byte) := fun bs =>
  if n ≤ bs.length then .ok (bs.take n, bs.drop n) else .error .truncated

/-- A byte vector `(n : 8, b[0..n−1])` (R81). -/
def takeVec : Parser (List Byte) := andThen takeByte fun n => takeBytes n.toNat

/-- An optional binary32 `(present : 1, bits : 32)` (R82); the bits of an absent value are not looked at. -/
def takeOption : Parser (Option F32) :=
  andThen takeBool fun present => andThen takeWord32 fun v => give (if present then some v else none)

/-- A RawSample (R82). -/
def takeSample : Parser RawSample :=
  andThen takeByte fun status => andThen (takeNarrow 4) fun present =>
  andThen takeWord16 fun wT => andThen takeWord16 fun wX =>
  andThen takeWord16 fun wY => andThen takeWord16 fun wZ =>
  give { status := status, present := present, wT := wT, wX := wX, wY := wY, wZ := wZ }

/-- A Message (R82). -/
def takeMessage : Parser Message :=
  andThen takeOption fun x => andThen takeOption fun y => andThen takeOption fun z => andThen takeOption fun t =>
  andThen takeWord32 fun px => andThen takeWord32 fun py => andThen takeWord32 fun pz =>
  give { field := { x := x, y := y, z := z, t := t }, px := px, py := py, pz := pz }

/-- Operands `addr:8, word:16` of the typed decodes. -/
def takeTagged (k : Byte → Word16 → Instr) : Parser Instr :=
  andThen takeByte fun addr => andThen takeWord16 fun word => give (k addr word)

/-- Operands `addr:8, word:16, b:1` of the typed encodes of one bit. -/
def takeTaggedBit (k : Byte → Word16 → Bool → Instr) : Parser Instr :=
  andThen takeByte fun addr => andThen takeWord16 fun word => andThen takeBool fun b => give (k addr word b)

/-- The operands of each assigned op of R82; `none` for an unassigned op (R84). -/
def portOperands (op : Nat) : Option (Parser Instr) :=
  match op with
  | 0x01 => some (andThen takeByte fun addr => andThen takeWord16 fun word => andThen (takeNarrow 5) fun idx =>
      give (.fget addr word idx))
  | 0x02 => some (andThen takeByte fun addr => andThen takeWord16 fun word => andThen (takeNarrow 5) fun idx =>
      andThen takeWord16 fun value => give (.fset addr word idx value))
  | 0x03 => some (takeTagged .dgain)
  | 0x04 => some (takeTagged .dtcmp)
  | 0x05 => some (takeTagged .dhall)
  | 0x06 => some (takeTagged .dzser)
  | 0x07 => some (takeTagged .dbist)
  | 0x08 => some (takeTagged .dres)
  | 0x09 => some (andThen takeByte fun addr => andThen takeWord16 fun word => andThen takeByte fun gain =>
      give (.egain addr word gain))
  | 0x0A => some (takeTaggedBit .etcmp)
  | 0x0B => some (takeTaggedBit .ezser)
  | 0x0C => some (takeTaggedBit .ebist)
  | 0x10 => some (andThen takeWord16 fun w0 => andThen takeWord16 fun w1 => andThen takeWord16 fun w2 =>
      andThen takeWord16 fun tref => give (.snapcap w0 w1 w2 tref))
  | 0x11 => some (give .snapq)
  | 0x20 => some (andThen takeByte fun base => andThen (takeNarrow 4) fun chans => andThen takeByte fun addr =>
      andThen takeWord16 fun data => give (.cmdenc base chans addr data))
  | 0x21 => some (andThen takeByte fun s => give (.stdec s))
  | 0x22 => some (andThen (takeNarrow 4) fun chans => andThen takeVec fun b => give (.rmdec chans b))
  | 0x23 => some (andThen takeVec fun b => give (.rrdec b))
  | 0x24 => some (andThen takeVec fun b => give (.s1dec b))
  | 0x30 => some (andThen (takeNarrow 4) fun chans => andThen takeSample fun raw => give (.conv chans raw))
  | 0x40 => some (andThen takeMessage fun msg => give (.ser msg))
  | 0x41 => some (andThen takeVec fun b => give (.deser b))
  | 0x42 => some (andThen takeVec fun b => give (.cenc b))
  | 0x43 => some (andThen takeVec fun b => give (.cdec b))
  | 0x44 => some (andThen takeVec fun b => give (.fwrite b))
  | 0x45 => some (give .fread)
  | 0x46 => some (andThen takeMessage fun msg => give (.msgtx msg))
  | _ => none

/-- The parser's instruction, when nothing but zero bytes is left: the port's lines above a record are 0. -/
def whole (p : Parser Instr) (bs : List Byte) : Except DecodeError Instr :=
  match p bs with
  | .ok (i, rest) => if rest.all (fun b => b == 0#8) then .ok i else .error .trailing
  | .error e => .error e

/-- The address of an RR or WR frame, from its byte `addr<<2` (R87). -/
def takeAddr : Parser Byte :=
  andThen takeByte fun a rest => if a.toNat % 4 = 0 then .ok (a >>> 2, rest) else .error .addressLowBits

/-- The instruction of a request-port record (R82, R84). -/
def decodePort : List Byte → Except DecodeError Instr
  | [] => .error .truncated
  | op :: rest =>
    match portOperands op.toNat with
    | some p => whole p rest
    | none => .error (.unassignedOp op)

/-- A command whose low nibble must be 0 (R85, R89). -/
def plainCommand (c : Byte) (p : Parser Instr) (rest : List Byte) : Except DecodeError Instr :=
  if c.toNat % 16 = 0 then whole p rest else .error (.unknownCommand c)

/-- The instruction of a command frame, selected by the command byte's high nibble (R85, R88, R90). -/
def decodeBus : List Byte → Except DecodeError Instr
  | [] => .error .truncated
  | c :: rest =>
    match c.toNat / 16 with
    | 0x1 => whole (give (.sb (c.setWidth 4))) rest
    | 0x2 => whole (give (.sw (c.setWidth 4))) rest
    | 0x3 => whole (give (.sm (c.setWidth 4))) rest
    | 0x4 => whole (give (.rm (c.setWidth 4))) rest
    | 0x5 => plainCommand c (andThen takeAddr fun addr => give (.rr addr)) rest
    | 0x6 => plainCommand c (andThen takeByte fun dh => andThen takeByte fun dl => andThen takeAddr fun addr =>
        give (.wr addr (dh ++ dl))) rest
    | 0x8 => plainCommand c (give .ex) rest
    | 0xD => plainCommand c (give .hr) rest
    | 0xE => plainCommand c (give .hs) rest
    | 0xF => plainCommand c (give .rt) rest
    | _ => .error (.unknownCommand c)

/-- The instruction of a record. -/
def decode (r : Record) : Except DecodeError Instr :=
  match r.space with
  | .port => decodePort r.bytes
  | .bus => decodeBus r.bytes

/-! ### Writing operands -/

def putWord16 (w : Word16) : List Byte := [w.extractLsb' 0 8, w.extractLsb' 8 8]

def putWord32 (w : F32) : List Byte := putWord16 (w.extractLsb' 0 16) ++ putWord16 (w.extractLsb' 16 16)

def putNarrow {w : Nat} (v : BitVec w) : List Byte := [v.setWidth 8]

def putBool (b : Bool) : List Byte := [if b then 1#8 else 0#8]

def putVec (b : List Byte) : List Byte := BitVec.ofNat 8 b.length :: b

def putOption : Option F32 → List Byte
  | some v => putBool true ++ putWord32 v
  | none => putBool false ++ putWord32 0#32

def putSample (r : RawSample) : List Byte :=
  [r.status] ++ (putNarrow r.present ++ (putWord16 r.wT ++ (putWord16 r.wX ++ (putWord16 r.wY ++ putWord16 r.wZ))))

def putMessage (m : Message) : List Byte :=
  putOption m.field.x ++ (putOption m.field.y ++ (putOption m.field.z ++ (putOption m.field.t ++
    (putWord32 m.px ++ (putWord32 m.py ++ putWord32 m.pz)))))

/-- A request-port record (R80). -/
def portRecord (op : Byte) (operands : List Byte) : Record := { space := .port, bytes := op :: operands }

/-- A command frame presented as a record. -/
def busRecord (bytes : List Byte) : Record := { space := .bus, bytes := bytes }

/-- The record of an instruction (R82, R85). -/
def encode : Instr → Record
  | .sb p => busRecord [0x10#8 ||| p.setWidth 8]
  | .sw p => busRecord [0x20#8 ||| p.setWidth 8]
  | .sm p => busRecord [0x30#8 ||| p.setWidth 8]
  | .rm p => busRecord [0x40#8 ||| p.setWidth 8]
  | .rr addr => busRecord [0x50#8, addr <<< 2]
  | .wr addr data => busRecord [0x60#8, data.extractLsb' 8 8, data.extractLsb' 0 8, addr <<< 2]
  | .ex => busRecord [0x80#8]
  | .hr => busRecord [0xD0#8]
  | .hs => busRecord [0xE0#8]
  | .rt => busRecord [0xF0#8]
  | .fget addr word idx => portRecord 0x01#8 (addr :: (putWord16 word ++ putNarrow idx))
  | .fset addr word idx value => portRecord 0x02#8 (addr :: (putWord16 word ++ (putNarrow idx ++ putWord16 value)))
  | .dgain addr word => portRecord 0x03#8 (addr :: putWord16 word)
  | .dtcmp addr word => portRecord 0x04#8 (addr :: putWord16 word)
  | .dhall addr word => portRecord 0x05#8 (addr :: putWord16 word)
  | .dzser addr word => portRecord 0x06#8 (addr :: putWord16 word)
  | .dbist addr word => portRecord 0x07#8 (addr :: putWord16 word)
  | .dres addr word => portRecord 0x08#8 (addr :: putWord16 word)
  | .egain addr word gain => portRecord 0x09#8 (addr :: (putWord16 word ++ [gain]))
  | .etcmp addr word b => portRecord 0x0A#8 (addr :: (putWord16 word ++ putBool b))
  | .ezser addr word b => portRecord 0x0B#8 (addr :: (putWord16 word ++ putBool b))
  | .ebist addr word b => portRecord 0x0C#8 (addr :: (putWord16 word ++ putBool b))
  | .snapcap w0 w1 w2 tref =>
      portRecord 0x10#8 (putWord16 w0 ++ (putWord16 w1 ++ (putWord16 w2 ++ putWord16 tref)))
  | .snapq => portRecord 0x11#8 []
  | .cmdenc base chans addr data => portRecord 0x20#8 (base :: (putNarrow chans ++ (addr :: putWord16 data)))
  | .stdec s => portRecord 0x21#8 [s]
  | .rmdec chans b => portRecord 0x22#8 (putNarrow chans ++ putVec b)
  | .rrdec b => portRecord 0x23#8 (putVec b)
  | .s1dec b => portRecord 0x24#8 (putVec b)
  | .conv chans raw => portRecord 0x30#8 (putNarrow chans ++ putSample raw)
  | .ser msg => portRecord 0x40#8 (putMessage msg)
  | .deser b => portRecord 0x41#8 (putVec b)
  | .cenc b => portRecord 0x42#8 (putVec b)
  | .cdec b => portRecord 0x43#8 (putVec b)
  | .fwrite b => portRecord 0x44#8 (putVec b)
  | .fread => portRecord 0x45#8 []
  | .msgtx msg => portRecord 0x46#8 (putMessage msg)

/-! ### The opcode table's words -/

/-- The first `n` bytes of a number, least significant first. -/
def bytesOf : Nat → Nat → List Byte
  | 0, _ => []
  | n + 1, w => BitVec.ofNat 8 w :: bytesOf n (w / 256)

/-- Zero bytes enough for every operand a word leaves out: at most 32 bytes of fixed operands (a Message), and
the bytes of a byte vector, whose length is byte 1 or, in RMDEC, byte 2 of the record. -/
def zeroFill (w : Nat) : Nat := 32 + w / 256 % 256 + w / 65536 % 256

/-- The bytes of a word of `nbits` bits, and zeros after it. -/
def tableBytes (nbits w : Nat) : List Byte := bytesOf ((nbits + 7) / 8 + zeroFill (w % 2 ^ nbits)) (w % 2 ^ nbits)

/-- A word of spec/opcode_table.json as a record. The table numbers both spaces with the same byte, so a byte
that R82 assigns is read as the request op, and any other as a command byte (assumption 4). -/
def tableRecord (nbits w : Nat) : Record :=
  match portOperands (w % 2 ^ nbits % 256) with
  | some _ => { space := .port, bytes := tableBytes nbits w }
  | none => { space := .bus, bytes := tableBytes nbits w }

/-- What the decoder reads from a word of the opcode table. -/
def decodeTableWord (nbits w : Nat) : Option Instr :=
  match decode (tableRecord nbits w) with
  | .ok i => some i
  | .error _ => none

end Sys2Proof
end

