-- ==== Sys2Proof/Machine/State.lean ====
section
/-! DEFINITION. The machine's state: the snapshot register, which is the block's only architectural state
(10_state.md R30), and its four interfaces as plain data (R46): requests waiting on the request port, the
response port, the bytes on the sink, and what sink and source will answer. Also the request faults of
60_exceptions.md R280 and the results of 30_encoding.md R82. -/

namespace Sys2Proof.Machine

/-- Cause of a TransportReadFailure (R280). -/
inductive ReadCause
  /-- the source reported a read error -/
  | sourceError
  /-- the block holds no second chunk -/
  | noSecondChunk
deriving DecidableEq, Repr

/-- Cause of a PayloadDecodeFailure (R280). -/
inductive PayloadCause
  | unexpectedEnd
  | badOptionTag
deriving DecidableEq, Repr

/-- The request faults of R280, each with the info R280 records. A request fault is an answer: the machine goes
on (R288, R289), so it stands in the response and never ends a run. -/
inductive ReqFault
  /-- code 1: SER, MSGTX; the payload length -/
  | protocolEncodeFailure (len : Nat)
  /-- code 2: CENC, MSGTX; the frame length -/
  | frameEncodeFailure (len : Nat)
  /-- code 3: FWRITE, MSGTX; the bytes the sink took -/
  | transportWriteFailure (k : Nat)
  /-- code 4: FREAD -/
  | transportReadFailure (cause : ReadCause)
  /-- code 5: CDEC, FREAD; index of the failing code byte -/
  | frameDecodeFailure (index : Nat)
  /-- code 6: DESER, FREAD -/
  | payloadDecodeFailure (cause : PayloadCause)
  /-- code 7: CONV -/
  | calibrationInvalid
  /-- code 8: reserved, never raised by the block -/
  | invalidStateTransition
  /-- code 9: CONV; the sample's presence mask -/
  | sampleMismatch (present : ChannelSet)
  /-- code 10: RMDEC, RRDEC, S1DEC; the length given -/
  | responseLengthMismatch (n : Nat)
  /-- code 11: FGET, FSET, the typed decodes and encodes; the address given -/
  | accessorMismatch (addr : Byte)
  /-- code 12: FSET, EGAIN; the field index -/
  | fieldRange (idx : BitVec 5)
  /-- code 13: CMDENC of RR or WR; the address given -/
  | addressRange (addr : Byte)
  /-- code 14: CONV -/
  | snapshotAbsent
  /-- code 15: an unassigned op, idx > 23, an unknown base; the offending op, idx or base -/
  | illegalRequest (info : Byte)
  /-- code 16: reserved, never raised -/
  | crcFailure
deriving DecidableEq, Repr

/-- The results of a successful request, one shape per row shape of R82's results column. -/
inductive Result
  /-- no result: FWRITE -/
  | none
  /-- `value:16`: FGET -/
  | value (v : Word16)
  /-- `word:16`: FSET and the typed encodes -/
  | word (w : Word16)
  /-- `gain:3`: DGAIN -/
  | gain (g : Gain)
  /-- one bit: DTCMP, DZSER, DBIST, and SNAPCAP's `valid` -/
  | flag (b : Bool)
  /-- `hall:2`: DHALL -/
  | hall (h : Option HallConf)
  /-- `resX:2, resY:2, resZ:2`: DRES -/
  | resolutions (x y z : Resolution)
  /-- the snapshot fields: SNAPQ -/
  | snapshot (snap : Snap)
  /-- `len:8, bytes[0..3], rlen:8`: CMDENC -/
  | frame (f : CmdFrame)
  /-- status fields: STDEC, S1DEC -/
  | status (st : StatusFields)
  /-- RawSample: RMDEC -/
  | sample (raw : RawSample)
  /-- status fields and `word:16`: RRDEC -/
  | register (st : StatusFields) (w : Word16)
  /-- MagneticField: CONV -/
  | field (m : MagneticField)
  /-- Message: DESER, FREAD -/
  | message (m : Message)
  /-- `(n, bytes)`: SER, CENC, CDEC -/
  | bytes (b : List Byte)
  /-- `m:8`: MSGTX -/
  | written (m : Byte)
deriving DecidableEq, Repr

/-- A response: results, or a fault and no results (R288). -/
inductive Response
  | ok (r : Result)
  | fault (f : ReqFault)
deriving DecidableEq, Repr

/-- What the outside presents to the block: a request, or the block's reset input (R310). -/
inductive Stimulus
  | record (r : Record)
  | reset
deriving DecidableEq, Repr

/-- Reasons the machine stops. The faults the spec gives its requests are answers (`ReqFault`), not stops. -/
inductive Fault
  /-- Raised by `step` alone, when what stands on the request port is no record of R80 and R82 and no frame of
  R85 (cut short, a bit above an operand's width, bytes after its end, low address bits set). Safe: the port
  carries records, so the hardware has no such input. DESIGN CHOICE, assumption 12. -/
  | malformedRecord (e : DecodeError)
deriving DecidableEq, Repr

/-- Reasons for which an instruction has no meaning. -/
inductive Refusal
  /-- Raised by an arm of `exec` for an instruction without a meaning; no arm does so. Safe. -/
  | notModelled (mnemonic : String)
deriving DecidableEq, Repr

/-- The machine. `snap` is the block's architectural state; the other fields are its interfaces, but for
`free`, which is the model's own. -/
structure State where
  /-- the calibration snapshot register (R31) -/
  snap      : Snap
  /-- request port and reset input: what is still to be served, in the requester's order (R35, R70); DESIGN
  CHOICE, assumption 2 -/
  inbox     : List Stimulus
  /-- response port: the answer of the last step; nothing reads it (R30, R289); assumption 13 -/
  response  : Option Response
  /-- byte sink: every byte it took, in order (R60, R70) -/
  sink      : List Byte
  /-- sink oracle: how many bytes it takes of each coming offer (R259); assumption 5 -/
  sinkTakes : List Nat
  /-- source oracle: its answer to each coming read (R262); assumption 5 -/
  source    : List SourceAnswer
  /-- how many bytes were consumed from the source (R60, R67) -/
  consumed  : Nat
  /-- the model's own: how many free values were used; DESIGN CHOICE, assumption 5 -/
  free      : Nat
deriving DecidableEq, Repr

/-- `SNAP` right after reset: `captured` is 0 (R310); the other fields are unspecified and stand at the zeros
that assumption 1 names (DESIGN CHOICE). -/
def Snap.reset : Snap :=
  { captured := false, valid := false, gain := 0#3, hall := none, tcmp := false,
    resX := .res19, resY := .res19, resZ := .res19, tref := 0#16 }

/-- The machine right after reset (R310): nothing asked, nothing answered, nothing emitted or consumed. -/
def State.reset : State :=
  { snap := Snap.reset, inbox := [], response := none, sink := [], sinkTakes := [], source := [],
    consumed := 0, free := 0 }

end Sys2Proof.Machine
end

