-- ==== Sys2Proof/Machine/Operands.lean ====
section
/-! DEFINITION. Operand forms: register fields and the CustomerMemoryArea table (10_state.md R36), the accessor
tag check (41_register_decoder.md R113), ChannelSets (30_encoding.md R86), byte order (20_memory.md R61–R63). -/

namespace Sys2Proof.Machine

/-! ### Byte order -/

/-- `BE16(hi, lo)` (R13). -/
def be16 (hi lo : Byte) : Word16 := hi ++ lo

/-- `LE32(b0, b1, b2, b3)`, b0 least significant (R13). -/
def le32 (b0 b1 b2 b3 : Byte) : F32 := b3 ++ b2 ++ b1 ++ b0

/-- `bytes_LE32(u)` (R13). -/
def bytesLE32 (u : F32) : List Byte :=
  [u.extractLsb' 0 8, u.extractLsb' 8 8, u.extractLsb' 16 8, u.extractLsb' 24 8]

/-- The high byte of a register word (R12). -/
def highByte (w : Word16) : Byte := w.extractLsb' 8 8

/-- The low byte of a register word (R12). -/
def lowByte (w : Word16) : Byte := w.extractLsb' 0 8

/-! ### Register fields -/

/-- The mask of a field at offset `o` of length `l`: `((2^l − 1) << o) mod 2^16` (R111). -/
def fieldMask (o l : Nat) : Word16 := BitVec.ofNat 16 ((2 ^ l - 1) <<< o)

/-- `zext_16(w[o+l−1 : o])` (R9, R10). -/
def getField (w : Word16) (o l : Nat) : Word16 := (w >>> o) &&& BitVec.ofNat 16 (2 ^ l - 1)

/-- `(w AND NOT mask) OR (value << o)` (R111). -/
def setField (w : Word16) (o l : Nat) (value : Word16) : Word16 :=
  (w &&& ~~~ (fieldMask o l)) ||| (value <<< o)

/-- The bit `o` of a word set to `b`. -/
def setBit (w : Word16) (o : Nat) (b : Bool) : Word16 := setField w o 1 (if b then 1#16 else 0#16)

/-- One row of the CustomerMemoryArea table: name, address, offset, length. -/
abbrev CmaRow := String × Byte × Nat × Nat

/-- The CustomerMemoryArea table, in `idx` order (R36). -/
def cmaTable : List CmaRow :=
  [("Hallconf", 0x00#8, 0, 4), ("GainSel", 0x00#8, 4, 3), ("ZSeries", 0x00#8, 7, 1), ("Bist", 0x00#8, 8, 1),
   ("BurstDataRate", 0x01#8, 0, 6), ("BurstSel", 0x01#8, 6, 4), ("TcmpEn", 0x01#8, 10, 1), ("ExtTrg", 0x01#8, 11, 1),
   ("WocDiff", 0x01#8, 12, 1), ("CommMode", 0x01#8, 13, 2), ("TrigInt", 0x01#8, 15, 1),
   ("OSR", 0x02#8, 0, 2), ("DigFilt", 0x02#8, 2, 3), ("ResX", 0x02#8, 5, 2), ("ResY", 0x02#8, 7, 2),
   ("ResZ", 0x02#8, 9, 2), ("OSR2", 0x02#8, 11, 2),
   ("SensTcLT", 0x03#8, 0, 8), ("SensTcHT", 0x03#8, 8, 8),
   ("OffsetX", 0x04#8, 0, 16), ("OffsetY", 0x05#8, 0, 16), ("OffsetZ", 0x06#8, 0, 16),
   ("WOxyThreshold", 0x07#8, 0, 16), ("WOzThreshold", 0x08#8, 0, 16)]

/-- `CMA(idx)`: the triple (address, offset, length) of row `idx`; IllegalRequest for idx 24 … 31, which have no
row (R112). -/
def cma (idx : BitVec 5) : Except ReqFault (Byte × Nat × Nat) :=
  match cmaTable[idx.toNat]? with
  | some (_, a, o, l) => .ok (a, o, l)
  | none => .error (.illegalRequest (idx.setWidth 8))

/-- The index of a field by its table name (R93). -/
def fieldIdx (name : String) : Option (BitVec 5) :=
  (cmaTable.findIdx? fun row => row.1 == name).map fun i => BitVec.ofNat 5 i

/-- The accessor tag check (R113), then the rest of the operation. -/
def withTag (addr a : Byte) (r : Except ReqFault Result) : Except ReqFault Result :=
  if addr ≠ a then .error (.accessorMismatch addr) else r

/-! ### ChannelSets -/

/-- The bit of a Channel in a ChannelSet (R15, R86). -/
def channelBit : Channel → Nat
  | .temp => 0
  | .x => 1
  | .y => 2
  | .z => 3

/-- Is the Channel enabled? -/
def hasChannel (p : ChannelSet) (c : Channel) : Bool := p.getLsbD (channelBit c)

/-- `popcount` of a ChannelSet (R13). -/
def popcount (p : ChannelSet) : Nat :=
  (p.getLsbD 0).toNat + (p.getLsbD 1).toNat + (p.getLsbD 2).toNat + (p.getLsbD 3).toNat

/-- The Channel of an axis. -/
def axisChannel : Axis → Channel
  | .x => .x
  | .y => .y
  | .z => .z

/-- A sample's word of a Channel (R44). -/
def sampleWord (raw : RawSample) : Channel → Word16
  | .temp => raw.wT
  | .x => raw.wX
  | .y => raw.wY
  | .z => raw.wZ

end Sys2Proof.Machine
end

