-- ==== Sys2Proof/Machine/Flags.lean ====
section
/-! DEFINITION. The block has no flags of its own (10_state.md R43). This file holds the one bit-field status the
spec gives: the sensor's status byte (R42), decoded by 42_command_codec.md R170. -/

namespace Sys2Proof.Machine

/-- The fields of a status byte (R42, R170). No rule acts on their values (R171). -/
def statusFields (s : Byte) : StatusFields :=
  { burst := s.getLsbD 7, woc := s.getLsbD 6, sm := s.getLsbD 5, error := s.getLsbD 4, sed := s.getLsbD 3,
    rs := s.getLsbD 2, d := s.extractLsb' 0 2 }

end Sys2Proof.Machine
end

