-- ==== Sys2Proof/Machine/Ops.lean ====
section
/-! DEFINITION. The operations every meaning is written with: answering, raising a fault (60_exceptions.md
R288), the sink's offer and the source's read (44_wire_framer.md R258, R262), the block's reset
(70_reset_and_hazards.md R310), and the codes of R280. -/

namespace Sys2Proof.Machine

/-- Drive the response port. -/
def State.respond (s : State) (r : Response) : State := { s with response := some r }

/-- Fault reporting, the block's trap entry (R288): the request ends with the fault's code and info, no result
and no state written. There is no return from it: the next request is accepted in the same state (R289). -/
def State.raise (s : State) (f : ReqFault) : State := s.respond (.fault f)

/-- A step that answers no request leaves nothing on the response port (R289). -/
def State.quiet (s : State) : State := { s with response := none }

/-- End a request in state `s` with what its pseudocode returned or raised (R13). -/
def finish (s : State) (r : Except ReqFault Result) : Host.Outcome State Fault Refusal :=
  .next (match r with
    | .ok v => s.respond (.ok v)
    | .error f => s.raise f)

/-- `SNAP.captured ← 0` and every other field unspecified (R310): a free value. -/
def unspecifiedSnap (n : Nat) : Snap := { Config.freeSnap n with captured := false }

/-- Block reset (R310). Sink, source and what waits on the request port are external and stay. -/
def State.blockReset (s : State) : State :=
  { s with snap := unspecifiedSnap s.free, free := s.free + 1, response := none }

/-- The sink's choice for an offer of `n` bytes: the next entry of its script, else a free value; at most `n` (R259). -/
def State.sinkChoice (s : State) (n : Nat) : Nat :=
  match s.sinkTakes with
  | k :: _ => min k n
  | [] => min (Config.freeSinkTake s.free) n

/-- `SINK.offer(bytes) → k` (R258): the first k bytes appear on the sink, in order, and stay there (R67). -/
def State.offer (s : State) (bytes : List Byte) : State :=
  { s with
    sink := s.sink ++ bytes.take (s.sinkChoice bytes.length)
    sinkTakes := s.sinkTakes.tail
    free := match s.sinkTakes with
      | [] => s.free + 1
      | _ :: _ => s.free }

/-- The source's answer to a read: the next entry of its script, else a free value (R262, I18). -/
def State.sourceChoice (s : State) : SourceAnswer :=
  match s.source with
  | a :: _ => a
  | [] => Config.freeSourceRead s.free

/-- The bytes a read consumes: those of a block, none on a read error (R67, R262; DEDUCED,
assumption 14). -/
def consumedBy : SourceAnswer → Nat
  | .block _ => Config.rxBlockLen
  | .readError => 0

/-- The state after `SOURCE.read(RX_BLOCK_LEN)` (R262). -/
def State.afterRead (s : State) : State :=
  { s with
    source := s.source.tail
    consumed := s.consumed + consumedBy s.sourceChoice
    free := match s.source with
      | [] => s.free + 1
      | _ :: _ => s.free }

/-! ### Codes and port encodings of a response -/

/-- The fault code (R280). -/
def ReqFault.code : ReqFault → Byte
  | .protocolEncodeFailure _ => 1#8
  | .frameEncodeFailure _ => 2#8
  | .transportWriteFailure _ => 3#8
  | .transportReadFailure _ => 4#8
  | .frameDecodeFailure _ => 5#8
  | .payloadDecodeFailure _ => 6#8
  | .calibrationInvalid => 7#8
  | .invalidStateTransition => 8#8
  | .sampleMismatch _ => 9#8
  | .responseLengthMismatch _ => 10#8
  | .accessorMismatch _ => 11#8
  | .fieldRange _ => 12#8
  | .addressRange _ => 13#8
  | .snapshotAbsent => 14#8
  | .illegalRequest _ => 15#8
  | .crcFailure => 16#8

/-- The numbers of R280's "info recorded" column for a read cause. -/
def ReadCause.number : ReadCause → Nat
  | .sourceError => 0
  | .noSecondChunk => 1

/-- The numbers of R280's "info recorded" column for a payload cause. -/
def PayloadCause.number : PayloadCause → Nat
  | .unexpectedEnd => 1
  | .badOptionTag => 2

/-- The info R280 records with a fault, where it records any. -/
def ReqFault.info : ReqFault → Option Nat
  | .protocolEncodeFailure len => some len
  | .frameEncodeFailure len => some len
  | .transportWriteFailure k => some k
  | .transportReadFailure cause => some cause.number
  | .frameDecodeFailure index => some index
  | .payloadDecodeFailure cause => some cause.number
  | .calibrationInvalid => none
  | .invalidStateTransition => none
  | .sampleMismatch present => some present.toNat
  | .responseLengthMismatch n => some n
  | .accessorMismatch addr => some addr.toNat
  | .fieldRange idx => some idx.toNat
  | .addressRange addr => some addr.toNat
  | .snapshotAbsent => none
  | .illegalRequest info => some info.toNat
  | .crcFailure => none

/-- The fault code of a response; 0 is success (R280). -/
def Response.code : Response → Byte
  | .ok _ => 0#8
  | .fault f => f.code

/-- Port code of a Resolution: 19 − bits (R15, R83). -/
def resolutionCode : Resolution → BitVec 2
  | .res19 => 0#2
  | .res18 => 1#2
  | .res17 => 2#2
  | .res16 => 3#2

/-- Port code of an Option HallConf: `present ‖ phase` (R15, R83). -/
def hallCode : Option HallConf → BitVec 2
  | none => 0b00#2
  | some .twoPhase => 0b10#2
  | some .fourPhase => 0b11#2

/-- One field of a response on the port: its width in bits and its value. -/
abbrev PortField := Nat × Nat

/-- A field holding a bit vector. -/
def portBits {w : Nat} (v : BitVec w) : PortField := (w, v.toNat)

/-- A one-bit field, 1 = true (R83). -/
def portBool (b : Bool) : PortField := (1, b.toNat)

/-- An optional binary32, `(present : 1, bits : 32)` (R82). An absent one's bits are driven 0: DESIGN CHOICE, assumption 10. -/
def portOption : Option F32 → List PortField
  | some v => [portBool true, portBits v]
  | none => [portBool false, portBits 0#32]

def portStatus (st : StatusFields) : List PortField :=
  [portBool st.burst, portBool st.woc, portBool st.sm, portBool st.error, portBool st.sed, portBool st.rs, portBits st.d]

def portField (m : MagneticField) : List PortField :=
  portOption m.x ++ portOption m.y ++ portOption m.z ++ portOption m.t

/-- The results on the response port: the fields of R82's results column, in its order and widths. -/
def Result.portFields : Result → List PortField
  | .none => []
  | .value v => [portBits v]
  | .word w => [portBits w]
  | .gain g => [portBits g]
  | .flag b => [portBool b]
  | .hall h => [portBits (hallCode h)]
  | .resolutions x y z => [portBits (resolutionCode x), portBits (resolutionCode y), portBits (resolutionCode z)]
  | .snapshot p => [portBool p.captured, portBool p.valid, portBits p.gain, portBits (hallCode p.hall), portBool p.tcmp,
      portBits (resolutionCode p.resX), portBits (resolutionCode p.resY), portBits (resolutionCode p.resZ), portBits p.tref]
  | .frame f => [portBits f.len, portBits f.b0, portBits f.b1, portBits f.b2, portBits f.b3, portBits f.rlen]
  | .status st => portStatus st
  | .sample r => [portBits r.status, portBits r.present, portBits r.wT, portBits r.wX, portBits r.wY, portBits r.wZ]
  | .register st w => portStatus st ++ [portBits w]
  | .field m => portField m
  | .message m => portField m.field ++ [portBits m.px, portBits m.py, portBits m.pz]
  | .bytes b => (8, b.length) :: b.map portBits
  | .written m => [portBits m]

/-- The results on the response port; a faulted request carries none (R288). -/
def Response.portFields : Response → List PortField
  | .ok r => r.portFields
  | .fault _ => []

end Sys2Proof.Machine
end

