-- ==== Sys2Proof/Machine/Commands.lean ====
section
/-! DEFINITION. The command/response frame codec (42_command_codec.md): the ten commands, CMDENC, and the response
decoders STDEC, RMDEC, RRDEC, S1DEC. All are pure: no state is written. -/

namespace Sys2Proof.Machine

/-! ### Command frames -/

/-- A CMD1 frame; the result bytes beyond `len` are driven 0x00 (R85, R150). -/
def frame1 (c rlen : Byte) : CmdFrame := { len := 1#8, b0 := c, b1 := 0#8, b2 := 0#8, b3 := 0#8, rlen := rlen }

/-- A CMD1-P command byte `base[7:4] ‖ p` (R85, R86). -/
def withChans (base : Byte) (p : ChannelSet) : Byte := base ||| p.setWidth 8

/-- Response length of RM: `1 + 2·popcount(p)` (R154, R161). -/
def rmLen (p : ChannelSet) : Nat := 1 + 2 * popcount p

/-- SB (R151). -/
def sbFrame (p : ChannelSet) : CmdFrame := frame1 (withChans 0x10#8 p) 1#8

/-- SW (R152). -/
def swFrame (p : ChannelSet) : CmdFrame := frame1 (withChans 0x20#8 p) 1#8

/-- SM (R153). -/
def smFrame (p : ChannelSet) : CmdFrame := frame1 (withChans 0x30#8 p) 1#8

/-- RM (R154). -/
def rmFrame (p : ChannelSet) : CmdFrame := frame1 (withChans 0x40#8 p) (BitVec.ofNat 8 (rmLen p))

/-- The address byte `(addr << 2) AND 0xFF` (R87). -/
def addrByte (addr : Byte) : Byte := addr <<< 2

/-- The range check of RR and WR (R77). -/
def checkAddr (addr : Byte) (f : CmdFrame) : Except ReqFault CmdFrame :=
  if Config.addrMax < addr.toNat then .error (.addressRange addr) else .ok f

/-- RR (R155). -/
def rrFrame (addr : Byte) : Except ReqFault CmdFrame :=
  checkAddr addr { len := 2#8, b0 := 0x50#8, b1 := addrByte addr, b2 := 0#8, b3 := 0#8, rlen := 3#8 }

/-- WR (R156). -/
def wrFrame (addr : Byte) (data : Word16) : Except ReqFault CmdFrame :=
  checkAddr addr
    { len := 4#8, b0 := 0x60#8, b1 := highByte data, b2 := lowByte data, b3 := addrByte addr, rlen := 1#8 }

/-- EX (R157). -/
def exFrame : CmdFrame := frame1 0x80#8 1#8

/-- HR (R158). -/
def hrFrame : CmdFrame := frame1 0xD0#8 1#8

/-- HS (R159). -/
def hsFrame : CmdFrame := frame1 0xE0#8 1#8

/-- RT (R160). Encoding it resets nothing in the block. -/
def rtFrame : CmdFrame := frame1 0xF0#8 1#8

/-- CMDENC's dispatch on the base byte; operands a command does not use are ignored (R150). -/
def commandFrame (base : Byte) (chans : ChannelSet) (addr : Byte) (data : Word16) : Except ReqFault CmdFrame :=
  match base.toNat with
  | 0x10 => .ok (sbFrame chans)
  | 0x20 => .ok (swFrame chans)
  | 0x30 => .ok (smFrame chans)
  | 0x40 => .ok (rmFrame chans)
  | 0x50 => rrFrame addr
  | 0x60 => wrFrame addr data
  | 0x80 => .ok exFrame
  | 0xD0 => .ok hrFrame
  | 0xE0 => .ok hsFrame
  | 0xF0 => .ok rtFrame
  | _ => .error (.illegalRequest base)

/-- The frame bytes among the result bytes: the first `len` (R150). -/
def frameBytes (f : CmdFrame) : List Byte := [f.b0, f.b1, f.b2, f.b3].take f.len.toNat

/-- The length of a frame from its command byte alone (R90). -/
def lenOfCommandByte (c : Byte) : Nat :=
  if c.toNat / 16 = 5 then 2 else if c.toNat / 16 = 6 then 4 else 1

/-- CMDENC's result. -/
def frameResult (r : Except ReqFault CmdFrame) : Except ReqFault Result :=
  match r with
  | .ok f => .ok (.frame f)
  | .error e => .error e

/-! ### Responses -/

/-- Take the next channel word of a response when the channel is enabled; an absent word is driven 0x0000 and
takes no bytes (R172). -/
def takeChannel (enabled : Bool) (b : List Byte) : Word16 × List Byte :=
  if enabled then
    match b with
    | hi :: lo :: rest => (be16 hi lo, rest)
    | _ => (0#16, [])
  else (0#16, b)

/-- RMDEC (R172): the words in fixed precedence Temp, X, Y, Z, no gap for an absent channel. -/
def rmDecode (chans : ChannelSet) (b : List Byte) : Except ReqFault Result :=
  if b.length ≠ rmLen chans then .error (.responseLengthMismatch b.length)
  else
    let t := takeChannel (hasChannel chans .temp) b.tail
    let x := takeChannel (hasChannel chans .x) t.2
    let y := takeChannel (hasChannel chans .y) x.2
    let z := takeChannel (hasChannel chans .z) y.2
    .ok (.sample { status := b.headD 0#8, present := chans, wT := t.1, wX := x.1, wY := y.1, wZ := z.1 })

/-- RRDEC (R174). -/
def rrDecode (b : List Byte) : Except ReqFault Result :=
  match b with
  | [s, hi, lo] => .ok (.register (statusFields s) (be16 hi lo))
  | _ => .error (.responseLengthMismatch b.length)

/-- S1DEC (R175). -/
def s1Decode (b : List Byte) : Except ReqFault Result :=
  match b with
  | [s] => .ok (.status (statusFields s))
  | _ => .error (.responseLengthMismatch b.length)

/-! ### Meanings -/

/-- SB (R151). -/
def execSb (p : ChannelSet) (s : State) : Host.Outcome State Fault Refusal := finish s (.ok (.frame (sbFrame p)))

/-- SW (R152). -/
def execSw (p : ChannelSet) (s : State) : Host.Outcome State Fault Refusal := finish s (.ok (.frame (swFrame p)))

/-- SM (R153). -/
def execSm (p : ChannelSet) (s : State) : Host.Outcome State Fault Refusal := finish s (.ok (.frame (smFrame p)))

/-- RM (R154). -/
def execRm (p : ChannelSet) (s : State) : Host.Outcome State Fault Refusal := finish s (.ok (.frame (rmFrame p)))

/-- RR (R155). -/
def execRr (addr : Byte) (s : State) : Host.Outcome State Fault Refusal := finish s (frameResult (rrFrame addr))

/-- WR (R156). -/
def execWr (addr : Byte) (data : Word16) (s : State) : Host.Outcome State Fault Refusal :=
  finish s (frameResult (wrFrame addr data))

/-- EX (R157). -/
def execEx (s : State) : Host.Outcome State Fault Refusal := finish s (.ok (.frame exFrame))

/-- HR (R158). -/
def execHr (s : State) : Host.Outcome State Fault Refusal := finish s (.ok (.frame hrFrame))

/-- HS (R159). -/
def execHs (s : State) : Host.Outcome State Fault Refusal := finish s (.ok (.frame hsFrame))

/-- RT (R160). -/
def execRt (s : State) : Host.Outcome State Fault Refusal := finish s (.ok (.frame rtFrame))

/-- CMDENC (R150). -/
def execCmdenc (base : Byte) (chans : ChannelSet) (addr : Byte) (data : Word16) (s : State) :
    Host.Outcome State Fault Refusal :=
  finish s (frameResult (commandFrame base chans addr data))

/-- STDEC (R170). -/
def execStdec (b : Byte) (s : State) : Host.Outcome State Fault Refusal := finish s (.ok (.status (statusFields b)))

/-- RMDEC (R172). -/
def execRmdec (chans : ChannelSet) (b : List Byte) (s : State) : Host.Outcome State Fault Refusal :=
  finish s (rmDecode chans b)

/-- RRDEC (R174). -/
def execRrdec (b : List Byte) (s : State) : Host.Outcome State Fault Refusal := finish s (rrDecode b)

/-- S1DEC (R175). -/
def execS1dec (b : List Byte) (s : State) : Host.Outcome State Fault Refusal := finish s (s1Decode b)

end Sys2Proof.Machine
end

