-- ==== Sys2Proof/Machine/Binary32.lean ====
section
/-! DEFINITION. IEEE 754 binary32 multiplication, division and addition, rounding to nearest, ties to even
(00_scope.md R13, 43_converter.md R208). A finite value is the exact number `± mant · 2^exp`; every operation is
computed exactly on such numbers and rounded once. Subnormal results are kept; there are no exception flags. -/

namespace Sys2Proof.Machine

def signBit (f : F32) : Bool := f.getLsbD 31

def expField (f : F32) : Nat := (f.extractLsb' 23 8).toNat

def fracField (f : F32) : Nat := (f.extractLsb' 0 23).toNat

def isNaN (f : F32) : Bool := expField f == 255 && fracField f != 0

def isInf (f : F32) : Bool := expField f == 255 && fracField f == 0

def isFinite (f : F32) : Bool := expField f != 255

def isZero (f : F32) : Bool := expField f == 0 && fracField f == 0

/-- The significand of a finite value, as an integer. -/
def mant (f : F32) : Nat := if expField f = 0 then fracField f else fracField f + 2 ^ 23

/-- The exponent of a finite value's significand: the value is `± mant · 2^exponent`. -/
def exponent (f : F32) : Int := if expField f = 0 then -149 else (expField f : Int) - 150

/-- A pattern from a sign and the 31 bits below it. -/
def withSign (neg : Bool) (low : Nat) : F32 := BitVec.ofNat 32 ((if neg then 2 ^ 31 else 0) + low)

def signedZero (neg : Bool) : F32 := withSign neg 0

def signedInf (neg : Bool) : F32 := withSign neg (255 * 2 ^ 23)

/-- `m / 2^d`, rounded to nearest, ties to even. -/
def divRoundEven (m d : Nat) : Nat :=
  let k := m / 2 ^ d
  let r := m % 2 ^ d
  if 2 ^ d < 2 * r ∨ (2 * r = 2 ^ d ∧ k % 2 = 1) then k + 1 else k

/-- The exponent of the last place of binary32 at the number `m · 2^e`: 23 below its leading bit, never below the
subnormals' −149. -/
def lastPlace (m : Nat) (e : Int) : Int := max ((m.log2 : Int) + e - 23) (-149)

/-- `RNE32(± m · 2^e)` (R13): the number in units of its last place, rounded, and packed. The carry of a
significand that rounds up to 2^24 moves the exponent field by itself. -/
def round32 (neg : Bool) (m : Nat) (e : Int) : F32 :=
  if m = 0 then signedZero neg
  else
    let q := lastPlace m e
    let units := if q ≤ e then m * 2 ^ (e - q).toNat else divRoundEven m (q - e).toNat
    let low := (q + 149).toNat * 2 ^ 23 + units
    if 255 * 2 ^ 23 ≤ low then signedInf neg else withSign neg low

/-- The quiet NaN with a sign and a payload. -/
def quietNaN (neg : Bool) (payload : BitVec 22) : F32 := BitVec.ofBool neg ++ 0x1FF#9 ++ payload

/-- The NaN of an invalid operation: quiet, of any sign and payload. -/
def invalidNaN (op : FloatOp) (a b : F32) : F32 := quietNaN (Config.freeNaNSign op a b) (Config.freeNaNPayload op a b)

/-- The payload of a NaN: the 22 bits below the quiet bit. -/
def nanPayload (f : F32) : BitVec 22 := f.extractLsb' 0 22

/-- A NaN operand propagates (R208): the result is quiet and keeps its payload, the payload of either one where both
operands are NaN. IEEE 754 leaves the sign open (assumption 9). -/
def propagatedNaN (op : FloatOp) (a b : F32) : F32 :=
  quietNaN (Config.freeNaNSign op a b)
    (nanPayload (if isNaN a && (!isNaN b || Config.freeNaNFirst op a b) then a else b))

/-- `f32(i)` (R13). -/
def f32 (i : Int) : F32 := round32 (decide (i < 0)) i.natAbs 0

/-- `mul32(a, b)` (R13, R208). -/
def mul32 (a b : F32) : F32 :=
  if isNaN a || isNaN b then propagatedNaN .mul a b
  else if isInf a || isInf b then
    if isZero a || isZero b then invalidNaN .mul a b else signedInf (signBit a ^^ signBit b)
  else round32 (signBit a ^^ signBit b) (mant a * mant b) (exponent a + exponent b)

/-- `div32(a, b)` (R13, R208). The quotient carries 50 bits below the point and a sticky bit for the rest. -/
def div32 (a b : F32) : F32 :=
  let neg := signBit a ^^ signBit b
  if isNaN a || isNaN b then propagatedNaN .div a b
  else if isInf a then
    if isInf b then invalidNaN .div a b else signedInf neg
  else if isInf b then signedZero neg
  else if isZero b then
    if isZero a then invalidNaN .div a b else signedInf neg
  else
    let n := mant a * 2 ^ 50
    let sticky := if n % mant b = 0 then 0 else 1
    round32 neg (2 * (n / mant b) + sticky) (exponent a - exponent b - 51)

/-- A finite value as an integer multiple of `2^e`, for `e` at most its exponent. -/
def scaled (f : F32) (e : Int) : Int :=
  let m : Int := (mant f * 2 ^ (exponent f - e).toNat : Nat)
  if signBit f then -m else m

/-- `add32(a, b)` (R13, R208). An exact zero sum is +0, unless both operands are −0. -/
def add32 (a b : F32) : F32 :=
  if isNaN a || isNaN b then propagatedNaN .add a b
  else if isInf a then
    if isInf b && (signBit a ^^ signBit b) then invalidNaN .add a b else a
  else if isInf b then b
  else
    let e := min (exponent a) (exponent b)
    let sum := scaled a e + scaled b e
    if sum = 0 then signedZero (signBit a && signBit b)
    else round32 (decide (sum < 0)) sum.natAbs e

end Sys2Proof.Machine
end

