-- ==== Sys2Proof/Machine/Converter.lean ====
section
/-! DEFINITION. The measurement converter (43_converter.md): CONV. It reads `SNAP` and writes no state. -/

namespace Sys2Proof.Machine

open Config (ConvParams)

/-- An axis's own resolution (R204). -/
def axisRes (p : Snap) : Axis → Resolution
  | .x => p.resX
  | .y => p.resY
  | .z => p.resZ

/-- `phase(SNAP.hall)`: the phase bit of the 2-bit field `present ‖ phase` (R31, R200). `None` is 00, whose phase
bit is TwoPhase's (assumption 8); a valid snapshot holds no `None` (Safety.lean, `State.Inv`). -/
def hallPhase : Option HallConf → HallConf
  | some h => h
  | none => .twoPhase

/-- `AXIS(a, w)` in µT (R203). -/
def axisValue (c : ConvParams) (p : Snap) (a : Axis) (w : Word16) : F32 :=
  mul32 (f32 w.toInt) (c.sens p.gain (axisRes p a) (hallPhase p.hall) a)

/-- `T0(w)` in °C: divide, then add (R206). -/
def tempBase (c : ConvParams) (p : Snap) (w : Word16) : F32 :=
  add32 (c.refOffset p.tref) (div32 (f32 w.toInt) c.tempScale)

/-- `TEMP(w)`: the adjustment applies only when `SNAP.tcmp` = 1 (R207). -/
def tempValue (c : ConvParams) (p : Snap) (w : Word16) : F32 :=
  if p.tcmp then c.tcmpAdj (tempBase c p w) p else tempBase c p w

/-- An axis's value, when its channel is requested (R200, R205). -/
def axisField (c : ConvParams) (p : Snap) (chans : ChannelSet) (raw : RawSample) (a : Axis) : Option F32 :=
  if hasChannel chans (axisChannel a) then some (axisValue c p a (sampleWord raw (axisChannel a))) else none

/-- The temperature, when it is requested (R200). -/
def tempField (c : ConvParams) (p : Snap) (chans : ChannelSet) (raw : RawSample) : Option F32 :=
  if hasChannel chans .temp then some (tempValue c p (sampleWord raw .temp)) else none

/-- CONV with the parameters `c` (R200, R201, R205). -/
def convert (c : ConvParams) (p : Snap) (chans : ChannelSet) (raw : RawSample) : Except ReqFault MagneticField :=
  if p.captured = false then .error .snapshotAbsent
  else if p.valid = false then .error .calibrationInvalid
  else if raw.present ≠ chans then .error (.sampleMismatch raw.present)
  else .ok
    { x := axisField c p chans raw .x
      y := axisField c p chans raw .y
      z := axisField c p chans raw .z
      t := tempField c p chans raw }

/-- CONV's result. -/
def fieldResult (r : Except ReqFault MagneticField) : Except ReqFault Result :=
  match r with
  | .ok m => .ok (.field m)
  | .error e => .error e

/-- CONV (R200). -/
def execConv (chans : ChannelSet) (raw : RawSample) (s : State) : Host.Outcome State Fault Refusal :=
  finish s (fieldResult (convert Config.convParams s.snap chans raw))

end Sys2Proof.Machine
end

