-- ==== Sys2Proof/Machine/Framer.lean ====
section
/-! DEFINITION. The binary telemetry wire framer (44_wire_framer.md): Message serialization (SER, DESER), COBS
framing (CENC, CDEC), and transport (FWRITE, FREAD, MSGTX). No `SNAP` state is written. -/

namespace Sys2Proof.Machine

/-! ### Message serialization -/

/-- An optional value: tag 0x00, or tag 0x01 and the four pattern bytes (R240–R242). -/
def putTagged : Option F32 → List Byte
  | none => [0x00#8]
  | some f => 0x01#8 :: bytesLE32 f

/-- The payload of a Message (R240). -/
def payloadOf (m : Message) : List Byte :=
  putTagged m.field.x ++ putTagged m.field.y ++ putTagged m.field.z ++ putTagged m.field.t ++
    bytesLE32 m.px ++ bytesLE32 m.py ++ bytesLE32 m.pz

/-- SER (R240). -/
def serialize (m : Message) : Except ReqFault (List Byte) :=
  if Config.serBufLen < (payloadOf m).length then .error (.protocolEncodeFailure (payloadOf m).length)
  else .ok (payloadOf m)

/-- Four bytes of a payload as a binary32 pattern, and what is left (R244). -/
def getF32 : List Byte → Except ReqFault (F32 × List Byte)
  | b0 :: b1 :: b2 :: b3 :: rest => .ok (le32 b0 b1 b2 b3, rest)
  | _ => .error (.payloadDecodeFailure .unexpectedEnd)

/-- One optional value of a payload: its tag, then its bytes (R244). -/
def getTagged : List Byte → Except ReqFault (Option F32 × List Byte)
  | [] => .error (.payloadDecodeFailure .unexpectedEnd)
  | tag :: rest =>
    if tag = 0x00#8 then .ok (none, rest)
    else if tag = 0x01#8 then
      match getF32 rest with
      | .ok (f, rest') => .ok (some f, rest')
      | .error e => .error e
    else .error (.payloadDecodeFailure .badOptionTag)

/-- DESER (R244): the first failing check in byte order decides; bytes after the Message are ignored (R246). -/
def deserialize (d : List Byte) : Except ReqFault Message := do
  let (x, d) ← getTagged d
  let (y, d) ← getTagged d
  let (z, d) ← getTagged d
  let (t, d) ← getTagged d
  let (px, d) ← getF32 d
  let (py, d) ← getF32 d
  let (pz, _) ← getF32 d
  return { field := { x := x, y := y, z := z, t := t }, px := px, py := py, pz := pz }

/-! ### COBS -/

/-- The variables of R251's loop: the output, the index of the pending code byte, and the code. -/
structure CobsLoop where
  out  : List Byte
  ci   : Nat
  code : Nat
deriving DecidableEq, Repr

/-- `out[ci] <- code; ci <- |out|; out <- out ‖ [0]; code <- 1` (R251). -/
def cobsClose (c : CobsLoop) : CobsLoop :=
  { out := c.out.set c.ci (BitVec.ofNat 8 c.code) ++ [0#8], ci := c.out.length, code := 1 }

/-- One turn of R251's loop. -/
def cobsTurn (c : CobsLoop) (x : Byte) : CobsLoop :=
  if x = 0#8 then cobsClose c
  else
    let c' : CobsLoop := { out := c.out ++ [x], ci := c.ci, code := c.code + 1 }
    if c'.code = 0xFF then cobsClose c' else c'

/-- `COBS(b)` (R251). -/
def cobs (b : List Byte) : List Byte :=
  let c := b.foldl cobsTurn { out := [0#8], ci := 0, code := 1 }
  c.out.set c.ci (BitVec.ofNat 8 c.code)

/-- CENC (R250). -/
def cobsEncode (b : List Byte) : Except ReqFault (List Byte) :=
  if Config.frameBufLen < (cobs b ++ [0#8]).length then .error (.frameEncodeFailure (cobs b ++ [0#8]).length)
  else .ok (cobs b ++ [0#8])

/-- The fault of an empty chunk (R256). -/
def emptyChunk : EmptyChunkFault → ReqFault
  | .frameDecodeFailure => .frameDecodeFailure 0
  | .payloadDecodeFailure => .payloadDecodeFailure .unexpectedEnd

/-- R255's loop at index `i`, with `rest` = c[i..n−1]. Each turn takes a byte or more, so `fuel` = |rest| suffices. -/
def cobsDecodeFrom : Nat → Nat → List Byte → List Byte → Except ReqFault (List Byte)
  | _, _, [], out => .ok out
  | 0, _, _ :: _, out => .ok out
  | fuel + 1, i, code :: tail, out =>
    if code = 0x00#8 then .error (.frameDecodeFailure i)
    else if (code :: tail).length < code.toNat then .error (.frameDecodeFailure i)
    else
      let rest := tail.drop (code.toNat - 1)
      let out' := out ++ tail.take (code.toNat - 1)
      cobsDecodeFrom fuel (i + code.toNat) rest
        (if code ≠ 0xFF#8 ∧ rest ≠ [] then out' ++ [0x00#8] else out')

/-- CDEC (R255), for a value of `EMPTY_CHUNK_FAULT`. -/
def cobsDecodeWith (e : EmptyChunkFault) (c : List Byte) : Except ReqFault (List Byte) :=
  if c = [] then .error (emptyChunk e) else cobsDecodeFrom c.length 0 c []

/-- CDEC (R255). -/
def cobsDecode (c : List Byte) : Except ReqFault (List Byte) := cobsDecodeWith Config.emptyChunkFault c

/-! ### Transport -/

/-- `split0(b)`: the chunks between zero bytes, empty ones kept (R263). -/
def split0 : List Byte → List (List Byte)
  | [] => [[]]
  | b :: rest =>
    if b = 0#8 then [] :: split0 rest
    else
      match split0 rest with
      | [] => [[b]]
      | ch :: more => (b :: ch) :: more

/-- `ch[1]` of a block, or the fault where no second chunk exists (R262). -/
def secondChunk (blk : List Byte) : Except ReqFault (List Byte) :=
  match split0 blk with
  | _ :: ch :: _ => .ok ch
  | _ => .error (.transportReadFailure .noSecondChunk)

/-- The Message of one block (R262). -/
def messageOfBlock (blk : List Byte) : Except ReqFault Message := do
  let ch ← secondChunk blk
  let payload ← cobsDecode ch
  deserialize payload

/-- What FREAD makes of the source's answer (R262). -/
def messageOfAnswer : SourceAnswer → Except ReqFault Message
  | .readError => .error (.transportReadFailure .sourceError)
  | .block bytes => messageOfBlock bytes.toList

/-- FWRITE's answer when the sink takes `k` of `n` bytes (R258). -/
def writeAnswer (k n : Nat) (r : Result) : Except ReqFault Result :=
  if k < n then .error (.transportWriteFailure k) else .ok r

/-- The frame of a Message: SER, then CENC (R266). -/
def frameOf (m : Message) : Except ReqFault (List Byte) := do
  let p ← serialize m
  cobsEncode p

/-- A byte-vector result. -/
def bytesResult (r : Except ReqFault (List Byte)) : Except ReqFault Result :=
  match r with
  | .ok b => .ok (.bytes b)
  | .error e => .error e

/-- A Message result. -/
def messageResult (r : Except ReqFault Message) : Except ReqFault Result :=
  match r with
  | .ok m => .ok (.message m)
  | .error e => .error e

/-- Offer a frame to the sink and answer `r` if it took all of it (R258, R266). -/
def writeFrame (f : List Byte) (r : Result) (s : State) : Host.Outcome State Fault Refusal :=
  finish (s.offer f) (writeAnswer (s.sinkChoice f.length) f.length r)

/-! ### Meanings -/

/-- SER (R240). -/
def execSer (m : Message) (s : State) : Host.Outcome State Fault Refusal := finish s (bytesResult (serialize m))

/-- DESER (R244). -/
def execDeser (d : List Byte) (s : State) : Host.Outcome State Fault Refusal :=
  finish s (messageResult (deserialize d))

/-- CENC (R250). -/
def execCenc (b : List Byte) (s : State) : Host.Outcome State Fault Refusal := finish s (bytesResult (cobsEncode b))

/-- CDEC (R255). -/
def execCdec (c : List Byte) (s : State) : Host.Outcome State Fault Refusal := finish s (bytesResult (cobsDecode c))

/-- FWRITE (R258): the frame is not checked for form. -/
def execFwrite (f : List Byte) (s : State) : Host.Outcome State Fault Refusal := writeFrame f .none s

/-- FREAD (R262): the block is consumed whether the request succeeds or faults, and none of it is kept. -/
def execFread (s : State) : Host.Outcome State Fault Refusal :=
  finish s.afterRead (messageResult (messageOfAnswer s.sourceChoice))

/-- MSGTX (R266): the first fault of the three steps ends the request. -/
def execMsgtx (m : Message) (s : State) : Host.Outcome State Fault Refusal :=
  match frameOf m with
  | .error e => finish s (.error e)
  | .ok f => writeFrame f (.written (BitVec.ofNat 8 f.length)) s

end Sys2Proof.Machine
end

