-- ==== Sys2Proof/Machine/Registers.lean ====
section
/-! DEFINITION. The register bit-field decoder and the calibration snapshot (41_register_decoder.md): FGET, FSET,
the typed decodes and encodes, SNAPCAP, SNAPQ. -/

namespace Sys2Proof.Machine

/-! ### Typed field decodes -/

/-- GainSel, w[6:4] (R114). -/
def gainOf (w : Word16) : Gain := w.extractLsb' 4 3

/-- TcmpEn, w[10] (R115; 90_conflicts.md C1). -/
def tcmpOf (w : Word16) : Bool := w.getLsbD 10

/-- The hall configuration of w[3:0]: 0000 and 1100 decode, any other pattern is absent (R116). -/
def hallOf (w : Word16) : Option HallConf :=
  let h : BitVec 4 := w.extractLsb' 0 4
  if h = 0b0000#4 then some .twoPhase
  else if h = 0b1100#4 then some .fourPhase
  else none

/-- ZSeries, w[7] (R117). -/
def zseriesOf (w : Word16) : Bool := w.getLsbD 7

/-- Bist, w[8] (R118). -/
def bistOf (w : Word16) : Bool := w.getLsbD 8

/-- The Resolution of a 2-bit code k: 19 − k bits (R120). -/
def resolutionOf (k : BitVec 2) : Resolution :=
  if k = 0#2 then .res19 else if k = 1#2 then .res18 else if k = 2#2 then .res17 else .res16

/-- The X code, w[6:5] (R119). -/
def resXOf (w : Word16) : Resolution := resolutionOf (w.extractLsb' 5 2)

/-- The Y code `2·v + y`, with the selector bit v = w[7] and Y's own bit y = w[8] (R119, 90_conflicts.md C5). -/
def resYOf (w : Word16) : Resolution := resolutionOf (w.extractLsb' 7 1 ++ w.extractLsb' 8 1)

/-- The Z code, w[10:9] (R119). -/
def resZOf (w : Word16) : Resolution := resolutionOf (w.extractLsb' 9 2)

/-! ### Generic field access -/

/-- FGET (R110). -/
def fget (addr : Byte) (word : Word16) (idx : BitVec 5) : Except ReqFault Result :=
  match cma idx with
  | .error f => .error f
  | .ok (a, o, l) => withTag addr a (.ok (.value (getField word o l)))

/-- FSET (R111). -/
def fset (addr : Byte) (word : Word16) (idx : BitVec 5) (value : Word16) : Except ReqFault Result :=
  match cma idx with
  | .error f => .error f
  | .ok (a, o, l) =>
    withTag addr a (if 2 ^ l ≤ value.toNat then .error (.fieldRange idx) else .ok (.word (setField word o l value)))

/-- EGAIN (R122): the range fault names field 1, GainSel. -/
def egain (addr : Byte) (word : Word16) (gain : Byte) : Except ReqFault Result :=
  withTag addr 0x00#8
    (if 7 < gain.toNat then .error (.fieldRange 1#5) else .ok (.word (setField word 4 3 (gain.setWidth 16))))

/-! ### Calibration snapshot -/

/-- The snapshot SNAPCAP captures (R130). -/
def captureSnap (w0 w1 w2 tref : Word16) : Snap :=
  { captured := true
    valid := (hallOf w0).isSome
    gain := gainOf w0
    hall := hallOf w0
    tcmp := tcmpOf w1
    resX := resXOf w2
    resY := resYOf w2
    resZ := resZOf w2
    tref := tref }

/-- SNAPQ's response before the first capture: all zero (R131). -/
def zeroSnap : Snap :=
  { captured := false, valid := false, gain := 0#3, hall := none, tcmp := false,
    resX := .res19, resY := .res19, resZ := .res19, tref := 0#16 }

/-- What SNAPQ shows of `SNAP` (R131). -/
def shownSnap (p : Snap) : Snap := if p.captured then p else zeroSnap

/-! ### Meanings -/

/-- FGET (R110). -/
def execFget (addr : Byte) (word : Word16) (idx : BitVec 5) (s : State) : Host.Outcome State Fault Refusal :=
  finish s (fget addr word idx)

/-- FSET (R111). -/
def execFset (addr : Byte) (word : Word16) (idx : BitVec 5) (value : Word16) (s : State) :
    Host.Outcome State Fault Refusal :=
  finish s (fset addr word idx value)

/-- DGAIN (R114). -/
def execDgain (addr : Byte) (word : Word16) (s : State) : Host.Outcome State Fault Refusal :=
  finish s (withTag addr 0x00#8 (.ok (.gain (gainOf word))))

/-- DTCMP (R115). -/
def execDtcmp (addr : Byte) (word : Word16) (s : State) : Host.Outcome State Fault Refusal :=
  finish s (withTag addr 0x01#8 (.ok (.flag (tcmpOf word))))

/-- DHALL (R116): an absent result is a result, not a fault. -/
def execDhall (addr : Byte) (word : Word16) (s : State) : Host.Outcome State Fault Refusal :=
  finish s (withTag addr 0x00#8 (.ok (.hall (hallOf word))))

/-- DZSER (R117). -/
def execDzser (addr : Byte) (word : Word16) (s : State) : Host.Outcome State Fault Refusal :=
  finish s (withTag addr 0x00#8 (.ok (.flag (zseriesOf word))))

/-- DBIST (R118). -/
def execDbist (addr : Byte) (word : Word16) (s : State) : Host.Outcome State Fault Refusal :=
  finish s (withTag addr 0x00#8 (.ok (.flag (bistOf word))))

/-- DRES (R119). -/
def execDres (addr : Byte) (word : Word16) (s : State) : Host.Outcome State Fault Refusal :=
  finish s (withTag addr 0x02#8 (.ok (.resolutions (resXOf word) (resYOf word) (resZOf word))))

/-- EGAIN (R122). -/
def execEgain (addr : Byte) (word : Word16) (gain : Byte) (s : State) : Host.Outcome State Fault Refusal :=
  finish s (egain addr word gain)

/-- ETCMP (R123). -/
def execEtcmp (addr : Byte) (word : Word16) (b : Bool) (s : State) : Host.Outcome State Fault Refusal :=
  finish s (withTag addr 0x01#8 (.ok (.word (setBit word 10 b))))

/-- EZSER (R124). -/
def execEzser (addr : Byte) (word : Word16) (b : Bool) (s : State) : Host.Outcome State Fault Refusal :=
  finish s (withTag addr 0x00#8 (.ok (.word (setBit word 7 b))))

/-- EBIST (R125). -/
def execEbist (addr : Byte) (word : Word16) (b : Bool) (s : State) : Host.Outcome State Fault Refusal :=
  finish s (withTag addr 0x00#8 (.ok (.word (setBit word 8 b))))

/-- SNAPCAP (R130): the one request that writes `SNAP`; it never faults. -/
def execSnapcap (w0 w1 w2 tref : Word16) (s : State) : Host.Outcome State Fault Refusal :=
  finish { s with snap := captureSnap w0 w1 w2 tref } (.ok (.flag (captureSnap w0 w1 w2 tref).valid))

/-- SNAPQ (R131). -/
def execSnapq (s : State) : Host.Outcome State Fault Refusal :=
  finish s (.ok (.snapshot (shownSnap s.snap)))

end Sys2Proof.Machine
end

