-- ==== Sys2Proof/Machine/Dispatch.lean ====
section
/-! DEFINITION. One arm per constructor of Instr, each one direct call of its meaning. -/

namespace Sys2Proof.Machine

def exec (i : Instr) (s : State) : Host.Outcome State Fault Refusal :=
  match i with
  | .sb p => Sys2Proof.Machine.execSb p s
  | .sw p => Sys2Proof.Machine.execSw p s
  | .sm p => Sys2Proof.Machine.execSm p s
  | .rm p => Sys2Proof.Machine.execRm p s
  | .rr addr => Sys2Proof.Machine.execRr addr s
  | .wr addr data => Sys2Proof.Machine.execWr addr data s
  | .ex => Sys2Proof.Machine.execEx s
  | .hr => Sys2Proof.Machine.execHr s
  | .hs => Sys2Proof.Machine.execHs s
  | .rt => Sys2Proof.Machine.execRt s
  | .fget addr word idx => Sys2Proof.Machine.execFget addr word idx s
  | .fset addr word idx value => Sys2Proof.Machine.execFset addr word idx value s
  | .dgain addr word => Sys2Proof.Machine.execDgain addr word s
  | .dtcmp addr word => Sys2Proof.Machine.execDtcmp addr word s
  | .dhall addr word => Sys2Proof.Machine.execDhall addr word s
  | .dzser addr word => Sys2Proof.Machine.execDzser addr word s
  | .dbist addr word => Sys2Proof.Machine.execDbist addr word s
  | .dres addr word => Sys2Proof.Machine.execDres addr word s
  | .egain addr word gain => Sys2Proof.Machine.execEgain addr word gain s
  | .etcmp addr word b => Sys2Proof.Machine.execEtcmp addr word b s
  | .ezser addr word b => Sys2Proof.Machine.execEzser addr word b s
  | .ebist addr word b => Sys2Proof.Machine.execEbist addr word b s
  | .snapcap w0 w1 w2 tref => Sys2Proof.Machine.execSnapcap w0 w1 w2 tref s
  | .snapq => Sys2Proof.Machine.execSnapq s
  | .cmdenc base chans addr data => Sys2Proof.Machine.execCmdenc base chans addr data s
  | .stdec b => Sys2Proof.Machine.execStdec b s
  | .rmdec chans b => Sys2Proof.Machine.execRmdec chans b s
  | .rrdec b => Sys2Proof.Machine.execRrdec b s
  | .s1dec b => Sys2Proof.Machine.execS1dec b s
  | .conv chans raw => Sys2Proof.Machine.execConv chans raw s
  | .ser m => Sys2Proof.Machine.execSer m s
  | .deser d => Sys2Proof.Machine.execDeser d s
  | .cenc b => Sys2Proof.Machine.execCenc b s
  | .cdec c => Sys2Proof.Machine.execCdec c s
  | .fwrite f => Sys2Proof.Machine.execFwrite f s
  | .fread => Sys2Proof.Machine.execFread s
  | .msgtx m => Sys2Proof.Machine.execMsgtx m s

end Sys2Proof.Machine
end

