-- ==== Sys2Proof/Machine/Fetch.lean ====
section
/-! DEFINITION. Taking the next stimulus from the block's inputs. The block has no program counter and fetches no
instructions (10_state.md R35): the requester presents requests one at a time, in its own order. -/

namespace Sys2Proof.Machine

/-- What stands next at the block's inputs. -/
inductive Next
  /-- nothing is asked -/
  | idle
  /-- the reset input -/
  | reset
  /-- a request -/
  | run (i : Instr)
  /-- a request the port itself answers with a fault (R84, R89) -/
  | answer (f : ReqFault)
  /-- no record of the port at all -/
  | malformed (e : DecodeError)
deriving DecidableEq, Repr

/-- How a record is served: an unassigned op and a command byte the block never produces are answered with
IllegalRequest (R84, R89, R150). -/
def serve (r : Record) : Next :=
  match decode r with
  | .ok i => .run i
  | .error (.unassignedOp op) => .answer (.illegalRequest op)
  | .error (.unknownCommand c) => .answer (.illegalRequest c)
  | .error .truncated => .malformed .truncated
  | .error .paddingSet => .malformed .paddingSet
  | .error .trailing => .malformed .trailing
  | .error .addressLowBits => .malformed .addressLowBits

/-- The next stimulus. -/
def nextOf (s : State) : Next :=
  match s.inbox with
  | [] => .idle
  | .reset :: _ => .reset
  | .record r :: _ => serve r

/-- The state once the next stimulus is taken. -/
def State.advance (s : State) : State := { s with inbox := s.inbox.tail }

/-- A stimulus placed where the next step takes it. -/
def State.place (s : State) (x : Stimulus) : State := { s with inbox := x :: s.inbox }

end Sys2Proof.Machine
end

