-- ==== Sys2Proof/Machine/Step.lean ====
section
/-! DEFINITION. One step: the block takes the next stimulus and serves it as one indivisible step (00_scope.md R6,
20_memory.md R67, R70). -/

namespace Sys2Proof.Machine

/-- One step. With nothing asked the block stays as it is and answers nothing (DESIGN CHOICE, assumption 7). -/
def step (s : State) : Host.Outcome State Fault Refusal :=
  match nextOf s with
  | .idle => .next s.quiet
  | .reset => .next s.advance.blockReset
  | .run i => exec i s.advance
  | .answer f => .next (s.advance.raise f)
  | .malformed e => .fault (.malformedRecord e)

/-- The state with a word of the opcode table presented as the next request. -/
def State.withFetchWord (s : State) (nbits w : Nat) : State := s.place (.record (tableRecord nbits w))

end Sys2Proof.Machine
end

