-- ==== Sys2Proof/Machine/Sequences.lean ====
section
/-! DEFINITION. The pseudo-sequences of 30_encoding.md R94 and the bring-up order of 70_reset_and_hazards.md R314,
as the requests the block is given. Waits and bus transactions are the requester's; what it receives on the bus is
an argument. -/

namespace Sys2Proof.Machine

/-- `RESET_SEQ`: EX, then RT (R94, R313). -/
def resetSeq : List Instr := [.cmdenc 0x80#8 0#4 0#8 0#16, .cmdenc 0xF0#8 0#4 0#8 0#16]

/-- `MEASURE_CYCLE chans, pos` (R94), given the two bus responses, the sample RMDEC returned and the field CONV
returned. -/
def measureCycle (chans : ChannelSet) (px py pz : F32) (smResponse rmResponse : List Byte) (raw : RawSample)
    (field : MagneticField) : List Instr :=
  [.cmdenc 0x30#8 chans 0#8 0#16, .s1dec smResponse, .cmdenc 0x40#8 chans 0#8 0#16, .rmdec chans rmResponse,
   .conv chans raw, .msgtx { field := field, px := px, py := py, pz := pz }]

/-- `REG_RMW addr, idx, value` (R94), given the two bus responses, the word RRDEC returned and the word FSET
returned. -/
def regRmw (addr : Byte) (idx : BitVec 5) (value : Word16) (rrResponse wrResponse : List Byte) (word word' : Word16) :
    List Instr :=
  [.cmdenc 0x50#8 0#4 addr 0#16, .rrdec rrResponse, .fset addr word idx value, .cmdenc 0x60#8 0#4 addr word',
   .s1dec wrResponse]

/-- One register read of bring-up, given its bus response (R314). -/
def readReg (addr : Byte) (response : List Byte) : List Instr := [.cmdenc 0x50#8 0#4 addr 0#16, .rrdec response]

/-- Bring-up after the block's reset: RESET_SEQ, the four register reads, SNAPCAP, SNAPQ (R314), given the four bus
responses and the words they hold. -/
def bringUp (r0 r1 r2 r3 : List Byte) (w0 w1 w2 tref : Word16) : List Instr :=
  resetSeq ++ readReg 0x00#8 r0 ++ readReg 0x01#8 r1 ++ readReg 0x02#8 r2 ++ readReg Config.trefAddr r3 ++
    [.snapcap w0 w1 w2 tref, .snapq]

/-- Requests placed on the request port, in the requester's order (R70). -/
def State.ask (s : State) (is : List Instr) : State :=
  { s with inbox := s.inbox ++ is.map fun i => .record (encode i) }

end Sys2Proof.Machine
end

