-- ==== Sys2Proof/Machine/Assembler.lean ====
section
/-! DEFINITION. The written form of a request (30_encoding.md R93) as tokens: a mnemonic and its operands in the order
of R82. How the characters of a token are read is not modelled; a token carries what it stands for. -/

namespace Sys2Proof.Machine

/-- An operand as R93 writes it. -/
inductive Operand
  /-- the Channels between the braces, in any order; none for the empty set -/
  | chans (cs : List Channel)
  /-- a field by its table name, in place of `idx` -/
  | field (name : String)
  /-- an address, a word, a gain or a status byte -/
  | number (v : Nat)
  /-- `0` or `1` -/
  | flag (b : Bool)
  /-- a byte vector -/
  | bytes (b : List Byte)
  /-- a Message -/
  | message (m : Message)
  /-- a RawSample -/
  | sample (raw : RawSample)
  /-- a command mnemonic of R88, after CMDENC -/
  | command (name : String)
deriving DecidableEq, Repr

/-- The mask of the listed Channels (R86). -/
def channelMask (cs : List Channel) : ChannelSet := cs.foldl (fun p c => p ||| 1#4 <<< channelBit c) 0#4

/-- An 8-bit operand, where the number fits. -/
def byteOperand (v : Nat) : Option Byte := if v < 2 ^ 8 then some (BitVec.ofNat 8 v) else none

/-- A 16-bit operand, where the number fits. -/
def wordOperand (v : Nat) : Option Word16 := if v < 2 ^ 16 then some (BitVec.ofNat 16 v) else none

/-- A byte vector, where its length fits (R81). -/
def vecOperand (b : List Byte) : Option (List Byte) := if vecOk b then some b else none

/-- A request whose operands are a register's address and word. -/
def onRegister (k : Byte → Word16 → Instr) : List Operand → Option Instr
  | [.number a, .number w] => do return k (← byteOperand a) (← wordOperand w)
  | _ => none

/-- A request whose operands are a register's address and word and a bool. -/
def onRegisterBit (k : Byte → Word16 → Bool → Instr) : List Operand → Option Instr
  | [.number a, .number w, .flag b] => do return k (← byteOperand a) (← wordOperand w) b
  | _ => none

/-- A request whose operand is a byte vector. -/
def onBytes (k : List Byte → Instr) : List Operand → Option Instr
  | [.bytes b] => do return k (← vecOperand b)
  | _ => none

/-- A CMDENC request of the command with base byte `base`; operands the command does not use are 0. -/
def onChannels (base : Byte) : List Operand → Option Instr
  | [.chans cs] => some (.cmdenc base (channelMask cs) 0#8 0#16)
  | _ => none

/-- A CMDENC request of a command without operands. -/
def onNothing (base : Byte) : List Operand → Option Instr
  | [] => some (.cmdenc base 0#4 0#8 0#16)
  | _ => none

/-- `CMDENC <cmd> operands` (R93, R88). -/
def assembleCommand (name : String) (ops : List Operand) : Option Instr :=
  match name with
  | "SB" => onChannels 0x10#8 ops
  | "SW" => onChannels 0x20#8 ops
  | "SM" => onChannels 0x30#8 ops
  | "RM" => onChannels 0x40#8 ops
  | "RR" =>
    match ops with
    | [.number a] => do return .cmdenc 0x50#8 0#4 (← byteOperand a) 0#16
    | _ => none
  | "WR" =>
    match ops with
    | [.number a, .number d] => do return .cmdenc 0x60#8 0#4 (← byteOperand a) (← wordOperand d)
    | _ => none
  | "EX" => onNothing 0x80#8 ops
  | "HR" => onNothing 0xD0#8 ops
  | "HS" => onNothing 0xE0#8 ops
  | "RT" => onNothing 0xF0#8 ops
  | _ => none

/-- The request a written line stands for (R93), with the operands in R82's order. -/
def assemble (mnemonic : String) (ops : List Operand) : Option Instr :=
  match mnemonic with
  | "FGET" =>
    match ops with
    | [.number a, .number w, .field f] => do return .fget (← byteOperand a) (← wordOperand w) (← fieldIdx f)
    | _ => none
  | "FSET" =>
    match ops with
    | [.number a, .number w, .field f, .number v] => do
      return .fset (← byteOperand a) (← wordOperand w) (← fieldIdx f) (← wordOperand v)
    | _ => none
  | "DGAIN" => onRegister .dgain ops
  | "DTCMP" => onRegister .dtcmp ops
  | "DHALL" => onRegister .dhall ops
  | "DZSER" => onRegister .dzser ops
  | "DBIST" => onRegister .dbist ops
  | "DRES" => onRegister .dres ops
  | "EGAIN" =>
    match ops with
    | [.number a, .number w, .number g] => do return .egain (← byteOperand a) (← wordOperand w) (← byteOperand g)
    | _ => none
  | "ETCMP" => onRegisterBit .etcmp ops
  | "EZSER" => onRegisterBit .ezser ops
  | "EBIST" => onRegisterBit .ebist ops
  | "SNAPCAP" =>
    match ops with
    | [.number w0, .number w1, .number w2, .number t] => do
      return .snapcap (← wordOperand w0) (← wordOperand w1) (← wordOperand w2) (← wordOperand t)
    | _ => none
  | "SNAPQ" => if ops = [] then some .snapq else none
  | "CMDENC" =>
    match ops with
    | .command name :: rest => assembleCommand name rest
    | _ => none
  | "STDEC" =>
    match ops with
    | [.number s] => do return .stdec (← byteOperand s)
    | _ => none
  | "RMDEC" =>
    match ops with
    | [.chans cs, .bytes b] => do return .rmdec (channelMask cs) (← vecOperand b)
    | _ => none
  | "RRDEC" => onBytes .rrdec ops
  | "S1DEC" => onBytes .s1dec ops
  | "CONV" =>
    match ops with
    | [.chans cs, .sample raw] => some (.conv (channelMask cs) raw)
    | _ => none
  | "SER" =>
    match ops with
    | [.message m] => some (.ser m)
    | _ => none
  | "DESER" => onBytes .deser ops
  | "CENC" => onBytes .cenc ops
  | "CDEC" => onBytes .cdec ops
  | "FWRITE" => onBytes .fwrite ops
  | "FREAD" => if ops = [] then some .fread else none
  | "MSGTX" =>
    match ops with
    | [.message m] => some (.msgtx m)
    | _ => none
  | _ => none

end Sys2Proof.Machine
end

