-- ==== Sys2Proof/Safety.lean ====
section
/-! DEFINITION. The terms claims are stated in: how a request ends, what a safe run is, and the exact value of a
binary32 pattern. -/

namespace Sys2Proof.Machine

/-- `exec` answers a next state in which the request has returned `r` and nothing but the response port changed:
`SNAP`, the request port, the sink, the source and every oracle entry are as before. -/
abbrev Returns (i : Instr) (s : State) (r : Result) : Prop := exec i s = .next (s.respond (.ok r))

/-- `exec` answers a next state in which the request has raised `f` and nothing but the response port changed. -/
abbrev Raises (i : Instr) (s : State) (f : ReqFault) : Prop := exec i s = .next (s.raise f)

/-- What every step keeps: a captured snapshot is marked valid exactly when its hall configuration decoded (R31,
R130), and the source is consumed in whole blocks of 128 bytes (R60). -/
abbrev State.Inv (s : State) : Prop :=
  (s.snap.captured = true → s.snap.valid = s.snap.hall.isSome) ∧ s.consumed % 128 = 0

/-- A stimulus the block's inputs can carry: the reset, or a record that is not malformed. -/
def goodStimulus : Stimulus → Bool
  | .reset => true
  | .record r =>
    match serve r with
    | .malformed _ => false
    | .idle => true
    | .reset => true
    | .run _ => true
    | .answer _ => true

/-- Everything that waits at the inputs can be served: no step of a run from here stops. -/
def State.wellPosed (s : State) : Bool := s.inbox.all goodStimulus

/-- The exact value of a finite binary32 pattern. -/
def value32 (f : F32) : ℚ := (if signBit f then -1 else 1) * (mant f : ℚ) * (2 : ℚ) ^ exponent f

/-- A quiet NaN: the NaN whose first significand bit is set. -/
abbrev IsQuietNaN (r : F32) : Prop := isNaN r = true ∧ r.getLsbD 22 = true

/-- `r` is the NaN `a` propagated: quiet, with the payload of `a` (R208). -/
abbrev PropagatesNaN (r a : F32) : Prop := IsQuietNaN r ∧ nanPayload r = nanPayload a

/-- `r` is the finite binary32 value nearest to `x`, and its last bit is 0 where another is as near (`RNE32`, R13). -/
def IsNearestEven (r : F32) (x : ℚ) : Prop :=
  isFinite r = true ∧ ∀ c : F32, isFinite c = true →
    |value32 r - x| ≤ |value32 c - x| ∧
      (|value32 r - x| = |value32 c - x| → value32 c ≠ value32 r → r.getLsbD 0 = false)

/-- The widths of the result fields of each operation, R82's results column; none where the result is a byte vector
`(n, bytes)`. The ten commands answer as CMDENC does. -/
def resultWidths : Instr → Option (List Nat)
  | .sb _ => some [8, 8, 8, 8, 8, 8]
  | .sw _ => some [8, 8, 8, 8, 8, 8]
  | .sm _ => some [8, 8, 8, 8, 8, 8]
  | .rm _ => some [8, 8, 8, 8, 8, 8]
  | .rr _ => some [8, 8, 8, 8, 8, 8]
  | .wr _ _ => some [8, 8, 8, 8, 8, 8]
  | .ex => some [8, 8, 8, 8, 8, 8]
  | .hr => some [8, 8, 8, 8, 8, 8]
  | .hs => some [8, 8, 8, 8, 8, 8]
  | .rt => some [8, 8, 8, 8, 8, 8]
  | .fget _ _ _ => some [16]
  | .fset _ _ _ _ => some [16]
  | .dgain _ _ => some [3]
  | .dtcmp _ _ => some [1]
  | .dhall _ _ => some [2]
  | .dzser _ _ => some [1]
  | .dbist _ _ => some [1]
  | .dres _ _ => some [2, 2, 2]
  | .egain _ _ _ => some [16]
  | .etcmp _ _ _ => some [16]
  | .ezser _ _ _ => some [16]
  | .ebist _ _ _ => some [16]
  | .snapcap _ _ _ _ => some [1]
  | .snapq => some [1, 1, 3, 2, 1, 2, 2, 2, 16]
  | .cmdenc _ _ _ _ => some [8, 8, 8, 8, 8, 8]
  | .stdec _ => some [1, 1, 1, 1, 1, 1, 2]
  | .rmdec _ _ => some [8, 4, 16, 16, 16, 16]
  | .rrdec _ => some [1, 1, 1, 1, 1, 1, 2, 16]
  | .s1dec _ => some [1, 1, 1, 1, 1, 1, 2]
  | .conv _ _ => some [1, 32, 1, 32, 1, 32, 1, 32]
  | .ser _ => none
  | .deser _ => some [1, 32, 1, 32, 1, 32, 1, 32, 32, 32, 32]
  | .cenc _ => none
  | .cdec _ => none
  | .fwrite _ => some []
  | .fread => some [1, 32, 1, 32, 1, 32, 1, 32, 32, 32, 32]
  | .msgtx _ => some [8]

end Sys2Proof.Machine
end

