-- ==== Sys2Proof/Certificates/Slice0/Obligations.lean ====
section
/-! DEFINITION. The statements for the provers. `Returns i s r` and `Raises i s f` (Safety.lean) say that `exec i s`
answers a next state equal to `s` but for the response port, so each carries its frame with it. -/

open Sys2Proof Sys2Proof.Machine

/-! ### Steps and reset -/

/-- R6, R70, R35: when the next stimulus is a record that decodes to a well-formed instruction, a step is `exec` of
that instruction in the state that has taken the record off the request port and is otherwise the same.
That requests wait in a list is the model's (assumption 2). -/
def Obligations.StepRunsTheDecodedRequest : Prop :=
  ∀ (s : State) (r : Record) (rest : List Stimulus) (i : Instr),
    s.inbox = .record r :: rest → decode r = .ok i → i.wellFormed = true →
    step s = exec i { s with inbox := rest }

/-- R84 and 95_test_vectors.md 2.10: a request whose op is not in R82's map faults IllegalRequest(op), whatever
follows the op byte, and the machine goes on; `SNAP` and every interface but the response port are unchanged. -/
def Obligations.UnassignedOpsFaultIllegalRequest : Prop :=
  ∀ (s : State) (op : Byte) (operands : List Byte) (rest : List Stimulus),
    s.inbox = .record { space := .port, bytes := op :: operands } :: rest →
    (op.toNat = 0 ∨ (0x0D ≤ op.toNat ∧ op.toNat ≤ 0x0F) ∨ (0x12 ≤ op.toNat ∧ op.toNat ≤ 0x1F) ∨
      (0x25 ≤ op.toNat ∧ op.toNat ≤ 0x2F) ∨ (0x31 ≤ op.toNat ∧ op.toNat ≤ 0x3F) ∨ 0x47 ≤ op.toNat) →
    step s = .next (State.raise { s with inbox := rest } (.illegalRequest op))

/-- The model's choice for command bytes the block never produces (assumption 4; R89, R150): presented as a command,
such a byte is answered as CMDENC answers such a base. -/
def Obligations.UnknownCommandBytesFaultIllegalRequest : Prop :=
  ∀ (s : State) (c : Byte) (operands : List Byte) (rest : List Stimulus),
    s.inbox = .record { space := .bus, bytes := c :: operands } :: rest →
    (c.toNat / 16 ∈ [0x0, 0x7, 0x9, 0xA, 0xB, 0xC] ∨
      (c.toNat / 16 ∈ [0x5, 0x6, 0x8, 0xD, 0xE, 0xF] ∧ c.toNat % 16 ≠ 0)) →
    step s = .next (State.raise { s with inbox := rest } (.illegalRequest c))

/-- R310: a block reset clears `captured` and touches no interface; before the first capture SNAPQ returns the zero
response and CONV faults SnapshotAbsent; and no operation exposes the fields reset leaves unspecified: two states
that differ in nothing but an uncaptured `SNAP` answer every request alike. Encoding RT is no reset. That reset is a
stimulus beside the requests is the model's (assumption 6). -/
def Obligations.ResetClearsCapturedAndHidesTheRest : Prop :=
  State.reset.snap.captured = false ∧
  (∀ (s : State) (rest : List Stimulus), s.inbox = .reset :: rest →
    ∃ t, step s = .next t ∧ t.snap.captured = false ∧ t.inbox = rest ∧ t.response = none ∧ t.sink = s.sink ∧
      t.sinkTakes = s.sinkTakes ∧ t.source = s.source ∧ t.consumed = s.consumed) ∧
  (∀ s : State, s.snap.captured = false →
    Returns .snapq s (.snapshot ⟨false, false, 0#3, none, false, .res19, .res19, .res19, 0#16⟩) ∧
    ∀ (chans : ChannelSet) (raw : RawSample), Raises (.conv chans raw) s .snapshotAbsent) ∧
  (∀ (i : Instr) (s : State) (p : Snap), s.snap.captured = false → p.captured = false →
    ∃ t u, exec i s = .next t ∧ exec i { s with snap := p } = .next u ∧ u.response = t.response ∧
      u.sink = t.sink ∧ u.source = t.source ∧ u.consumed = t.consumed ∧ u.inbox = t.inbox) ∧
  (∀ s t : State, exec .rt s = .next t ∨ exec (.cmdenc 0xF0#8 0#4 0#8 0#16) s = .next t → t.snap = s.snap)

/-- R311 with R6: every request is answered in every state. `exec` answers a next state for every instruction,
the response port then holds a response, and no waiting request is taken or added. -/
def Obligations.EveryRequestIsAnswered : Prop :=
  ∀ (i : Instr) (s : State), ∃ t r, exec i s = .next t ∧ t.response = some r ∧ t.inbox = s.inbox

/-- A run from a state at whose inputs only what they can carry waits (the records of well-formed instructions among
it, whatever `ask` adds of them) serves every stimulus in turn: after as many steps as stimuli wait, nothing waits,
the run has not stopped, and the sink holds what it held, then what was written. That stimuli wait in a list and that
a malformed record stops the machine are the model's (assumptions 2 and 12). -/
def Obligations.RunsServeEveryStimulus : Prop :=
  (∀ s : State, s.wellPosed = true →
    ∃ t, Host.Core.run Sys2Proof.core s.inbox.length s = .next t ∧ t.inbox = [] ∧ s.sink <+: t.sink) ∧
  (∀ (s : State) (is : List Instr), s.wellPosed = true → (∀ i ∈ is, i.wellFormed = true) → (s.ask is).wellPosed = true)

/-- The invariant: every step keeps it, from every state that has it (R31, R130, R60). -/
def Obligations.StepKeepsTheInvariant : Prop :=
  ∀ s t : State, s.Inv → step s = .next t → t.Inv

/-- The reset state has the invariant; that nothing is consumed yet is the model's (assumption 5). -/
def Obligations.ResetMeetsTheInvariant : Prop := State.reset.Inv

/-- R32: only SNAPCAP and reset write `SNAP`, over requests and over steps. -/
def Obligations.OnlySnapcapAndResetWriteSnap : Prop :=
  (∀ (i : Instr) (s t : State), exec i s = .next t → t.snap ≠ s.snap → ∃ w0 w1 w2 tref, i = .snapcap w0 w1 w2 tref) ∧
  (∀ s t : State, step s = .next t → t.snap ≠ s.snap →
    (∃ rest, s.inbox = .reset :: rest) ∨
    ∃ r rest w0 w1 w2 tref, s.inbox = .record r :: rest ∧ decode r = .ok (.snapcap w0 w1 w2 tref))

/-- R290: a faulted request leaves `SNAP` as it was; on the sink it leaves at most the bytes the sink took before
TransportWriteFailure, and from the source it consumes at most the 128 bytes of a faulted FREAD. -/
def Obligations.FaultedRequestsWriteNoState : Prop :=
  ∀ (i : Instr) (s t : State) (f : ReqFault), exec i s = .next t → t.response = some (.fault f) →
    t.snap = s.snap ∧
    (t.sink = s.sink ∨ ∃ k bytes, f = .transportWriteFailure k ∧ bytes.length = k ∧ t.sink = s.sink ++ bytes) ∧
    ((t.consumed = s.consumed ∧ t.source = s.source) ∨
      (i = .fread ∧ t.source = s.source.tail ∧ (t.consumed = s.consumed ∨ t.consumed = s.consumed + 128)))

/-- R67: every operation but FWRITE, MSGTX, FREAD and SNAPCAP is a pure function of its operands and `SNAP`: it
changes only the response port, and answers alike in every state with the same `SNAP`. -/
def Obligations.OtherOperationsArePure : Prop :=
  ∀ (i : Instr) (s : State),
    (∀ b, i ≠ .fwrite b) → (∀ m, i ≠ .msgtx m) → i ≠ .fread → (∀ w0 w1 w2 tref, i ≠ .snapcap w0 w1 w2 tref) →
    ∃ r, exec i s = .next (s.respond r) ∧ ∀ s' : State, s'.snap = s.snap → exec i s' = .next (s'.respond r)

/-- R70: the sink is append-only over steps, bytes of the source are never given back, and requests are served in
order: what waits after a step is what waited behind the head. -/
def Obligations.EffectsKeepRequestOrder : Prop :=
  ∀ s t : State, step s = .next t →
    s.sink <+: t.sink ∧ s.consumed ≤ t.consumed ∧ t.source <:+ s.source ∧ t.inbox = s.inbox.tail

/-- R280, R95: a response's code is 0 exactly on success, and no request is ever answered with the reserved codes 8
and 16 or an unassigned code. -/
def Obligations.ReservedFaultCodesAreNeverAnswered : Prop :=
  ∀ (i : Instr) (s t : State) (r : Response), exec i s = .next t → t.response = some r →
    ((r.code = 0#8) ↔ ∃ v, r = .ok v) ∧ r.code ≠ 8#8 ∧ r.code ≠ 16#8 ∧ r.code.toNat ≤ 15

/-- R280's table: the code of each fault and the info recorded with it, none for codes 7, 8, 14 and 16. -/
def Obligations.FaultCodesAndInfoAreTheTables : Prop :=
  (∀ n, (ReqFault.protocolEncodeFailure n).code = 1#8 ∧ (ReqFault.protocolEncodeFailure n).info = some n) ∧
  (∀ n, (ReqFault.frameEncodeFailure n).code = 2#8 ∧ (ReqFault.frameEncodeFailure n).info = some n) ∧
  (∀ k, (ReqFault.transportWriteFailure k).code = 3#8 ∧ (ReqFault.transportWriteFailure k).info = some k) ∧
  (ReqFault.transportReadFailure .sourceError).code = 4#8 ∧ (ReqFault.transportReadFailure .sourceError).info = some 0 ∧
  (ReqFault.transportReadFailure .noSecondChunk).code = 4#8 ∧
  (ReqFault.transportReadFailure .noSecondChunk).info = some 1 ∧
  (∀ n, (ReqFault.frameDecodeFailure n).code = 5#8 ∧ (ReqFault.frameDecodeFailure n).info = some n) ∧
  (ReqFault.payloadDecodeFailure .unexpectedEnd).code = 6#8 ∧
  (ReqFault.payloadDecodeFailure .unexpectedEnd).info = some 1 ∧
  (ReqFault.payloadDecodeFailure .badOptionTag).code = 6#8 ∧
  (ReqFault.payloadDecodeFailure .badOptionTag).info = some 2 ∧
  ReqFault.calibrationInvalid.code = 7#8 ∧ ReqFault.calibrationInvalid.info = none ∧
  ReqFault.invalidStateTransition.code = 8#8 ∧ ReqFault.invalidStateTransition.info = none ∧
  (∀ p, (ReqFault.sampleMismatch p).code = 9#8 ∧ (ReqFault.sampleMismatch p).info = some p.toNat) ∧
  (∀ n, (ReqFault.responseLengthMismatch n).code = 10#8 ∧ (ReqFault.responseLengthMismatch n).info = some n) ∧
  (∀ a, (ReqFault.accessorMismatch a).code = 11#8 ∧ (ReqFault.accessorMismatch a).info = some a.toNat) ∧
  (∀ k, (ReqFault.fieldRange k).code = 12#8 ∧ (ReqFault.fieldRange k).info = some k.toNat) ∧
  (∀ a, (ReqFault.addressRange a).code = 13#8 ∧ (ReqFault.addressRange a).info = some a.toNat) ∧
  ReqFault.snapshotAbsent.code = 14#8 ∧ ReqFault.snapshotAbsent.info = none ∧
  (∀ x, (ReqFault.illegalRequest x).code = 15#8 ∧ (ReqFault.illegalRequest x).info = some x.toNat) ∧
  ReqFault.crcFailure.code = 16#8 ∧ ReqFault.crcFailure.info = none

/-! ### Register decoder -/

/-- R36, R112: the CustomerMemoryArea table, row by row, with the field names of R36; idx 24 … 31 have no row. -/
def Obligations.CmaTableIsTheSpecsTable : Prop :=
  (∀ idx : BitVec 5, 23 < idx.toNat → cma idx = .error (.illegalRequest (idx.setWidth 8))) ∧
  (∀ k : Nat, k < 24 → ∃ name a o l,
    [("Hallconf", 0, 0, 4), ("GainSel", 0, 4, 3), ("ZSeries", 0, 7, 1), ("Bist", 0, 8, 1), ("BurstDataRate", 1, 0, 6),
     ("BurstSel", 1, 6, 4), ("TcmpEn", 1, 10, 1), ("ExtTrg", 1, 11, 1), ("WocDiff", 1, 12, 1), ("CommMode", 1, 13, 2),
     ("TrigInt", 1, 15, 1), ("OSR", 2, 0, 2), ("DigFilt", 2, 2, 3), ("ResX", 2, 5, 2), ("ResY", 2, 7, 2),
     ("ResZ", 2, 9, 2), ("OSR2", 2, 11, 2), ("SensTcLT", 3, 0, 8), ("SensTcHT", 3, 8, 8), ("OffsetX", 4, 0, 16),
     ("OffsetY", 5, 0, 16), ("OffsetZ", 6, 0, 16), ("WOxyThreshold", 7, 0, 16),
     ("WOzThreshold", 8, 0, 16)][k]? = some (name, a, o, l) ∧
    cma (BitVec.ofNat 5 k) = .ok (BitVec.ofNat 8 a, o, l) ∧ fieldIdx name = some (BitVec.ofNat 5 k))

/-- R37: no two fields of one register overlap; registers 0x01 and 0x03–0x08 are fully assigned, register 0x00 but
for w[15:9] and register 0x02 but for w[15:13]. -/
def Obligations.CmaFieldsCoverTheRegistersOnce : Prop :=
  (∀ (i j : BitVec 5) (a a' : Byte) (o l o' l' : Nat), cma i = .ok (a, o, l) → cma j = .ok (a', o', l') →
    i ≠ j → a = a' → o + l ≤ o' ∨ o' + l' ≤ o) ∧
  (∀ (a : Byte) (b : Nat), a.toNat ≤ 8 → b < 16 →
    ((∃ (idx : BitVec 5) (o l : Nat), cma idx = .ok (a, o, l) ∧ o ≤ b ∧ b < o + l) ↔
      ¬ ((a = 0#8 ∧ 9 ≤ b) ∨ (a = 2#8 ∧ 13 ≤ b))))

/-- R110, with R112 and R113: FGET faults IllegalRequest on idx > 23, else AccessorMismatch on a wrong address, else
returns the unsigned value of the field's bits. -/
def Obligations.FgetReturnsTheField : Prop :=
  ∀ (s : State) (addr : Byte) (word : Word16) (idx : BitVec 5),
    (23 < idx.toNat → Raises (.fget addr word idx) s (.illegalRequest (idx.setWidth 8))) ∧
    ∀ (a : Byte) (o l : Nat), cma idx = .ok (a, o, l) →
      (addr ≠ a → Raises (.fget addr word idx) s (.accessorMismatch addr)) ∧
      (addr = a → Returns (.fget addr word idx) s (.value (BitVec.ofNat 16 (word.toNat / 2 ^ o % 2 ^ l))))

/-- R111: FSET's faults in their order; else the word with the field's bits replaced by the value and every other bit
as it was; and FGET of the result gives the value back. -/
def Obligations.FsetReplacesTheField : Prop :=
  ∀ (s : State) (addr : Byte) (word : Word16) (idx : BitVec 5) (value : Word16),
    (23 < idx.toNat → Raises (.fset addr word idx value) s (.illegalRequest (idx.setWidth 8))) ∧
    ∀ (a : Byte) (o l : Nat), cma idx = .ok (a, o, l) →
      (addr ≠ a → Raises (.fset addr word idx value) s (.accessorMismatch addr)) ∧
      (addr = a → 2 ^ l ≤ value.toNat → Raises (.fset addr word idx value) s (.fieldRange idx)) ∧
      (addr = a → value.toNat < 2 ^ l → ∃ w : Word16, Returns (.fset addr word idx value) s (.word w) ∧
        (∀ b < 16, w.getLsbD b = if o ≤ b ∧ b < o + l then value.getLsbD (b - o) else word.getLsbD b) ∧
        Returns (.fget addr w idx) s (.value value))

/-- R114, R115, R117, R118: the typed decodes of gain, temperature compensation, ZSeries and Bist. -/
def Obligations.TypedDecodesReadTheirBits : Prop :=
  ∀ (s : State) (addr : Byte) (word : Word16),
    (addr ≠ 0#8 → Raises (.dgain addr word) s (.accessorMismatch addr)) ∧
    Returns (.dgain 0#8 word) s (.gain (BitVec.ofNat 3 (word.toNat / 16 % 8))) ∧
    (addr ≠ 1#8 → Raises (.dtcmp addr word) s (.accessorMismatch addr)) ∧
    Returns (.dtcmp 1#8 word) s (.flag (word.getLsbD 10)) ∧
    (addr ≠ 0#8 → Raises (.dzser addr word) s (.accessorMismatch addr)) ∧
    Returns (.dzser 0#8 word) s (.flag (word.getLsbD 7)) ∧
    (addr ≠ 0#8 → Raises (.dbist addr word) s (.accessorMismatch addr)) ∧
    Returns (.dbist 0#8 word) s (.flag (word.getLsbD 8))

/-- R116: DHALL over all 16 patterns of w[3:0]; an absent result is no fault. -/
def Obligations.DhallDecodesTwoPatterns : Prop :=
  ∀ (s : State) (addr : Byte) (word : Word16),
    (addr ≠ 0#8 → Raises (.dhall addr word) s (.accessorMismatch addr)) ∧
    (word.toNat % 16 = 0b0000 → Returns (.dhall 0#8 word) s (.hall (some .twoPhase))) ∧
    (word.toNat % 16 = 0b1100 → Returns (.dhall 0#8 word) s (.hall (some .fourPhase))) ∧
    (word.toNat % 16 ≠ 0b0000 → word.toNat % 16 ≠ 0b1100 → Returns (.dhall 0#8 word) s (.hall none))

/-- R119 and R120: DRES reads X from w[6:5] and Z from w[10:9] directly, and Y as `2·w[7] + w[8]`; code k means 19 − k
bits. -/
def Obligations.DresReadsTheResolutionCodes : Prop :=
  (resolutionCode .res19 = 0#2 ∧ resolutionCode .res18 = 1#2 ∧ resolutionCode .res17 = 2#2 ∧
    resolutionCode .res16 = 3#2) ∧
  ∀ (s : State) (addr : Byte) (word : Word16),
    (addr ≠ 2#8 → Raises (.dres addr word) s (.accessorMismatch addr)) ∧
    ∃ x y z : Resolution, Returns (.dres 2#8 word) s (.resolutions x y z) ∧
      (resolutionCode x).toNat = word.toNat / 2 ^ 5 % 4 ∧
      (resolutionCode y).toNat = 2 * (word.toNat / 2 ^ 7 % 2) + word.toNat / 2 ^ 8 % 2 ∧
      (resolutionCode z).toNat = word.toNat / 2 ^ 9 % 4

/-- R121, R126: FGET of ResY shows the raw field `w[8] ‖ w[7]`, DRES the code with the two bits swapped, and writing
the swapped code with FSET gives that code back through DRES. -/
def Obligations.ResYRawFieldIsTheCodeSwapped : Prop :=
  (∀ (s : State) (word v : Word16) (x y z : Resolution),
    Returns (.fget 2#8 word 14#5) s (.value v) → Returns (.dres 2#8 word) s (.resolutions x y z) →
    (resolutionCode y).toNat = 2 * (v.toNat % 2) + v.toNat / 2 ∧
    ((resolutionCode y).toNat = v.toNat ↔ word.getLsbD 7 = word.getLsbD 8)) ∧
  (∀ (s : State) (word : Word16) (k : BitVec 2), ∃ (w : Word16) (x y z : Resolution),
    Returns (.fset 2#8 word 14#5 (BitVec.ofNat 16 (2 * (k.toNat % 2) + k.toNat / 2))) s (.word w) ∧
    Returns (.dres 2#8 w) s (.resolutions x y z) ∧ resolutionCode y = k)

/-- R122: EGAIN's faults in their order; else bits 6:4 hold the gain and every other bit is as it was. -/
def Obligations.EgainWritesTheGainBits : Prop :=
  ∀ (s : State) (addr : Byte) (word : Word16) (gain : Byte),
    (addr ≠ 0#8 → Raises (.egain addr word gain) s (.accessorMismatch addr)) ∧
    (7 < gain.toNat → Raises (.egain 0#8 word gain) s (.fieldRange 1#5)) ∧
    (gain.toNat ≤ 7 → ∃ w : Word16, Returns (.egain 0#8 word gain) s (.word w) ∧
      (∀ b < 16, w.getLsbD b = if 4 ≤ b ∧ b < 7 then gain.getLsbD (b - 4) else word.getLsbD b) ∧
      Returns (.dgain 0#8 w) s (.gain (gain.setWidth 3)))

/-- R123, R124, R125: ETCMP, EZSER and EBIST write the one bit their decode reads and keep every other bit. -/
def Obligations.BitEncodesWriteOneBit : Prop :=
  ∀ (s : State) (addr : Byte) (word : Word16) (x : Bool),
    (addr ≠ 1#8 → Raises (.etcmp addr word x) s (.accessorMismatch addr)) ∧
    (addr ≠ 0#8 → Raises (.ezser addr word x) s (.accessorMismatch addr)) ∧
    (addr ≠ 0#8 → Raises (.ebist addr word x) s (.accessorMismatch addr)) ∧
    (∃ w : Word16, Returns (.etcmp 1#8 word x) s (.word w) ∧ Returns (.dtcmp 1#8 w) s (.flag x) ∧
      ∀ b < 16, w.getLsbD b = if b = 10 then x else word.getLsbD b) ∧
    (∃ w : Word16, Returns (.ezser 0#8 word x) s (.word w) ∧ Returns (.dzser 0#8 w) s (.flag x) ∧
      ∀ b < 16, w.getLsbD b = if b = 7 then x else word.getLsbD b) ∧
    (∃ w : Word16, Returns (.ebist 0#8 word x) s (.word w) ∧ Returns (.dbist 0#8 w) s (.flag x) ∧
      ∀ b < 16, w.getLsbD b = if b = 8 then x else word.getLsbD b)

/-- R130: SNAPCAP replaces every field of `SNAP` by what DHALL, DRES, DGAIN and DTCMP read from its operands, keeps
an unrecognised hall pattern with `valid` = 0, returns `valid`, changes nothing else but the response port, and
never faults. -/
def Obligations.SnapcapCapturesTheDecodes : Prop :=
  ∀ (s : State) (w0 w1 w2 tref : Word16), ∃ (h : Option HallConf) (g : Gain) (c : Bool) (x y z : Resolution),
    Returns (.dhall 0#8 w0) s (.hall h) ∧ Returns (.dgain 0#8 w0) s (.gain g) ∧
    Returns (.dtcmp 1#8 w1) s (.flag c) ∧ Returns (.dres 2#8 w2) s (.resolutions x y z) ∧
    exec (.snapcap w0 w1 w2 tref) s = .next
      { s with
        snap := { captured := true, valid := h.isSome, gain := g, hall := h, tcmp := c, resX := x, resY := y,
                  resZ := z, tref := tref }
        response := some (.ok (.flag h.isSome)) }

/-- R131: SNAPQ returns the zero response before the first capture, and afterwards every field of `SNAP`. -/
def Obligations.SnapqShowsTheSnapshot : Prop :=
  ∀ s : State,
    (s.snap.captured = false → Returns .snapq s (.snapshot ⟨false, false, 0#3, none, false,
      .res19, .res19, .res19, 0#16⟩)) ∧
    (s.snap.captured = true → Returns .snapq s (.snapshot s.snap))

/-! ### Command codec -/

/-- R151 to R154 and R157 to R160: the one-byte commands. SB, SW, SM and RM for all 16 ChannelSets, RM with response
length `1 + 2·popcount(p)`; EX, HR, HS and RT one fixed byte each. None depends on the state and none faults. -/
def Obligations.OneByteCommandFrames : Prop :=
  ∀ (s : State) (p : ChannelSet),
    Returns (.sb p) s (.frame ⟨1#8, BitVec.ofNat 8 (0x10 + p.toNat), 0#8, 0#8, 0#8, 1#8⟩) ∧
    Returns (.sw p) s (.frame ⟨1#8, BitVec.ofNat 8 (0x20 + p.toNat), 0#8, 0#8, 0#8, 1#8⟩) ∧
    Returns (.sm p) s (.frame ⟨1#8, BitVec.ofNat 8 (0x30 + p.toNat), 0#8, 0#8, 0#8, 1#8⟩) ∧
    Returns (.rm p) s (.frame ⟨1#8, BitVec.ofNat 8 (0x40 + p.toNat), 0#8, 0#8, 0#8,
      BitVec.ofNat 8 (1 + 2 * ((p.toNat % 2) + (p.toNat / 2 % 2) + (p.toNat / 4 % 2) + p.toNat / 8))⟩) ∧
    Returns .ex s (.frame ⟨1#8, 0x80#8, 0#8, 0#8, 0#8, 1#8⟩) ∧ Returns .hr s (.frame ⟨1#8, 0xD0#8, 0#8, 0#8, 0#8, 1#8⟩) ∧
    Returns .hs s (.frame ⟨1#8, 0xE0#8, 0#8, 0#8, 0#8, 1#8⟩) ∧ Returns .rt s (.frame ⟨1#8, 0xF0#8, 0#8, 0#8, 0#8, 1#8⟩)

/-- R155, R156 and R77: RR and WR for addresses up to 0x3F; a larger address faults AddressRange. -/
def Obligations.RegisterCommandFrames : Prop :=
  ∀ (s : State) (addr : Byte) (data : Word16),
    (addr.toNat ≤ 0x3F →
      Returns (.rr addr) s (.frame ⟨2#8, 0x50#8, BitVec.ofNat 8 (4 * addr.toNat), 0#8, 0#8, 3#8⟩) ∧
      Returns (.wr addr data) s (.frame ⟨4#8, 0x60#8, BitVec.ofNat 8 (data.toNat / 256),
        BitVec.ofNat 8 (data.toNat % 256), BitVec.ofNat 8 (4 * addr.toNat), 1#8⟩)) ∧
    (0x3F < addr.toNat →
      Raises (.rr addr) s (.addressRange addr) ∧ Raises (.wr addr data) s (.addressRange addr))

/-- R150: CMDENC with a command's base byte is that command, whatever the operands it does not use, and returns a frame
whose command byte has that base, for every ChannelSet, and for every address RR and WR encode; any other base, one with
a non-zero low nibble among them, faults IllegalRequest(base). -/
def Obligations.CmdencDispatchesOnTheBase : Prop :=
  ∀ (s : State) (chans : ChannelSet) (addr : Byte) (data : Word16),
    exec (.cmdenc 0x10#8 chans addr data) s = exec (.sb chans) s ∧
    exec (.cmdenc 0x20#8 chans addr data) s = exec (.sw chans) s ∧
    exec (.cmdenc 0x30#8 chans addr data) s = exec (.sm chans) s ∧
    exec (.cmdenc 0x40#8 chans addr data) s = exec (.rm chans) s ∧
    exec (.cmdenc 0x50#8 chans addr data) s = exec (.rr addr) s ∧
    exec (.cmdenc 0x60#8 chans addr data) s = exec (.wr addr data) s ∧
    exec (.cmdenc 0x80#8 chans addr data) s = exec .ex s ∧
    exec (.cmdenc 0xD0#8 chans addr data) s = exec .hr s ∧
    exec (.cmdenc 0xE0#8 chans addr data) s = exec .hs s ∧
    exec (.cmdenc 0xF0#8 chans addr data) s = exec .rt s ∧
    (∀ base : Byte, (base.toNat ∈ [0x50, 0x60] → addr.toNat ≤ 0x3F) →
      base ∈ [0x10#8, 0x20#8, 0x30#8, 0x40#8, 0x50#8, 0x60#8, 0x80#8, 0xD0#8, 0xE0#8, 0xF0#8] →
      ∃ f : CmdFrame, Returns (.cmdenc base chans addr data) s (.frame f) ∧
        f.b0.toNat = base.toNat + (if base.toNat ≤ 0x40 then chans.toNat else 0)) ∧
    ∀ base : Byte,
      base ∉ [0x10#8, 0x20#8, 0x30#8, 0x40#8, 0x50#8, 0x60#8, 0x80#8, 0xD0#8, 0xE0#8, 0xF0#8] →
      Raises (.cmdenc base chans addr data) s (.illegalRequest base)

/-- R89, R90: whatever request produces a command frame, its command byte is none of those the block never
produces, its length follows from that byte alone, and the result bytes after it are 0x00. -/
def Obligations.ProducedCommandBytes : Prop :=
  ∀ (i : Instr) (s : State) (f : CmdFrame), Returns i s (.frame f) →
    (f.b0.toNat / 16 ∉ [0x0, 0x7, 0x9, 0xA, 0xB, 0xC]) ∧
    (f.b0.toNat / 16 ∈ [0x5, 0x6, 0x8, 0xD, 0xE, 0xF] → f.b0.toNat % 16 = 0) ∧
    f.len.toNat = (if f.b0.toNat / 16 = 5 then 2 else if f.b0.toNat / 16 = 6 then 4 else 1) ∧
    (f.len.toNat < 2 → f.b1 = 0#8) ∧ (f.len.toNat < 4 → f.b2 = 0#8 ∧ f.b3 = 0#8)

/-- R85, R93: the frame bytes a command returns are the record the encoder writes for it, so decoding the produced
frame gives the command back, with every channel set, every encodable address and every data word. -/
def Obligations.ProducedFramesDecodeToTheirCommand : Prop :=
  ∀ (i : Instr) (s : State) (f : CmdFrame), (encode i).space = .bus → i.wellFormed = true → Returns i s (.frame f) →
    encode i = { space := .bus, bytes := frameBytes f } ∧ decode { space := .bus, bytes := frameBytes f } = .ok i

/-- R170 and R42: STDEC reads the seven fields of the status byte, for all 256 values. -/
def Obligations.StdecReadsTheStatusFields : Prop :=
  ∀ (s : State) (b : Byte), ∃ st : StatusFields, Returns (.stdec b) s (.status st) ∧
    b.toNat = 128 * st.burst.toNat + 64 * st.woc.toNat + 32 * st.sm.toNat + 16 * st.error.toNat + 8 * st.sed.toNat +
      4 * st.rs.toNat + st.d.toNat

/-- R172, R173, R176, R62: RMDEC accepts exactly the responses of `1 + 2·popcount(p)` bytes; the decoded present set is
p, each enabled channel's word is big-endian at byte `1 + 2·popcount(p AND (2^c − 1))`, and absent words are 0x0000. -/
def Obligations.RmdecPlacesTheChannelWords : Prop :=
  ∀ (s : State) (p : ChannelSet) (b : List Byte),
    (b.length ≠ 1 + 2 * popcount p → Raises (.rmdec p b) s (.responseLengthMismatch b.length)) ∧
    (b.length = 1 + 2 * popcount p → ∃ raw : RawSample, Returns (.rmdec p b) s (.sample raw) ∧
      raw.status = b.getD 0 0#8 ∧ raw.present = p ∧
      ∀ c : Channel,
        (hasChannel p c = true → (sampleWord raw c).toNat =
          256 * (b.getD (1 + 2 * popcount (p &&& BitVec.ofNat 4 (2 ^ channelBit c - 1))) 0#8).toNat +
            (b.getD (2 + 2 * popcount (p &&& BitVec.ofNat 4 (2 ^ channelBit c - 1))) 0#8).toNat) ∧
        (hasChannel p c = false → sampleWord raw c = 0#16))

/-- R174, R175, R61: RRDEC takes three bytes (status, high, low), S1DEC one; any other length faults
ResponseLengthMismatch. -/
def Obligations.RegisterResponsesDecode : Prop :=
  ∀ (s : State) (b : List Byte),
    (b.length ≠ 3 → Raises (.rrdec b) s (.responseLengthMismatch b.length)) ∧
    (b.length ≠ 1 → Raises (.s1dec b) s (.responseLengthMismatch b.length)) ∧
    ∀ x hi lo : Byte, ∃ st : StatusFields, Returns (.stdec x) s (.status st) ∧ Returns (.s1dec [x]) s (.status st) ∧
      Returns (.rrdec [x, hi, lo]) s (.register st (BitVec.ofNat 16 (256 * hi.toNat + lo.toNat)))

/-- R171: no operation faults because of a status byte's value: with the status byte replaced, the response decoders
and CONV raise the same fault or none. -/
def Obligations.NoFaultDependsOnTheStatusByte : Prop :=
  ∀ (s : State) (x y : Byte) (tail : List Byte) (p : ChannelSet) (raw : RawSample) (f : ReqFault),
    (Raises (.rmdec p (x :: tail)) s f → Raises (.rmdec p (y :: tail)) s f) ∧
    (Raises (.rrdec (x :: tail)) s f → Raises (.rrdec (y :: tail)) s f) ∧
    (Raises (.s1dec (x :: tail)) s f → Raises (.s1dec (y :: tail)) s f) ∧
    ¬ Raises (.stdec x) s f ∧
    exec (.conv p { raw with status := x }) s = exec (.conv p { raw with status := y }) s

/-! ### Converter -/

/-- R201, R205, R286: CONV's three faults and their order. -/
def Obligations.ConvFaultsInOrder : Prop :=
  ∀ (s : State) (chans : ChannelSet) (raw : RawSample),
    (s.snap.captured = false → Raises (.conv chans raw) s .snapshotAbsent) ∧
    (s.snap.captured = true → s.snap.valid = false → Raises (.conv chans raw) s .calibrationInvalid) ∧
    (s.snap.captured = true → s.snap.valid = true → raw.present ≠ chans →
      Raises (.conv chans raw) s (.sampleMismatch raw.present))

/-- R200, R203, R204, R206, R207: with a usable snapshot and a sample of the requested channels, CONV returns exactly
the requested values, by the formulas of R203, R206 and R207; absent words and the status byte are not read. -/
def Obligations.ConvReturnsTheRequestedValues : Prop :=
  ∀ (s : State) (chans : ChannelSet) (raw : RawSample) (hc : HallConf),
    s.snap.captured = true → s.snap.valid = true → s.snap.hall = some hc → raw.present = chans →
    Returns (.conv chans raw) s (.field
      { x := if chans.getLsbD 1 then some (mul32 (f32 raw.wX.toInt) (Config.sens s.snap.gain s.snap.resX hc .x)) else none
        y := if chans.getLsbD 2 then some (mul32 (f32 raw.wY.toInt) (Config.sens s.snap.gain s.snap.resY hc .y)) else none
        z := if chans.getLsbD 3 then some (mul32 (f32 raw.wZ.toInt) (Config.sens s.snap.gain s.snap.resZ hc .z)) else none
        t := if chans.getLsbD 0 then some
            (if s.snap.tcmp then
              Config.tcmpAdj (add32 (Config.refOffset s.snap.tref) (div32 (f32 raw.wT.toInt) Config.tempScale)) s.snap
             else add32 (Config.refOffset s.snap.tref) (div32 (f32 raw.wT.toInt) Config.tempScale))
          else none })

/-- R202: `f32` of every integer up to 2^24 in magnitude, so of every signed 16-bit word, is exact. -/
def Obligations.F32OfSmallIntegersIsExact : Prop :=
  ∀ i : Int, i.natAbs ≤ 2 ^ 24 → isFinite (f32 i) = true ∧ value32 (f32 i) = (i : ℚ)

/-- R211 law 3 and R208: raw 0x0000 gives ±0.0, with the sign of `SENS`, on an axis whose `SENS` is finite, and NaN where
it is infinite or NaN. -/
def Obligations.RawZeroGivesZeroOrNaN : Prop :=
  ∀ (c : Config.ConvParams) (p : Snap) (a : Axis),
    (isFinite (c.sens p.gain (axisRes p a) (hallPhase p.hall) a) = true →
      isZero (axisValue c p a 0#16) = true ∧
      signBit (axisValue c p a 0#16) = signBit (c.sens p.gain (axisRes p a) (hallPhase p.hall) a)) ∧
    (isFinite (c.sens p.gain (axisRes p a) (hallPhase p.hall) a) = false → isNaN (axisValue c p a 0#16) = true)

/-- R208, from IEEE 754: a sole NaN operand, first or second, propagates, that is the result is a quiet NaN with its
payload, and of two NaN operands one does; so a NaN from `SENS` or `REF_OFFSET` propagates to the value computed from
it. Infinity times zero, zero over zero, infinity over infinity and the difference of infinities give a quiet NaN. An
infinite factor, first or second, a finite non-zero value over zero and an infinity over a finite value give an
infinity, and a finite value over an infinity a zero, of the exclusive-or of the signs. -/
def Obligations.InfinitiesAndNaNsPropagate : Prop :=
  (∀ a b : F32,
    (isNaN a = true → isNaN b = false →
      PropagatesNaN (mul32 a b) a ∧ PropagatesNaN (mul32 b a) a ∧ PropagatesNaN (div32 a b) a ∧
      PropagatesNaN (div32 b a) a ∧ PropagatesNaN (add32 a b) a ∧ PropagatesNaN (add32 b a) a) ∧
    (isNaN a = true → isNaN b = true →
      (PropagatesNaN (mul32 a b) a ∨ PropagatesNaN (mul32 a b) b) ∧
      (PropagatesNaN (div32 a b) a ∨ PropagatesNaN (div32 a b) b) ∧
      (PropagatesNaN (add32 a b) a ∨ PropagatesNaN (add32 a b) b)) ∧
    (isInf a = true → isZero b = true → IsQuietNaN (mul32 a b) ∧ IsQuietNaN (mul32 b a)) ∧
    (isZero a = true → isZero b = true → IsQuietNaN (div32 a b)) ∧
    (isInf a = true → isInf b = true → IsQuietNaN (div32 a b) ∧
      (signBit a ≠ signBit b → IsQuietNaN (add32 a b)) ∧ (signBit a = signBit b → add32 a b = a)) ∧
    (isFinite a = true → isZero a = false → isZero b = true →
      isInf (div32 a b) = true ∧ signBit (div32 a b) = (signBit a ^^ signBit b)) ∧
    (isInf a = true → isNaN b = false → isZero b = false →
      isInf (mul32 a b) = true ∧ signBit (mul32 a b) = (signBit a ^^ signBit b) ∧
      isInf (mul32 b a) = true ∧ signBit (mul32 b a) = (signBit b ^^ signBit a)) ∧
    (isInf a = true → isFinite b = true →
      isInf (div32 a b) = true ∧ signBit (div32 a b) = (signBit a ^^ signBit b) ∧
      isZero (div32 b a) = true ∧ signBit (div32 b a) = (signBit b ^^ signBit a) ∧
      add32 a b = a ∧ add32 b a = a)) ∧
  ∀ (c : Config.ConvParams) (p : Snap) (a : Axis) (w : Word16),
    (isNaN (c.sens p.gain (axisRes p a) (hallPhase p.hall) a) = true →
      PropagatesNaN (axisValue c p a w) (c.sens p.gain (axisRes p a) (hallPhase p.hall) a)) ∧
    (isNaN (c.refOffset p.tref) = true → isFinite c.tempScale = true → isZero c.tempScale = false →
      PropagatesNaN (tempBase c p w) (c.refOffset p.tref))

/-- R13, R208: the product of finite operands. Where the exact product is below 2^128 − 2^103 in magnitude, halfway from
the largest binary32 value to 2^128, the result is the binary32 value nearest to it, ties to even; from there on it is an
infinity; and its sign, a zero's and an infinity's too, is the exclusive-or of the signs. -/
def Obligations.ProductsAreRoundedToNearestEven : Prop :=
  ∀ a b : F32, isFinite a = true → isFinite b = true →
    signBit (mul32 a b) = (signBit a ^^ signBit b) ∧
    (|value32 a * value32 b| < 2 ^ 128 - 2 ^ 103 → IsNearestEven (mul32 a b) (value32 a * value32 b)) ∧
    (2 ^ 128 - 2 ^ 103 ≤ |value32 a * value32 b| → isInf (mul32 a b) = true)

/-- R13, R208: the sum of finite operands. Where the exact sum is below 2^128 − 2^103 in magnitude the result is the
binary32 value nearest to it, ties to even; from there on it is an infinity. Its sign is the exact sum's; an exact sum of
zero gives −0 where both operands are negative zeros, and +0 otherwise. -/
def Obligations.SumsAreRoundedToNearestEven : Prop :=
  ∀ a b : F32, isFinite a = true → isFinite b = true →
    (value32 a + value32 b = 0 → signBit (add32 a b) = (signBit a && signBit b)) ∧
    (value32 a + value32 b ≠ 0 → (signBit (add32 a b) = true ↔ value32 a + value32 b < 0)) ∧
    (|value32 a + value32 b| < 2 ^ 128 - 2 ^ 103 → IsNearestEven (add32 a b) (value32 a + value32 b)) ∧
    (2 ^ 128 - 2 ^ 103 ≤ |value32 a + value32 b| → isInf (add32 a b) = true)

/-- R13, R208: the quotient of finite operands with a non-zero divisor. Where the exact quotient is below 2^128 − 2^103
in magnitude the result is the binary32 value nearest to it, ties to even; from there on it is an infinity; and its sign,
a zero's and an infinity's too, is the exclusive-or of the signs. -/
def Obligations.QuotientsAreRoundedToNearestEven : Prop :=
  ∀ a b : F32, isFinite a = true → isFinite b = true → isZero b = false →
    signBit (div32 a b) = (signBit a ^^ signBit b) ∧
    (|value32 a / value32 b| < 2 ^ 128 - 2 ^ 103 → IsNearestEven (div32 a b) (value32 a / value32 b)) ∧
    (2 ^ 128 - 2 ^ 103 ≤ |value32 a / value32 b| → isInf (div32 a b) = true)

/-! ### Wire framer -/

/-- R240, R241, R242, R243: SER never faults; the payload is a tag 0x00, or a tag 0x01 and four bytes, least
significant first, for x, y, z and t in that order, then the twelve bytes of the position: `16 + 4·q` bytes. -/
def Obligations.SerLaysOutTheMessage : Prop :=
  ∀ (s : State) (m : Message),
    Returns (.ser m) s (.bytes
      (([m.field.x, m.field.y, m.field.z, m.field.t].flatMap fun v =>
          match v with
          | none => [0#8]
          | some u => 1#8 :: (List.range 4).map fun k => BitVec.ofNat 8 (u.toNat / 256 ^ k)) ++
        [m.px, m.py, m.pz].flatMap fun u => (List.range 4).map fun k => BitVec.ofNat 8 (u.toNat / 256 ^ k))) ∧
    ∀ b, Returns (.ser m) s (.bytes b) →
      b.length = 16 + 4 * ([m.field.x, m.field.y, m.field.z, m.field.t].countP fun v => v.isSome)

/-- R247 and R246: DESER gives back the Message of every payload SER makes, bit for bit, whatever bytes follow it. -/
def Obligations.DeserInvertsSer : Prop :=
  ∀ (s : State) (m : Message) (trailing : List Byte), ∃ b, Returns (.ser m) s (.bytes b) ∧
    Returns (.deser (b ++ trailing)) s (.message m)

/-- R244: DESER of a payload cut short faults UnexpectedEnd; a tag above 0x01 after whole optional values faults
BadOptionTag whatever follows; and whatever DESER returns is the Message of a payload that its input begins with. -/
def Obligations.DeserFaultsOnCutOrBadPayloads : Prop :=
  (∀ (s : State) (m : Message) (b : List Byte) (k : Nat), Returns (.ser m) s (.bytes b) → k < b.length →
    Raises (.deser (b.take k)) s (.payloadDecodeFailure .unexpectedEnd)) ∧
  (∀ (s : State) (vs : List (Option F32)) (tag : Byte) (rest : List Byte), vs.length < 4 → 2 ≤ tag.toNat →
    Raises (.deser (vs.flatMap putTagged ++ tag :: rest)) s (.payloadDecodeFailure .badOptionTag)) ∧
  (∀ (s : State) (d : List Byte) (m : Message), Returns (.deser d) s (.message m) →
    ∃ b rest, Returns (.ser m) s (.bytes b) ∧ d = b ++ rest)

/-- R250: CENC returns COBS(b) and a 0x00, and faults FrameEncodeFailure where that is longer than 64 bytes. -/
def Obligations.CencTerminatesOrFaults : Prop :=
  ∀ (s : State) (b : List Byte),
    ((cobs b).length + 1 ≤ 64 → Returns (.cenc b) s (.bytes (cobs b ++ [0#8]))) ∧
    (64 < (cobs b).length + 1 → Raises (.cenc b) s (.frameEncodeFailure ((cobs b).length + 1)))

/-- R251: what the COBS algorithm produces. A run of up to 253 non-zero bytes at the end of the input gives its
length plus one, then the run; before a zero byte likewise, with the zero replaced by the next code byte; a run of 254
non-zero bytes gives 0xFF and the run, and a new block. The three equations determine COBS on every input. -/
def Obligations.CobsReplacesZerosByDistances : Prop :=
  ∀ (run rest : List Byte), (∀ b ∈ run, b ≠ 0#8) →
    (run.length < 254 → cobs run = BitVec.ofNat 8 (run.length + 1) :: run) ∧
    (run.length < 254 → cobs (run ++ 0#8 :: rest) = BitVec.ofNat 8 (run.length + 1) :: run ++ cobs rest) ∧
    (run.length = 254 → cobs (run ++ rest) = 0xFF#8 :: run ++ cobs rest)

/-- R252, R253: no byte of COBS(b) is 0x00; it is longer than b by at least one byte and at most `1 + ⌊n/254⌋`, so by
exactly one for n ≤ 253; a frame CENC returns holds exactly one 0x00, its last byte. -/
def Obligations.CobsHasNoZeroAndBoundedOverhead : Prop :=
  (∀ b : List Byte, 0#8 ∉ cobs b ∧ b.length + 1 ≤ (cobs b).length ∧
    (cobs b).length ≤ b.length + 1 + b.length / 254) ∧
  (∀ (s : State) (b f : List Byte), Returns (.cenc b) s (.bytes f) → ∃ g, f = g ++ [0#8] ∧ 0#8 ∉ g)

/-- R257: CDEC gives back every byte vector from its COBS form, of any length, so from every frame CENC returns
without its terminator; and with SER before and DESER after it, every Message. -/
def Obligations.CdecInvertsCenc : Prop :=
  (∀ (s : State) (b : List Byte), Returns (.cdec (cobs b)) s (.bytes b)) ∧
  (∀ (s : State) (b : List Byte), (cobs b).length + 1 ≤ 64 → ∃ f, Returns (.cenc b) s (.bytes f) ∧
    Returns (.cdec f.dropLast) s (.bytes b)) ∧
  (∀ (s : State) (m : Message), ∃ p f, Returns (.ser m) s (.bytes p) ∧ Returns (.cenc p) s (.bytes f) ∧
    Returns (.cdec f.dropLast) s (.bytes p) ∧ Returns (.deser p) s (.message m))

/-- R255, R256: CDEC, code byte by code byte. An empty chunk faults FrameDecodeFailure(0); a code byte 0, or one that
points past the chunk, faults at its index; otherwise the block's bytes are copied, a zero follows unless the code is
0xFF or the chunk ends, and the rest decodes in the same way, at indices counted on. The empty chunk's fault is the
parameter EMPTY_CHUNK_FAULT, and that it is FrameDecodeFailure is a choice (assumption 17). -/
def Obligations.CdecDecodesBlockByBlock : Prop :=
  ∀ (s : State) (code : Byte) (tail : List Byte),
    Raises (.cdec []) s (.frameDecodeFailure 0) ∧
    (code = 0#8 ∨ tail.length + 1 < code.toNat → Raises (.cdec (code :: tail)) s (.frameDecodeFailure 0)) ∧
    (code ≠ 0#8 → tail.length + 1 = code.toNat → Returns (.cdec (code :: tail)) s (.bytes tail)) ∧
    (code ≠ 0#8 → code.toNat < tail.length + 1 →
      (∀ out, Returns (.cdec (tail.drop (code.toNat - 1))) s (.bytes out) →
        Returns (.cdec (code :: tail)) s
          (.bytes (tail.take (code.toNat - 1) ++ (if code = 0xFF#8 then [] else [0#8]) ++ out))) ∧
      (∀ i, Raises (.cdec (tail.drop (code.toNat - 1))) s (.frameDecodeFailure i) →
        Raises (.cdec (code :: tail)) s (.frameDecodeFailure (i + code.toNat))))

/-- R258, R259: FWRITE. For every choice k of the sink within the frame's length, the first k bytes appear on the
sink and stay there; the request succeeds where k is all of them and faults TransportWriteFailure(k) otherwise; nothing
else but the response port and the spent choice changes. With no scripted choice, k is some number within the length.
That a scripted choice above the frame's length counts as all of it, and that an empty script leaves the choice free, are
the model's (assumption 5). -/
def Obligations.FwriteEmitsWhatTheSinkTakes : Prop :=
  (∀ (s : State) (f : List Byte) (k : Nat) (rest : List Nat), s.sinkTakes = k :: rest →
    (f.length ≤ k → exec (.fwrite f) s =
      .next { s with sink := s.sink ++ f, sinkTakes := rest, response := some (.ok .none) }) ∧
    (k < f.length → exec (.fwrite f) s =
      .next { s with sink := s.sink ++ f.take k, sinkTakes := rest,
                     response := some (.fault (.transportWriteFailure k)) })) ∧
  (∀ (s : State) (f : List Byte), s.sinkTakes = [] → ∃ k t, k ≤ f.length ∧ exec (.fwrite f) s = .next t ∧
    t.sink = s.sink ++ f.take k ∧ t.snap = s.snap ∧ t.inbox = s.inbox ∧ t.source = s.source ∧ t.consumed = s.consumed ∧
    t.response = some (if k < f.length then .fault (.transportWriteFailure k) else .ok .none))

/-- R266: MSGTX is SER, then CENC, then FWRITE. Serializing and framing a Message never fault; the frame is two bytes
longer than the payload, 18 to 34 bytes; what FWRITE of it does MSGTX does, and it returns the frame's length where
FWRITE succeeds. That a scripted choice above that length counts as all of it is the model's (assumption 5). -/
def Obligations.MsgtxSerializesFramesAndWrites : Prop :=
  ∀ (s : State) (m : Message), ∃ p f, Returns (.ser m) s (.bytes p) ∧ Returns (.cenc p) s (.bytes f) ∧
    f.length = p.length + 2 ∧ 18 ≤ f.length ∧ f.length ≤ 34 ∧
    (∀ t : State, exec (.fwrite f) s = .next t →
      (t.response = some (.ok .none) →
        exec (.msgtx m) s = .next { t with response := some (.ok (.written (BitVec.ofNat 8 f.length))) }) ∧
      (t.response ≠ some (.ok .none) → exec (.msgtx m) s = .next t)) ∧
    (∀ (k : Nat) (rest : List Nat), s.sinkTakes = k :: rest → f.length ≤ k → exec (.msgtx m) s =
      .next { s with sink := s.sink ++ f, sinkTakes := rest,
                     response := some (.ok (.written (BitVec.ofNat 8 f.length))) })

/-- R263: `split0` of a block gives one chunk more than it has zero bytes, none with a zero byte in it, and joining
the chunks with single zero bytes gives the block back. -/
def Obligations.SplitIsExact : Prop :=
  ∀ b : List Byte, (split0 b).length = b.count 0#8 + 1 ∧ (∀ ch ∈ split0 b, 0#8 ∉ ch) ∧
    List.intercalate [0#8] (split0 b) = b

/-- R262: FREAD. A read error faults TransportReadFailure and consumes nothing; a block is consumed whole, whatever
comes of it: no zero byte in it faults TransportReadFailure; else its second chunk, the bytes between its first and
second zero byte or its end, is decoded as CDEC and then DESER decode, with their faults. That a read error consumes
nothing is the model's (assumption 14). -/
def Obligations.FreadDecodesTheSecondChunk : Prop :=
  (∀ (s : State) (rest : List SourceAnswer), s.source = .readError :: rest → exec .fread s =
    .next { s with source := rest, response := some (.fault (.transportReadFailure .sourceError)) }) ∧
  (∀ (s : State) (blk : Vector Byte 128) (rest : List SourceAnswer), s.source = .block blk :: rest →
    ∃ r : Response, exec .fread s = .next { s with source := rest, consumed := s.consumed + 128, response := some r } ∧
      (0#8 ∉ blk.toList → r = .fault (.transportReadFailure .noSecondChunk)) ∧
      (∀ pre ch post : List Byte, blk.toList = pre ++ 0#8 :: ch ++ post → 0#8 ∉ pre → 0#8 ∉ ch →
        (post = [] ∨ post.head? = some 0#8) →
        (∀ f, Raises (.cdec ch) s f → r = .fault f) ∧
        (∀ p, Returns (.cdec ch) s (.bytes p) →
          (∀ f, Raises (.deser p) s f → r = .fault f) ∧
          (∀ m, Returns (.deser p) s (.message m) → r = .ok (.message m)))))

/-- R257 with R262: a frame MSGTX writes is read back by FREAD as the same Message wherever it lies in a block after
that block's first zero byte, whatever follows it; the block is consumed and nothing of it is kept. -/
def Obligations.FreadDeliversAFramedMessage : Prop :=
  ∀ (s : State) (m : Message) (p f pre post : List Byte) (blk : Vector Byte 128) (rest : List SourceAnswer),
    Returns (.ser m) s (.bytes p) → Returns (.cenc p) s (.bytes f) →
    s.source = .block blk :: rest → blk.toList = pre ++ 0#8 :: f ++ post → 0#8 ∉ pre →
    exec .fread s = .next { s with source := rest, consumed := s.consumed + 128, response := some (.ok (.message m)) }

/-! ### Encodings -/

/-- Decode and encode agree: for every well-formed instruction, decoding the record `encode` writes gives it back, with
every operand at every value its encoding admits. The byte layout of a record is the model's (assumption 3). -/
def Obligations.DecodeInvertsEncode : Prop :=
  ∀ i : Instr, i.wellFormed = true → decode (encode i) = .ok i

/-- R82, R85, R88: some words of each family, written out byte by byte from the spec's encodings, decode to the
instruction they stand for. The byte layout of a port record is the model's (assumption 3). -/
def Obligations.SpecWordsDecode : Prop :=
  decode ⟨.bus, [0x19#8]⟩ = .ok (.sb 0b1001#4) ∧ decode ⟨.bus, [0x50#8, 0x08#8]⟩ = .ok (.rr 0x02#8) ∧
  decode ⟨.bus, [0x60#8, 0x01#8, 0x80#8, 0x08#8]⟩ = .ok (.wr 0x02#8 0x0180#16) ∧ decode ⟨.bus, [0xD0#8]⟩ = .ok .hr ∧
  decode ⟨.port, [0x01#8, 0x02#8, 0x80#8, 0x01#8, 0x0E#8]⟩ = .ok (.fget 0x02#8 0x0180#16 14#5) ∧
  decode ⟨.port, [0x22#8, 0x02#8, 0x03#8, 0x20#8, 0x00#8, 0x78#8]⟩ =
    .ok (.rmdec 0b0010#4 [0x20#8, 0x00#8, 0x78#8]) ∧
  decode ⟨.port, [0x43#8, 0x02#8, 0x01#8, 0x01#8]⟩ = .ok (.cdec [0x01#8, 0x01#8]) ∧
  decode ⟨.port, [0x45#8]⟩ = .ok .fread ∧ decode ⟨.port, [0x12#8]⟩ = .error (.unassignedOp 0x12#8) ∧
  decode ⟨.bus, [0x70#8]⟩ = .error (.unknownCommand 0x70#8)

/-- R93: every mnemonic of R82 with its operands in R82's order assembles to its request, a field by its name of R36, a
ChannelSet by its Channels in any order and however often, a byte vector of up to 255 bytes; `CMDENC` with each of the
ten commands assembles to the CMDENC request of that command's base byte, the operands it does not use being 0; and
whatever assembles is well-formed. R94: RESET_SEQ, MEASURE_CYCLE and REG_RMW are the written requests of their
expansions, in that order, between which the requester's waits and bus transactions stand. That the written form begins
at tokens and that unused operands are 0 are the model's (assumption 21), and so is that what the bus answered is given
to the sequences (assumption 22). -/
def Obligations.WrittenRequestsAssemble : Prop :=
  (∀ (a : Byte) (w v : Word16) (name : String) (idx : BitVec 5), fieldIdx name = some idx →
    assemble "FGET" [.number a.toNat, .number w.toNat, .field name] = some (.fget a w idx) ∧
    assemble "FSET" [.number a.toNat, .number w.toNat, .field name, .number v.toNat] = some (.fset a w idx v)) ∧
  (∀ (a g : Byte) (w : Word16) (x : Bool),
    assemble "DGAIN" [.number a.toNat, .number w.toNat] = some (.dgain a w) ∧
    assemble "DTCMP" [.number a.toNat, .number w.toNat] = some (.dtcmp a w) ∧
    assemble "DHALL" [.number a.toNat, .number w.toNat] = some (.dhall a w) ∧
    assemble "DZSER" [.number a.toNat, .number w.toNat] = some (.dzser a w) ∧
    assemble "DBIST" [.number a.toNat, .number w.toNat] = some (.dbist a w) ∧
    assemble "DRES" [.number a.toNat, .number w.toNat] = some (.dres a w) ∧
    assemble "EGAIN" [.number a.toNat, .number w.toNat, .number g.toNat] = some (.egain a w g) ∧
    assemble "ETCMP" [.number a.toNat, .number w.toNat, .flag x] = some (.etcmp a w x) ∧
    assemble "EZSER" [.number a.toNat, .number w.toNat, .flag x] = some (.ezser a w x) ∧
    assemble "EBIST" [.number a.toNat, .number w.toNat, .flag x] = some (.ebist a w x)) ∧
  (∀ w0 w1 w2 tref : Word16, assemble "SNAPCAP" [.number w0.toNat, .number w1.toNat, .number w2.toNat,
    .number tref.toNat] = some (.snapcap w0 w1 w2 tref)) ∧
  assemble "SNAPQ" [] = some .snapq ∧ assemble "FREAD" [] = some .fread ∧
  (∀ s : Byte, assemble "STDEC" [.number s.toNat] = some (.stdec s)) ∧
  (∀ (cs : List Channel) (p : ChannelSet), (∀ c : Channel, c ∈ cs ↔ hasChannel p c = true) →
    assemble "CMDENC" [.command "SB", .chans cs] = some (.cmdenc 0x10#8 p 0#8 0#16) ∧
    assemble "CMDENC" [.command "SW", .chans cs] = some (.cmdenc 0x20#8 p 0#8 0#16) ∧
    assemble "CMDENC" [.command "SM", .chans cs] = some (.cmdenc 0x30#8 p 0#8 0#16) ∧
    assemble "CMDENC" [.command "RM", .chans cs] = some (.cmdenc 0x40#8 p 0#8 0#16) ∧
    (∀ raw : RawSample, assemble "CONV" [.chans cs, .sample raw] = some (.conv p raw)) ∧
    ∀ b : List Byte, b.length ≤ 255 → assemble "RMDEC" [.chans cs, .bytes b] = some (.rmdec p b)) ∧
  (∀ (addr : Byte) (data : Word16),
    assemble "CMDENC" [.command "RR", .number addr.toNat] = some (.cmdenc 0x50#8 0#4 addr 0#16) ∧
    assemble "CMDENC" [.command "WR", .number addr.toNat, .number data.toNat] = some (.cmdenc 0x60#8 0#4 addr data)) ∧
  assemble "CMDENC" [.command "EX"] = some (.cmdenc 0x80#8 0#4 0#8 0#16) ∧
  assemble "CMDENC" [.command "HR"] = some (.cmdenc 0xD0#8 0#4 0#8 0#16) ∧
  assemble "CMDENC" [.command "HS"] = some (.cmdenc 0xE0#8 0#4 0#8 0#16) ∧
  assemble "CMDENC" [.command "RT"] = some (.cmdenc 0xF0#8 0#4 0#8 0#16) ∧
  (∀ b : List Byte, b.length ≤ 255 →
    assemble "RRDEC" [.bytes b] = some (.rrdec b) ∧ assemble "S1DEC" [.bytes b] = some (.s1dec b) ∧
    assemble "DESER" [.bytes b] = some (.deser b) ∧ assemble "CENC" [.bytes b] = some (.cenc b) ∧
    assemble "CDEC" [.bytes b] = some (.cdec b) ∧ assemble "FWRITE" [.bytes b] = some (.fwrite b)) ∧
  (∀ m : Message, assemble "SER" [.message m] = some (.ser m) ∧ assemble "MSGTX" [.message m] = some (.msgtx m)) ∧
  (∀ (mnemonic : String) (ops : List Operand) (i : Instr), assemble mnemonic ops = some i → i.wellFormed = true) ∧
  resetSeq.map some = [assemble "CMDENC" [.command "EX"], assemble "CMDENC" [.command "RT"]] ∧
  (∀ (cs : List Channel) (p : ChannelSet) (px py pz : F32) (sm rm : List Byte) (raw : RawSample) (field : MagneticField),
    (∀ c : Channel, c ∈ cs ↔ hasChannel p c = true) → sm.length ≤ 255 → rm.length ≤ 255 →
    (measureCycle p px py pz sm rm raw field).map some =
      [assemble "CMDENC" [.command "SM", .chans cs], assemble "S1DEC" [.bytes sm],
       assemble "CMDENC" [.command "RM", .chans cs], assemble "RMDEC" [.chans cs, .bytes rm],
       assemble "CONV" [.chans cs, .sample raw], assemble "MSGTX" [.message ⟨field, px, py, pz⟩]]) ∧
  ∀ (addr : Byte) (name : String) (idx : BitVec 5) (value word word' : Word16) (rr wr : List Byte),
    fieldIdx name = some idx → rr.length ≤ 255 → wr.length ≤ 255 →
    (regRmw addr idx value rr wr word word').map some =
      [assemble "CMDENC" [.command "RR", .number addr.toNat], assemble "RRDEC" [.bytes rr],
       assemble "FSET" [.number addr.toNat, .number word.toNat, .field name, .number value.toNat],
       assemble "CMDENC" [.command "WR", .number addr.toNat, .number word'.toNat], assemble "S1DEC" [.bytes wr]]

/-- R15, R81, R82, R83: what a request returns stands on the response port in the fields of its row's results column,
in that order and of those widths (`resultWidths`), a byte vector as its length and its bytes; each field's value is the
result R82 names there, an enumeration by its port code and a bool as one bit, and fits the field's width, for every
request whose byte vectors fit their length field; a faulted response has no fields (R288). The 32 bits of an absent
binary32 are driven 0, which is the model's (assumption 10). -/
def Obligations.ResultsFitTheirPortFields : Prop :=
  (hallCode none = 0b00#2 ∧ hallCode (some .twoPhase) = 0b10#2 ∧ hallCode (some .fourPhase) = 0b11#2 ∧
    resolutionCode .res19 = 0#2 ∧ resolutionCode .res18 = 1#2 ∧ resolutionCode .res17 = 2#2 ∧
    resolutionCode .res16 = 3#2) ∧
  (∀ (i : Instr) (s t : State) (v : Result), i.wellFormed = true → exec i s = .next t → t.response = some (.ok v) →
    (∀ widths, resultWidths i = some widths → v.portFields.map Prod.fst = widths) ∧
    (resultWidths i = none → ∃ b : List Byte, b.length < 256 ∧ v = .bytes b) ∧
    ∀ field ∈ v.portFields, field.2 < 2 ^ field.1) ∧
  (∀ f : ReqFault, (Response.fault f).portFields = []) ∧ (∀ v : Result, (Response.ok v).portFields = v.portFields) ∧
  (∀ b : List Byte, (Result.bytes b).portFields = (8, b.length) :: b.map fun x => (8, x.toNat)) ∧
  (∀ (v : Word16) (g : Gain) (x : Bool) (h : Option HallConf) (m : Byte),
    (Result.value v).portFields.map Prod.snd = [v.toNat] ∧ (Result.word v).portFields.map Prod.snd = [v.toNat] ∧
    (Result.gain g).portFields.map Prod.snd = [g.toNat] ∧
    (Result.flag x).portFields.map Prod.snd = [if x then 1 else 0] ∧
    (Result.hall h).portFields.map Prod.snd = [(hallCode h).toNat] ∧
    (Result.written m).portFields.map Prod.snd = [m.toNat]) ∧
  (∀ x y z : Resolution, (Result.resolutions x y z).portFields.map Prod.snd =
    [(resolutionCode x).toNat, (resolutionCode y).toNat, (resolutionCode z).toNat]) ∧
  (∀ p : Snap, (Result.snapshot p).portFields.map Prod.snd =
    [p.captured.toNat, p.valid.toNat, p.gain.toNat, (hallCode p.hall).toNat, p.tcmp.toNat,
     (resolutionCode p.resX).toNat, (resolutionCode p.resY).toNat, (resolutionCode p.resZ).toNat, p.tref.toNat]) ∧
  (∀ f : CmdFrame, (Result.frame f).portFields.map Prod.snd =
    [f.len.toNat, f.b0.toNat, f.b1.toNat, f.b2.toNat, f.b3.toNat, f.rlen.toNat]) ∧
  (∀ (st : StatusFields) (w : Word16), (Result.status st).portFields.map Prod.snd =
      [st.burst.toNat, st.woc.toNat, st.sm.toNat, st.error.toNat, st.sed.toNat, st.rs.toNat, st.d.toNat] ∧
    (Result.register st w).portFields = (Result.status st).portFields ++ [(16, w.toNat)]) ∧
  (∀ r : RawSample, (Result.sample r).portFields.map Prod.snd =
    [r.status.toNat, r.present.toNat, r.wT.toNat, r.wX.toNat, r.wY.toNat, r.wZ.toNat]) ∧
  (∀ m : MagneticField, (Result.field m).portFields.map Prod.snd = [m.x, m.y, m.z, m.t].flatMap fun v =>
    match v with
    | none => [0, 0]
    | some u => [1, u.toNat]) ∧
  ∀ m : Message, (Result.message m).portFields =
    (Result.field m.field).portFields ++ [(32, m.px.toNat), (32, m.py.toNat), (32, m.pz.toNat)]
end

