-- ==== Sys2Proof/Laws/Assembler.lean ====
section
/-! SUPPORT. The operands of a written request: a number, a byte vector and a ChannelSet assemble to what they were
written from. -/

namespace Sys2Proof.Machine

@[simp] theorem byteOperand_toNat (a : Byte) : byteOperand a.toNat = some a := by simp [byteOperand, a.isLt]

@[simp] theorem wordOperand_toNat (w : Word16) : wordOperand w.toNat = some w := by simp [wordOperand, w.isLt]

theorem vecOperand_of_le {b : List Byte} (h : b.length ≤ 255) : vecOperand b = some b := by
  simp [vecOperand, vecOk, Config.vecMax, h]

theorem vecOk_of_vecOperand {b c : List Byte} (h : vecOperand b = some c) : vecOk c = true := by
  unfold vecOperand at h
  split at h
  · rename_i hb
    rwa [← Option.some.inj h]
  · cases h

/-- Setting the bits of listed Channels one by one. -/
theorem hasChannel_foldl (cs : List Channel) (p : ChannelSet) (c : Channel) :
    hasChannel (cs.foldl (fun p c => p ||| 1#4 <<< channelBit c) p) c = (hasChannel p c || decide (c ∈ cs)) := by
  induction cs generalizing p with
  | nil => simp
  | cons d cs ih =>
    have hd : hasChannel (p ||| 1#4 <<< channelBit d) c = (hasChannel p c || decide (c = d)) := by
      rw [hasChannel, BitVec.getLsbD_or]
      congr 1
      cases c <;> cases d <;> decide
    rw [List.foldl_cons, ih, hd, Bool.or_assoc]
    simp

/-- The mask of a list of Channels holds exactly those. -/
@[simp] theorem hasChannel_channelMask (cs : List Channel) (c : Channel) :
    hasChannel (channelMask cs) c = decide (c ∈ cs) := by
  rw [channelMask, hasChannel_foldl]
  cases c <;> simp [hasChannel]

/-- Two ChannelSets with the same Channels are equal. -/
theorem channelSet_ext {p q : ChannelSet} (h : ∀ c, hasChannel p c = hasChannel q c) : p = q := by
  apply BitVec.eq_of_getLsbD_eq
  intro i hi
  have ht := h .temp
  have hx := h .x
  have hy := h .y
  have hz := h .z
  simp only [hasChannel, channelBit] at ht hx hy hz
  interval_cases i <;> assumption

/-- A ChannelSet is the mask of any list of its Channels. -/
theorem channelMask_eq {cs : List Channel} {p : ChannelSet} (h : ∀ c, c ∈ cs ↔ hasChannel p c = true) :
    channelMask cs = p :=
  channelSet_ext fun c => by rw [hasChannel_channelMask, Bool.eq_iff_iff, decide_eq_true_iff, h c]

end Sys2Proof.Machine
end

