-- ==== Sys2Proof/Laws/Binary32.lean ====
section
/-! SUPPORT. Binary32: the exact value of a packed pattern, and that `round32` is rounding to nearest, ties to even. -/

namespace Sys2Proof.Machine

/-! ### Fields of a packed pattern -/

/-- The sign of a value, as a factor. -/
def signFactor (neg : Bool) : ℚ := if neg then -1 else 1

theorem signFactor_mul_self (neg : Bool) : signFactor neg * signFactor neg = 1 := by
  cases neg <;> simp [signFactor]

theorem signFactor_xor (a b : Bool) : signFactor (a ^^ b) = signFactor a * signFactor b := by
  cases a <;> cases b <;> simp [signFactor]

theorem abs_signFactor (neg : Bool) : |signFactor neg| = 1 := by
  cases neg <;> simp [signFactor]

theorem value32_eq (f : F32) : value32 f = signFactor (signBit f) * (mant f : ℚ) * (2 : ℚ) ^ exponent f := rfl

theorem toNat_withSign (neg : Bool) {low : Nat} (h : low < 2 ^ 31) :
    (withSign neg low).toNat = (if neg then 2 ^ 31 else 0) + low := by
  cases neg <;> (simp [withSign]; omega)

theorem signBit_withSign (neg : Bool) {low : Nat} (h : low < 2 ^ 31) : signBit (withSign neg low) = neg := by
  have ht := toNat_withSign neg h
  unfold signBit BitVec.getLsbD
  rw [Nat.testBit_eq_decide_div_mod_eq, ht]
  cases neg <;> simp <;> omega

theorem expField_eq (f : F32) : expField f = f.toNat / 2 ^ 23 % 2 ^ 8 := by
  simp [expField, BitVec.extractLsb'_toNat, Nat.shiftRight_eq_div_pow]

theorem fracField_eq (f : F32) : fracField f = f.toNat % 2 ^ 23 := by
  simp [fracField, BitVec.extractLsb'_toNat]

theorem expField_withSign (neg : Bool) {low : Nat} (h : low < 2 ^ 31) : expField (withSign neg low) = low / 2 ^ 23 := by
  rw [expField_eq, toNat_withSign neg h]
  cases neg <;> (simp; omega)

theorem fracField_withSign (neg : Bool) {low : Nat} (h : low < 2 ^ 31) :
    fracField (withSign neg low) = low % 2 ^ 23 := by
  rw [fracField_eq, toNat_withSign neg h]
  cases neg
  · simp
  · simp; omega

theorem lastBit_withSign (neg : Bool) {low : Nat} (h : low < 2 ^ 31) :
    (withSign neg low).getLsbD 0 = decide (low % 2 = 1) := by
  unfold BitVec.getLsbD
  rw [Nat.testBit_eq_decide_div_mod_eq, toNat_withSign neg h]
  cases neg
  · simp
  · simp; omega

theorem fracField_lt (f : F32) : fracField f < 2 ^ 23 := by
  rw [fracField_eq]; exact Nat.mod_lt _ (by decide)

theorem expField_lt (f : F32) : expField f < 2 ^ 8 := by
  rw [expField_eq]; exact Nat.mod_lt _ (by decide)

theorem mant_lt (f : F32) : mant f < 2 ^ 24 := by
  have := fracField_lt f
  unfold mant; split <;> omega

theorem exponent_ge (f : F32) : -149 ≤ exponent f := by
  unfold exponent; split <;> omega

/-- A finite pattern with `units` units of its last place `2^q`: the value is exactly that. A significand that is
2^24 belongs to the next exponent, and has the same value. -/
theorem value32_packed (neg : Bool) {q : Int} {units : Nat} (hq : -149 ≤ q) (hu : units ≤ 2 ^ 24)
    (hn : 2 ^ 23 ≤ units ∨ q = -149) (hlow : (q + 149).toNat * 2 ^ 23 + units < 255 * 2 ^ 23) :
    isFinite (withSign neg ((q + 149).toNat * 2 ^ 23 + units)) = true ∧
      value32 (withSign neg ((q + 149).toNat * 2 ^ 23 + units)) = signFactor neg * units * (2 : ℚ) ^ q := by
  obtain ⟨k, rfl⟩ : ∃ k : Nat, q = (k : Int) - 149 := ⟨(q + 149).toNat, by omega⟩
  have hk : ((k : Int) - 149 + 149).toNat = k := by omega
  rw [hk] at hlow ⊢
  have h31 : k * 2 ^ 23 + units < 2 ^ 31 := by omega
  refine ⟨?_, ?_⟩
  · simp only [isFinite, expField_withSign neg h31, bne_iff_ne, ne_eq]
    omega
  · rw [value32_eq, signBit_withSign neg h31]
    rcases Nat.lt_or_ge units (2 ^ 23) with h1 | h1
    · have hk0 : k = 0 := by omega
      subst hk0
      have he : expField (withSign neg (0 * 2 ^ 23 + units)) = 0 := by rw [expField_withSign neg h31]; omega
      have hf : fracField (withSign neg (0 * 2 ^ 23 + units)) = units := by rw [fracField_withSign neg h31]; omega
      rw [mant, exponent, if_pos he, if_pos he, hf]
      norm_num
    · rcases Nat.lt_or_ge units (2 ^ 24) with h2 | h2
      · have he : expField (withSign neg (k * 2 ^ 23 + units)) = k + 1 := by rw [expField_withSign neg h31]; omega
        have hf : fracField (withSign neg (k * 2 ^ 23 + units)) = units - 2 ^ 23 := by
          rw [fracField_withSign neg h31]; omega
        rw [mant, exponent, if_neg (by omega), if_neg (by omega), he, hf]
        have hm : units - 2 ^ 23 + 2 ^ 23 = units := by omega
        have hx : ((k + 1 : Nat) : Int) - 150 = (k : Int) - 149 := by push_cast; ring
        rw [hm, hx]
      · have hu' : units = 2 ^ 24 := by omega
        subst hu'
        have he : expField (withSign neg (k * 2 ^ 23 + 2 ^ 24)) = k + 2 := by rw [expField_withSign neg h31]; omega
        have hf : fracField (withSign neg (k * 2 ^ 23 + 2 ^ 24)) = 0 := by rw [fracField_withSign neg h31]; omega
        rw [mant, exponent, if_neg (by omega), if_neg (by omega), he, hf]
        have hx : ((k + 2 : Nat) : Int) - 150 = ((k : Int) - 149) + 1 := by push_cast; ring
        rw [hx, zpow_add₀ (by norm_num)]
        push_cast
        ring

/-! ### Nearest -/

/-- `u` is the integer nearest to `y`, and is even where another is as near. -/
def NearestInt (u : Nat) (y : ℚ) : Prop :=
  ∀ j : Int, |(u : ℚ) - y| ≤ |(j : ℚ) - y| ∧ (|(u : ℚ) - y| = |(j : ℚ) - y| → j ≠ u → u % 2 = 0)

/-- A finite binary32 value is a multiple of `2^q`, or is below every normal value with that last place. -/
theorem value32_grid (c : F32) (q : Int) :
    (∃ j : Int, value32 c = (j : ℚ) * (2 : ℚ) ^ q) ∨ (-149 < q ∧ |value32 c| < 2 ^ 23 * (2 : ℚ) ^ q) := by
  rcases le_or_gt q (exponent c) with h | h
  · left
    obtain ⟨d, hd⟩ : ∃ d : Nat, exponent c = q + d := ⟨(exponent c - q).toNat, by omega⟩
    refine ⟨(if signBit c then -1 else 1) * (mant c * 2 ^ d : Nat), ?_⟩
    rw [value32_eq, hd, zpow_add₀ (by norm_num), zpow_natCast]
    cases signBit c <;> simp [signFactor] <;> ring
  · right
    refine ⟨lt_of_le_of_lt (exponent_ge c) h, ?_⟩
    have hm := mant_lt c
    have hmq : (mant c : ℚ) < 2 ^ 24 := by exact_mod_cast hm
    rw [value32_eq, abs_mul, abs_mul, abs_signFactor, one_mul, Nat.abs_cast,
      abs_of_pos (zpow_pos (by norm_num) (exponent c))]
    have hle : (2 : ℚ) ^ exponent c ≤ (2 : ℚ) ^ (q - 1) := zpow_le_zpow_right₀ (by norm_num) (by omega)
    have hq1 : (2 : ℚ) ^ (q - 1) = (2 : ℚ) ^ q / 2 := by rw [zpow_sub₀ (by norm_num), zpow_one]
    have h0 : (0 : ℚ) < (2 : ℚ) ^ exponent c := zpow_pos (by norm_num) _
    calc (mant c : ℚ) * (2 : ℚ) ^ exponent c < 2 ^ 24 * (2 : ℚ) ^ exponent c := by
          exact mul_lt_mul_of_pos_right hmq h0
      _ ≤ 2 ^ 24 * ((2 : ℚ) ^ q / 2) := by
          rw [← hq1]; exact mul_le_mul_of_nonneg_left hle (by norm_num)
      _ = 2 ^ 23 * (2 : ℚ) ^ q := by ring

/-- The packed pattern of the integer nearest to `y`, in units of `2^q`, is the binary32 value nearest to `y · 2^q`. -/
theorem packed_nearest (neg : Bool) {q : Int} {units : Nat} {y : ℚ} (hq : -149 ≤ q) (hu : units ≤ 2 ^ 24)
    (hy : 2 ^ 23 ≤ y ∨ q = -149) (hn : NearestInt units y)
    (hlow : (q + 149).toNat * 2 ^ 23 + units < 255 * 2 ^ 23) :
    IsNearestEven (withSign neg ((q + 149).toNat * 2 ^ 23 + units)) (signFactor neg * y * (2 : ℚ) ^ q) := by
  have hpos : (0 : ℚ) < (2 : ℚ) ^ q := zpow_pos (by norm_num) q
  have hunits : 2 ^ 23 ≤ units ∨ q = -149 := by
    rcases hy with hy | hy
    · left
      by_contra hlt
      have h1 := (hn (2 ^ 23 : Int)).1
      have hcast : (units : ℚ) < 2 ^ 23 := by exact_mod_cast Nat.lt_of_not_le hlt
      push_cast at h1
      rw [abs_of_nonpos (by linarith), abs_of_nonpos (by linarith)] at h1
      linarith
    · exact .inr hy
  obtain ⟨hfin, hval⟩ := value32_packed neg hq hu hunits hlow
  refine ⟨hfin, fun c _ => ?_⟩
  have hs := signFactor_mul_self neg
  have hdist : ∀ z : ℚ, |signFactor neg * z * (2 : ℚ) ^ q - signFactor neg * y * (2 : ℚ) ^ q| =
      |z - y| * (2 : ℚ) ^ q := by
    intro z
    rw [show signFactor neg * z * (2 : ℚ) ^ q - signFactor neg * y * (2 : ℚ) ^ q =
      signFactor neg * ((z - y) * (2 : ℚ) ^ q) by ring, abs_mul, abs_signFactor, one_mul, abs_mul, abs_of_pos hpos]
  rw [hval, hdist]
  have hlast : (withSign neg ((q + 149).toNat * 2 ^ 23 + units)).getLsbD 0 = decide (units % 2 = 1) := by
    rw [lastBit_withSign neg (by omega), decide_eq_decide]
    omega
  rcases value32_grid c q with ⟨j, hj⟩ | ⟨hlt, hsmall⟩
  · obtain ⟨z, hz, hzj⟩ : ∃ z : Int, (z : ℚ) = signFactor neg * j ∧ value32 c = signFactor neg * z * (2 : ℚ) ^ q := by
      refine ⟨(if neg then -1 else 1) * j, ?_, ?_⟩
      · cases neg <;> simp [signFactor]
      · rw [hj]; cases neg <;> simp [signFactor]
    rw [hzj, hdist]
    obtain ⟨hle, heven⟩ := hn z
    refine ⟨mul_le_mul_of_nonneg_right hle hpos.le, fun heq hne => ?_⟩
    have heq' := mul_right_cancel₀ hpos.ne' heq
    have hzu : z ≠ units := by
      rintro rfl
      exact hne (by push_cast; ring)
    rw [hlast]
    have := heven heq' hzu
    simp [this]
  · rcases hy with hy | hy
    · have hw : ∃ w : ℚ, value32 c = signFactor neg * w * (2 : ℚ) ^ q ∧ w < 2 ^ 23 := by
        refine ⟨signFactor neg * value32 c / (2 : ℚ) ^ q, ?_, ?_⟩
        · rw [mul_div_assoc', div_mul_cancel₀ _ hpos.ne', ← mul_assoc, hs, one_mul]
        · rw [div_lt_iff₀ hpos]
          refine lt_of_le_of_lt (le_abs_self _) ?_
          rwa [abs_mul, abs_signFactor, one_mul]
      obtain ⟨w, hw, hwlt⟩ := hw
      rw [hw, hdist]
      have h1 := (hn (2 ^ 23 : Int)).1
      norm_num at h1 hy hwlt
      have hstrict : |(units : ℚ) - y| < |w - y| := by
        rw [abs_of_nonpos (by linarith : w - y ≤ 0)]
        rw [abs_of_nonpos (by linarith : (8388608 : ℚ) - y ≤ 0)] at h1
        linarith
      exact ⟨(mul_lt_mul_of_pos_right hstrict hpos).le, fun heq => absurd heq (mul_lt_mul_of_pos_right hstrict hpos).ne⟩
    · omega

/-! ### `round32` -/

/-- An integer is nearest to itself. -/
theorem nearestInt_self (u : Nat) : NearestInt u (u : ℚ) := by
  intro j
  refine ⟨by simp, fun h hne => absurd ?_ hne⟩
  rw [sub_self, abs_zero] at h
  have := abs_eq_zero.mp h.symm
  have hj : (j : ℚ) = ((u : Int) : ℚ) := by push_cast; linarith
  exact_mod_cast hj

/-- The nearer of the two neighbours of `y`, the even one of two that are as near. -/
theorem nearestInt_half {k u : Nat} {y : ℚ} (h1 : (k : ℚ) ≤ y) (h2 : y ≤ k + 1)
    (hu : (u = k ∧ (y < k + 1 / 2 ∨ (y = k + 1 / 2 ∧ k % 2 = 0))) ∨
      (u = k + 1 ∧ (k + 1 / 2 < y ∨ (y = k + 1 / 2 ∧ k % 2 = 1)))) : NearestInt u y := by
  intro j
  rcases le_or_gt j k with hj | hj
  · have hjq : (j : ℚ) ≤ k := by exact_mod_cast hj
    rw [abs_of_nonpos (by linarith : (j : ℚ) - y ≤ 0)]
    rcases hu with ⟨rfl, hu⟩ | ⟨rfl, hu⟩
    · rw [abs_of_nonpos (by linarith)]
      refine ⟨by linarith, fun h hne => absurd ?_ hne⟩
      have : (j : ℚ) = ((u : Int) : ℚ) := by push_cast; linarith
      exact_mod_cast this
    · push_cast
      rw [abs_of_nonneg (by linarith)]
      rcases hu with hu | ⟨hu, hk⟩
      · exact ⟨by linarith, fun h => by linarith⟩
      · exact ⟨by linarith, fun _ _ => by omega⟩
  · have hjq : (k : ℚ) + 1 ≤ j := by exact_mod_cast hj
    rw [abs_of_nonneg (by linarith : 0 ≤ (j : ℚ) - y)]
    rcases hu with ⟨rfl, hu⟩ | ⟨rfl, hu⟩
    · rw [abs_of_nonpos (by linarith)]
      rcases hu with hu | ⟨hu, hk⟩
      · exact ⟨by linarith, fun h => by linarith⟩
      · exact ⟨by linarith, fun _ _ => hk⟩
    · push_cast
      rw [abs_of_nonneg (by linarith)]
      refine ⟨by linarith, fun h hne => absurd ?_ hne⟩
      have : (j : ℚ) = (((k + 1 : Nat) : Int) : ℚ) := by push_cast; linarith
      exact_mod_cast this

/-- What an integer with a sticky last bit stands for: itself, or a number strictly between its neighbours. -/
def StandsFor (m : Nat) (x : ℚ) : Prop := x = m ∨ (m % 2 = 1 ∧ (m : ℚ) - 1 < x ∧ x < m + 1)

/-- Rounding the integer rounds the number it stands for, where two bits or more are rounded away. -/
theorem divRoundEven_nearest {m d : Nat} {x : ℚ} (hx : StandsFor m x) (hd : x = m ∨ 2 ≤ d) :
    NearestInt (divRoundEven m d) (x / 2 ^ d) := by
  have hp : 0 < 2 ^ d := Nat.pow_pos (by decide)
  have hpq : (0 : ℚ) < 2 ^ d := by positivity
  have hsplit : 2 ^ d * (m / 2 ^ d) + m % 2 ^ d = m := Nat.div_add_mod m (2 ^ d)
  have hr : m % 2 ^ d < 2 ^ d := Nat.mod_lt _ hp
  unfold divRoundEven
  simp only
  generalize m / 2 ^ d = k at *
  generalize m % 2 ^ d = r at *
  have hmq : (m : ℚ) = 2 ^ d * k + r := by exact_mod_cast hsplit.symm
  have hrq : (r : ℚ) + 1 ≤ 2 ^ d := by exact_mod_cast hr
  have hr0 : (0 : ℚ) ≤ r := Nat.cast_nonneg r
  by_cases hxm : x = m
  · subst hxm
    apply nearestInt_half (k := k)
    · rw [le_div_iff₀ hpq]; linarith
    · rw [div_le_iff₀ hpq]; linarith
    · split
      · rename_i h
        refine .inr ⟨rfl, ?_⟩
        rcases h with h | ⟨h, hk⟩
        · left
          have : (2 ^ d : ℚ) < 2 * r := by exact_mod_cast h
          rw [lt_div_iff₀ hpq]; linarith
        · right
          have : (2 * r : ℚ) = 2 ^ d := by exact_mod_cast h
          refine ⟨?_, hk⟩
          rw [div_eq_iff hpq.ne']; linarith
      · rename_i h
        refine .inl ⟨rfl, ?_⟩
        rcases Nat.lt_trichotomy (2 * r) (2 ^ d) with h' | h' | h'
        · left
          have : (2 * r : ℚ) < 2 ^ d := by exact_mod_cast h'
          rw [div_lt_iff₀ hpq]; linarith
        · right
          have : (2 * r : ℚ) = 2 ^ d := by exact_mod_cast h'
          refine ⟨?_, by omega⟩
          rw [div_eq_iff hpq.ne']; linarith
        · exact absurd (.inl h') h
  · obtain ⟨hodd, hlo, hhi⟩ := hx.resolve_left hxm
    have hd := hd.resolve_left hxm
    obtain ⟨d, rfl⟩ : ∃ n, d = n + 2 := ⟨d - 2, by omega⟩
    have hpow : 2 ^ (d + 2) = 4 * 2 ^ d := by ring
    have hrodd : r % 2 = 1 := by
      have : (2 ^ (d + 2) * k) % 2 = 0 := by rw [hpow, Nat.mul_assoc]; omega
      omega
    have hr1 : (1 : ℚ) ≤ r := by exact_mod_cast (by omega : 1 ≤ r)
    apply nearestInt_half (k := k)
    · rw [le_div_iff₀ hpq]; linarith
    · rw [div_le_iff₀ hpq]; linarith
    · split
      · rename_i h
        have h' : 2 ^ (d + 2) + 2 ≤ 2 * r := by omega
        have : (2 ^ (d + 2) : ℚ) + 2 ≤ 2 * r := by exact_mod_cast h'
        refine .inr ⟨rfl, .inl ?_⟩
        rw [lt_div_iff₀ hpq]; linarith
      · rename_i h
        have h' : 2 * r + 2 ≤ 2 ^ (d + 2) := by omega
        have : (2 * r : ℚ) + 2 ≤ 2 ^ (d + 2) := by exact_mod_cast h'
        refine .inl ⟨rfl, .inl ?_⟩
        rw [div_lt_iff₀ hpq]; linarith

/-- `round32`, taken apart: the exact magnitude is `y` units of the last place, and the pattern packs the integer
nearest to `y`, or is an infinity where that is too large to pack. -/
theorem round32_packs {m : Nat} {e : Int} {x : ℚ} (neg : Bool) (hm : 0 < m) (hx : StandsFor m x)
    (hbig : x = m ∨ 2 ^ 25 ≤ m) : ∃ (q : Int) (units : Nat) (y : ℚ),
    round32 neg m e = (if 255 * 2 ^ 23 ≤ (q + 149).toNat * 2 ^ 23 + units then signedInf neg
      else withSign neg ((q + 149).toNat * 2 ^ 23 + units)) ∧
    -149 ≤ q ∧ units ≤ 2 ^ 24 ∧ (2 ^ 23 ≤ y ∨ q = -149) ∧ NearestInt units y ∧
    x * (2 : ℚ) ^ e = y * (2 : ℚ) ^ q := by
  have hlo : 2 ^ m.log2 ≤ m := Nat.log2_self_le (by omega)
  have hhi : m < 2 ^ (m.log2 + 1) := Nat.lt_log2_self
  have hq1 : -149 ≤ lastPlace m e := le_max_right _ _
  have hq2 : (m.log2 : Int) + e - 23 ≤ lastPlace m e := le_max_left _ _
  have hq3 : lastPlace m e = (m.log2 : Int) + e - 23 ∨ lastPlace m e = -149 := by unfold lastPlace; omega
  have hdef : round32 neg m e = _ := if_neg hm.ne'
  generalize lastPlace m e = q at *
  rcases le_or_gt q e with hqe | hqe
  · obtain ⟨d, hd⟩ : ∃ d : Nat, e = q + d := ⟨(e - q).toNat, by omega⟩
    have hdn : (e - q).toNat = d := by omega
    simp only [if_pos hqe, hdn] at hdef
    have hxm : x = m := by
      rcases hbig with h | h
      · exact h
      · have : 25 ≤ m.log2 := (Nat.le_log2 (by omega)).mpr h
        omega
    refine ⟨q, m * 2 ^ d, ((m * 2 ^ d : Nat) : ℚ), hdef, hq1, ?_, ?_, nearestInt_self _, ?_⟩
    · have : m.log2 + 1 + d ≤ 24 := by omega
      calc m * 2 ^ d ≤ 2 ^ (m.log2 + 1) * 2 ^ d := Nat.mul_le_mul_right _ hhi.le
        _ = 2 ^ (m.log2 + 1 + d) := (Nat.pow_add _ _ _).symm
        _ ≤ 2 ^ 24 := Nat.pow_le_pow_right (by decide) this
    · rcases hq3 with h | h
      · left
        have : m.log2 + d = 23 := by omega
        have hle : 2 ^ 23 ≤ m * 2 ^ d := by
          rw [← this, Nat.pow_add]
          exact Nat.mul_le_mul_right _ hlo
        exact_mod_cast hle
      · exact .inr h
    · rw [hxm, hd, zpow_add₀ (by norm_num), zpow_natCast]
      push_cast
      ring
  · obtain ⟨d, hd⟩ : ∃ d : Nat, q = e + d := ⟨(q - e).toNat, by omega⟩
    have hdn : (q - e).toNat = d := by omega
    simp only [if_neg (not_le.mpr hqe), hdn] at hdef
    have hd2 : x = m ∨ 2 ≤ d := by
      rcases hbig with h | h
      · exact .inl h
      · have : 25 ≤ m.log2 := (Nat.le_log2 (by omega)).mpr h
        exact .inr (by omega)
    have hp : 0 < 2 ^ d := Nat.pow_pos (by decide)
    have hpq : (0 : ℚ) < 2 ^ d := by positivity
    refine ⟨q, divRoundEven m d, x / 2 ^ d, hdef, hq1, ?_, ?_, divRoundEven_nearest hx hd2, ?_⟩
    · have hk : m / 2 ^ d < 2 ^ 24 := by
        rw [Nat.div_lt_iff_lt_mul hp]
        calc m < 2 ^ (m.log2 + 1) := hhi
          _ ≤ 2 ^ (24 + d) := Nat.pow_le_pow_right (by decide) (by omega)
          _ = 2 ^ 24 * 2 ^ d := Nat.pow_add _ _ _
      unfold divRoundEven
      simp only
      split <;> omega
    · rcases hq3 with h | h
      · left
        have hxlo : ((2 ^ m.log2 : Nat) : ℚ) ≤ x := by
          rcases hx with rfl | ⟨hodd, h1, -⟩
          · exact_mod_cast hlo
          · rcases hbig with rfl | hbig
            · exact_mod_cast hlo
            · have h25 : 25 ≤ m.log2 := (Nat.le_log2 (by omega)).mpr hbig
              have heven : 2 ^ m.log2 = 2 * 2 ^ (m.log2 - 1) := by rw [← Nat.pow_succ']; congr 1; omega
              have hle : ((2 ^ m.log2 : Nat) : ℚ) + 1 ≤ m := by exact_mod_cast (by omega : 2 ^ m.log2 + 1 ≤ m)
              linarith
        rw [le_div_iff₀ hpq]
        have : m.log2 = 23 + d := by omega
        rw [this, Nat.pow_add] at hxlo
        push_cast at hxlo
        exact hxlo
      · exact .inr h
    · rw [hd, zpow_add₀ (by norm_num), zpow_natCast]
      field_simp

theorem isFinite_withSign (neg : Bool) {low : Nat} (h : low < 255 * 2 ^ 23) : isFinite (withSign neg low) = true := by
  have h31 : low < 2 ^ 31 := by omega
  have hlt : low / 2 ^ 23 < 255 := by omega
  rw [isFinite, expField_withSign neg h31, bne_iff_ne]
  exact hlt.ne

@[simp] theorem isInf_signedInf (neg : Bool) : isInf (signedInf neg) = true := by cases neg <;> decide

@[simp] theorem isFinite_signedInf (neg : Bool) : isFinite (signedInf neg) = false := by cases neg <;> decide

@[simp] theorem signBit_signedInf (neg : Bool) : signBit (signedInf neg) = neg := by cases neg <;> decide

@[simp] theorem signBit_signedZero (neg : Bool) : signBit (signedZero neg) = neg := by cases neg <;> decide

@[simp] theorem isZero_signedZero (neg : Bool) : isZero (signedZero neg) = true := by cases neg <;> decide

/-- A packed pattern has its sign, and is finite or the infinity. -/
theorem packed_sign (neg : Bool) (low : Nat) :
    signBit (if 255 * 2 ^ 23 ≤ low then signedInf neg else withSign neg low) = neg ∧
      (isFinite (if 255 * 2 ^ 23 ≤ low then signedInf neg else withSign neg low) = true ∨
        (if 255 * 2 ^ 23 ≤ low then signedInf neg else withSign neg low) = signedInf neg) := by
  rcases Nat.lt_or_ge low (255 * 2 ^ 23) with h | h
  · rw [if_neg (not_le.mpr h)]
    exact ⟨signBit_withSign neg (h.trans (by decide)), .inl (isFinite_withSign neg h)⟩
  · rw [if_pos h]
    exact ⟨signBit_signedInf neg, .inr rfl⟩

/-- `round32` answers a finite value or an infinity, always of the sign it was given. -/
theorem round32_sign (neg : Bool) (m : Nat) (e : Int) : signBit (round32 neg m e) = neg ∧
    (isFinite (round32 neg m e) = true ∨ round32 neg m e = signedInf neg) := by
  unfold round32
  split
  · cases neg <;> decide
  · exact packed_sign neg _

/-- `round32` is rounding to nearest, ties to even, where it does not overflow. -/
theorem round32_nearest {neg : Bool} {m : Nat} {e : Int} {x : ℚ} (hm : 0 < m) (hx : StandsFor m x)
    (hbig : x = m ∨ 2 ^ 25 ≤ m) (hfin : isFinite (round32 neg m e) = true) :
    IsNearestEven (round32 neg m e) (signFactor neg * x * (2 : ℚ) ^ e) := by
  obtain ⟨q, units, y, hr, hq, hu, hy, hn, hxy⟩ := round32_packs neg hm hx hbig
  rw [hr] at hfin ⊢
  rw [mul_assoc, hxy, ← mul_assoc]
  split at hfin
  · simp at hfin
  · rename_i h
    rw [if_neg h]
    exact packed_nearest neg hq hu hy hn (by omega)

/-- Halfway from the largest finite binary32 value to 2^128: from here on a magnitude rounds to infinity. -/
def overflowBound : ℚ := 2 ^ 128 - 2 ^ 103

/-- `round32` is finite exactly below the overflow bound. -/
theorem round32_overflow {neg : Bool} {m : Nat} {e : Int} {x : ℚ} (hm : 0 < m) (hx : StandsFor m x)
    (hbig : x = m ∨ 2 ^ 25 ≤ m) : isFinite (round32 neg m e) = true ↔ x * (2 : ℚ) ^ e < overflowBound := by
  obtain ⟨q, units, y, hr, hq, hu, hy, hn, hxy⟩ := round32_packs neg hm hx hbig
  obtain ⟨k, rfl⟩ : ∃ k : Nat, q = (k : Int) - 149 := ⟨(q + 149).toNat, by omega⟩
  have hk : ((k : Int) - 149 + 149).toNat = k := by omega
  have hpos : (0 : ℚ) < (2 : ℚ) ^ ((k : Int) - 149) := zpow_pos (by norm_num) _
  have huq : (units : ℚ) ≤ 2 ^ 24 := by exact_mod_cast hu
  rw [hr, hk, hxy]
  have hfin : isFinite (if 255 * 2 ^ 23 ≤ k * 2 ^ 23 + units then signedInf neg
      else withSign neg (k * 2 ^ 23 + units)) = true ↔ k * 2 ^ 23 + units < 255 * 2 ^ 23 := by
    split
    · rename_i h
      simp only [isFinite_signedInf, Bool.false_eq_true, false_iff]
      omega
    · rename_i h
      simp only [isFinite_withSign neg (not_le.mp h), true_iff]
      omega
  rw [hfin]
  have hnormal : 0 < k → (2 : ℚ) ^ 23 ≤ y ∧ 2 ^ 23 ≤ units := by
    intro h0
    have hy := hy.resolve_right (by omega)
    refine ⟨hy, ?_⟩
    by_contra hlt
    have hltq : (units : ℚ) < 2 ^ 23 := by exact_mod_cast not_le.mp hlt
    have := (hn (2 ^ 23)).1
    push_cast at this
    rw [abs_of_nonpos (by linarith), abs_of_nonpos (by linarith)] at this
    linarith
  rcases Nat.lt_trichotomy k 253 with h | h | h
  · refine iff_of_true (by omega) ?_
    have hyu : y ≤ units + 1 / 2 := by
      have := (hn (units + 1)).1
      push_cast at this
      by_contra hlt
      rw [abs_of_nonpos (by linarith)] at this
      have := le_abs_self ((units : ℚ) + 1 - y)
      rcases abs_cases ((units : ℚ) + 1 - y) with ⟨h1, h2⟩ | ⟨h1, h2⟩ <;> linarith
    have hle : (2 : ℚ) ^ ((k : Int) - 149) ≤ 2 ^ (103 : Int) := zpow_le_zpow_right₀ (by norm_num) (by omega)
    have h103 : (2 : ℚ) ^ (103 : Int) = 2 ^ 103 := by norm_num
    rw [h103] at hle
    calc y * (2 : ℚ) ^ ((k : Int) - 149) ≤ (2 ^ 24 + 1) * (2 : ℚ) ^ ((k : Int) - 149) :=
          mul_le_mul_of_nonneg_right (by linarith) hpos.le
      _ ≤ (2 ^ 24 + 1) * 2 ^ 103 := mul_le_mul_of_nonneg_left hle (by norm_num)
      _ < overflowBound := by norm_num [overflowBound]
  · subst h
    have h104 : (2 : ℚ) ^ (((253 : Nat) : Int) - 149) = 2 ^ 104 := by norm_num
    have hb : overflowBound = (2 ^ 24 - 1 / 2) * 2 ^ 104 := by norm_num [overflowBound]
    rw [h104, hb, mul_lt_mul_iff_left₀ (by norm_num)]
    constructor
    · intro hlt
      have hu1 : (units : ℚ) ≤ 2 ^ 24 - 1 := by
        have : units + 1 ≤ 2 ^ 24 := by omega
        have : (units : ℚ) + 1 ≤ 2 ^ 24 := by exact_mod_cast this
        linarith
      by_contra hge
      have hge := not_lt.mp hge
      obtain ⟨h1, h2⟩ := hn (2 ^ 24)
      push_cast at h1 h2
      rw [abs_of_nonpos (by linarith : (units : ℚ) - y ≤ 0)] at h1 h2
      rcases le_or_gt y (2 ^ 24) with h3 | h3
      · rw [abs_of_nonneg (by linarith)] at h1 h2
        have hyeq : y = 2 ^ 24 - 1 / 2 := by linarith
        have hueq : (units : ℚ) = 2 ^ 24 - 1 := by linarith
        have heven := h2 (by rw [hyeq, hueq]; norm_num) (by omega)
        have : (units : ℚ) + 1 = 2 ^ 24 := by linarith
        have : units + 1 = 2 ^ 24 := by exact_mod_cast this
        omega
      · rw [abs_of_nonpos (by linarith)] at h1
        linarith
    · intro hlt
      by_contra hge
      have hueq : units = 2 ^ 24 := by omega
      have h1 := (hn (2 ^ 24 - 1)).1
      rw [hueq] at h1
      push_cast at h1
      norm_num at h1 hlt
      rw [abs_of_nonneg (by linarith : (0 : ℚ) ≤ 16777216 - y)] at h1
      rcases abs_cases ((16777215 : ℚ) - y) with ⟨h2, h3⟩ | ⟨h2, h3⟩ <;> linarith
  · obtain ⟨h1, h2⟩ := hnormal (by omega)
    refine iff_of_false (by omega) (not_lt.mpr ?_)
    have hle : (2 : ℚ) ^ (105 : Int) ≤ 2 ^ ((k : Int) - 149) := zpow_le_zpow_right₀ (by norm_num) (by omega)
    have h105 : (2 : ℚ) ^ (105 : Int) = 2 ^ 105 := by norm_num
    rw [h105] at hle
    calc overflowBound ≤ 2 ^ 23 * 2 ^ 105 := by norm_num [overflowBound]
      _ ≤ 2 ^ 23 * (2 : ℚ) ^ ((k : Int) - 149) := mul_le_mul_of_nonneg_left hle (by norm_num)
      _ ≤ y * (2 : ℚ) ^ ((k : Int) - 149) := mul_le_mul_of_nonneg_right h1 hpos.le

/-- `round32` of a non-zero number is `RNE32` of it: the nearest value below the overflow bound, an infinity from there on. -/
theorem round32_rounds {neg : Bool} {m : Nat} {e : Int} {x : ℚ} (hm : 0 < m) (hx : StandsFor m x)
    (hbig : x = m ∨ 2 ^ 25 ≤ m) :
    (|signFactor neg * x * (2 : ℚ) ^ e| < overflowBound →
      IsNearestEven (round32 neg m e) (signFactor neg * x * (2 : ℚ) ^ e)) ∧
    (overflowBound ≤ |signFactor neg * x * (2 : ℚ) ^ e| → isInf (round32 neg m e) = true) := by
  have hx0 : 0 ≤ x := by
    have : (1 : ℚ) ≤ m := by exact_mod_cast hm
    rcases hx with rfl | ⟨-, h, -⟩ <;> linarith
  have habs : |signFactor neg * x * (2 : ℚ) ^ e| = x * (2 : ℚ) ^ e := by
    rw [mul_assoc, abs_mul, abs_signFactor, one_mul, abs_of_nonneg (mul_nonneg hx0 (zpow_pos (by norm_num) _).le)]
  rw [habs]
  have hfin := round32_overflow (neg := neg) (e := e) hm hx hbig
  refine ⟨fun h => round32_nearest hm hx hbig (hfin.mpr h), fun h => ?_⟩
  have hinf := (round32_sign neg m e).2.resolve_left fun hf => absurd (hfin.mp hf) (not_lt.mpr h)
  rw [hinf, isInf_signedInf]

theorem isNaN_round32 (neg : Bool) (m : Nat) (e : Int) : isNaN (round32 neg m e) = false := by
  rcases (round32_sign neg m e).2 with h | h
  · rw [isFinite, bne_iff_ne] at h
    simp [isNaN, h]
  · rw [h]
    cases neg <;> decide

/-- The product of finite operands is computed exactly and rounded once. -/
theorem mul32_finite {a b : F32} (ha : isFinite a = true) (hb : isFinite b = true) :
    mul32 a b = round32 (signBit a ^^ signBit b) (mant a * mant b) (exponent a + exponent b) := by
  rw [isFinite, bne_iff_ne] at ha hb
  simp [mul32, isNaN, isInf, ha, hb]

/-! ### Zeros and sums -/

theorem round32_zero (neg : Bool) (e : Int) : round32 neg 0 e = signedZero neg := by simp [round32]

theorem signedZero_nearest (neg : Bool) : IsNearestEven (signedZero neg) 0 := by
  have h0 : value32 (signedZero neg) = 0 := by
    cases neg <;> simp [value32, mant, fracField, expField, signedZero, withSign]
  refine ⟨by cases neg <;> decide, fun c _ => ⟨?_, fun _ _ => by cases neg <;> decide⟩⟩
  rw [h0]; simp

/-- A finite value in units of a smaller power of two. -/
theorem value32_scaled (f : F32) {e : Int} (he : e ≤ exponent f) : value32 f = (scaled f e : ℚ) * (2 : ℚ) ^ e := by
  obtain ⟨d, hd⟩ : ∃ d : Nat, exponent f = e + d := ⟨(exponent f - e).toNat, by omega⟩
  have hd2 : (exponent f - e).toNat = d := by omega
  rw [value32_eq, hd, zpow_add₀ (by norm_num), scaled, hd2, zpow_natCast]
  cases signBit f <;> simp [signFactor] <;> ring

/-! ### NaNs -/

/-- A quiet NaN is one, and keeps its payload. -/
theorem quietNaN_spec (neg : Bool) (payload : BitVec 22) :
    IsQuietNaN (quietNaN neg payload) ∧ nanPayload (quietNaN neg payload) = payload := by
  have hbit : ∀ k, 22 ≤ k → k < 31 → (quietNaN neg payload).getLsbD k = true := by
    intro k h1 h2
    rw [quietNaN, BitVec.getLsbD_append, if_neg (by omega), BitVec.getLsbD_append, if_pos (by omega)]
    have : k - 22 < 9 := by omega
    generalize k - 22 = j at this
    interval_cases j <;> rfl
  refine ⟨⟨?_, hbit 22 (by omega) (by omega)⟩, ?_⟩
  · rw [isNaN, Bool.and_eq_true, beq_iff_eq, bne_iff_ne]
    refine ⟨?_, fun h => ?_⟩
    · have : (quietNaN neg payload).extractLsb' 23 8 = BitVec.allOnes 8 := by
        apply BitVec.eq_of_getLsbD_eq
        intro i hi
        rw [BitVec.getLsbD_extractLsb', hbit (23 + i) (by omega) (by omega), BitVec.getLsbD_allOnes, Bool.and_true]
      rw [expField, this]; rfl
    · have hz : (quietNaN neg payload).extractLsb' 0 23 = 0#23 := BitVec.eq_of_toNat_eq h
      have := congrArg (fun x => x.getLsbD 22) hz
      simp only [BitVec.getLsbD_extractLsb', hbit (0 + 22) (by omega) (by omega)] at this
      simp at this
  · apply BitVec.eq_of_getLsbD_eq
    intro i hi
    rw [nanPayload, BitVec.getLsbD_extractLsb', quietNaN, BitVec.getLsbD_append, if_pos (by omega)]
    simp [hi]

/-- Whatever the free values, an invalid operation gives a quiet NaN. -/
theorem invalidNaN_quiet (op : FloatOp) (a b : F32) : IsQuietNaN (invalidNaN op a b) := (quietNaN_spec _ _).1

/-- A sole NaN operand is propagated, on either side. -/
theorem propagatedNaN_left (op : FloatOp) {a b : F32} (ha : isNaN a = true) (hb : isNaN b = false) :
    PropagatesNaN (propagatedNaN op a b) a := by
  simpa [propagatedNaN, ha, hb] using quietNaN_spec (Config.freeNaNSign op a b) (nanPayload a)

theorem propagatedNaN_right (op : FloatOp) {a b : F32} (ha : isNaN a = false) :
    PropagatesNaN (propagatedNaN op a b) b := by
  simpa [propagatedNaN, ha] using quietNaN_spec (Config.freeNaNSign op a b) (nanPayload b)

/-- Of two NaN operands one is propagated. -/
theorem propagatedNaN_either (op : FloatOp) (a b : F32) :
    PropagatesNaN (propagatedNaN op a b) a ∨ PropagatesNaN (propagatedNaN op a b) b := by
  unfold propagatedNaN
  split
  · exact .inl (quietNaN_spec _ _)
  · exact .inr (quietNaN_spec _ _)

end Sys2Proof.Machine
end

