-- ==== Sys2Proof/Laws/Cobs.lean ====
section
/-! SUPPORT. COBS by recursion on the input, equal to the loop of 44_wire_framer.md R251; what it produces block by
block; and that decoding inverts it. -/

namespace Sys2Proof.Machine

/-- COBS with `blk` the bytes of the block that is open. -/
def cobsFrom : List Byte → List Byte → List Byte
  | blk, [] => BitVec.ofNat 8 (blk.length + 1) :: blk
  | blk, x :: xs =>
    if x = 0#8 then (BitVec.ofNat 8 (blk.length + 1) :: blk) ++ cobsFrom [] xs
    else if blk.length + 2 = 255 then (0xFF#8 :: (blk ++ [x])) ++ cobsFrom [] xs
    else cobsFrom (blk ++ [x]) xs

/-- The loop's variables while the block `blk` is open behind the output `done`. -/
def openLoop (done blk : List Byte) : CobsLoop :=
  { out := done ++ 0#8 :: blk, ci := done.length, code := blk.length + 1 }

/-- Closing the open block writes its code byte and opens an empty one. -/
theorem cobsClose_open (done blk : List Byte) :
    cobsClose (openLoop done blk) = openLoop (done ++ BitVec.ofNat 8 (blk.length + 1) :: blk) [] := by
  simp [cobsClose, openLoop]

theorem openLoop_push (done blk : List Byte) (x : Byte) :
    ({ out := (openLoop done blk).out ++ [x], ci := (openLoop done blk).ci, code := (openLoop done blk).code + 1 } :
      CobsLoop) = openLoop done (blk ++ [x]) := by
  simp [openLoop]

/-- One turn of the loop, on an open block. -/
theorem cobsTurn_open (done blk : List Byte) (x : Byte) :
    cobsTurn (openLoop done blk) x =
      if x = 0#8 then openLoop (done ++ BitVec.ofNat 8 (blk.length + 1) :: blk) []
      else if blk.length + 2 = 255 then openLoop (done ++ 0xFF#8 :: (blk ++ [x])) []
      else openLoop done (blk ++ [x]) := by
  unfold cobsTurn
  split
  · exact cobsClose_open done blk
  · simp only [openLoop_push, cobsClose_open]
    have hcode : (openLoop done blk).code + 1 = blk.length + 2 := by simp [openLoop]
    rw [hcode]
    split
    · rename_i h
      have hlen : (blk ++ [x]).length + 1 = 255 := by simp; omega
      rw [hlen]
    · rfl

/-- The loop from an open block, then the last code byte. -/
theorem cobs_fold (b : List Byte) : ∀ done blk : List Byte,
    (let c := b.foldl cobsTurn (openLoop done blk)
     c.out.set c.ci (BitVec.ofNat 8 c.code)) = done ++ cobsFrom blk b := by
  induction b with
  | nil =>
    intro done blk
    simp [openLoop, cobsFrom]
  | cons x xs ih =>
    intro done blk
    simp only [List.foldl_cons, cobsTurn_open, cobsFrom]
    split
    · rw [ih]; simp
    · split
      · rw [ih]; simp
      · rw [ih]

/-- The loop of R251 is the recursion. -/
theorem cobs_eq (b : List Byte) : cobs b = cobsFrom [] b := by
  simpa [cobs, openLoop] using cobs_fold b [] []

/-! ### What it produces, block by block -/

/-- A run of non-zero bytes that does not fill the open block is taken into it. -/
theorem cobsFrom_run (run rest : List Byte) (hrun : ∀ b ∈ run, b ≠ 0#8) : ∀ blk : List Byte,
    blk.length + run.length < 254 → cobsFrom blk (run ++ rest) = cobsFrom (blk ++ run) rest := by
  induction run with
  | nil => intro blk _; simp
  | cons x xs ih =>
    intro blk hlen
    simp only [List.length_cons] at hlen
    rw [List.cons_append, cobsFrom, if_neg (hrun x (by simp)), if_neg (by omega),
      ih (fun b hb => hrun b (by simp [hb])) _ (by simp; omega)]
    simp

theorem cobs_lastRun {run : List Byte} (hrun : ∀ b ∈ run, b ≠ 0#8) (hlen : run.length < 254) :
    cobs run = BitVec.ofNat 8 (run.length + 1) :: run := by
  have h := cobsFrom_run run [] hrun [] (by simpa using hlen)
  rw [cobs_eq]
  simpa [cobsFrom] using h

theorem cobs_zero {run : List Byte} (hrun : ∀ b ∈ run, b ≠ 0#8) (hlen : run.length < 254) (rest : List Byte) :
    cobs (run ++ 0#8 :: rest) = BitVec.ofNat 8 (run.length + 1) :: run ++ cobs rest := by
  rw [cobs_eq, cobs_eq, cobsFrom_run run _ hrun [] (by simpa using hlen)]
  simp [cobsFrom]

theorem cobs_fullRun {run : List Byte} (hrun : ∀ b ∈ run, b ≠ 0#8) (hlen : run.length = 254) (rest : List Byte) :
    cobs (run ++ rest) = 0xFF#8 :: run ++ cobs rest := by
  obtain ⟨init, x, rfl⟩ : ∃ init x, run = init ++ [x] := by
    rcases List.eq_nil_or_concat run with h | ⟨i, x, h⟩
    · simp [h] at hlen
    · exact ⟨i, x, by simpa using h⟩
  simp only [List.length_append, List.length_singleton] at hlen
  rw [cobs_eq, cobs_eq, List.append_assoc,
    cobsFrom_run init _ (fun b hb => hrun b (by simp [hb])) [] (by simp; omega)]
  simp only [List.nil_append, List.singleton_append, cobsFrom]
  rw [if_neg (hrun x (by simp)), if_pos (by omega)]

/-- Every input is one of the three: a short non-zero run that ends it, one that ends at a zero, or a full run. -/
theorem run_cases (b : List Byte) : ∃ run : List Byte, (∀ x ∈ run, x ≠ 0#8) ∧
    ((b = run ∧ run.length < 254) ∨ (∃ rest, b = run ++ 0#8 :: rest ∧ run.length < 254) ∨
      (∃ rest, b = run ++ rest ∧ run.length = 254)) := by
  suffices h : ∀ n : Nat, n ≤ 254 → ∃ run : List Byte, (∀ x ∈ run, x ≠ 0#8) ∧
      ((b = run ∧ run.length < n) ∨ (∃ rest, b = run ++ 0#8 :: rest ∧ run.length < n) ∨
        (∃ rest, b = run ++ rest ∧ run.length = n)) from h 254 (le_refl _)
  intro n
  induction b generalizing n with
  | nil =>
    intro _
    rcases Nat.eq_zero_or_pos n with h | h
    · exact ⟨[], by simp, .inr (.inr ⟨[], by simp, by simp [h]⟩)⟩
    · exact ⟨[], by simp, .inl ⟨rfl, by simpa using h⟩⟩
  | cons x xs ih =>
    intro hn
    rcases Nat.eq_zero_or_pos n with h | h
    · exact ⟨[], by simp, .inr (.inr ⟨x :: xs, by simp, by simp [h]⟩)⟩
    · by_cases hx : x = 0#8
      · exact ⟨[], by simp, .inr (.inl ⟨xs, by simp [hx], by simpa using h⟩)⟩
      · obtain ⟨run, hrun, hcases⟩ := ih (n - 1) (by omega)
        refine ⟨x :: run, ?_, ?_⟩
        · intro y hy
          rcases List.mem_cons.mp hy with rfl | hy
          · exact hx
          · exact hrun y hy
        · rcases hcases with ⟨rfl, hl⟩ | ⟨rest, rfl, hl⟩ | ⟨rest, rfl, hl⟩
          · exact .inl ⟨rfl, by simp; omega⟩
          · exact .inr (.inl ⟨rest, rfl, by simp; omega⟩)
          · exact .inr (.inr ⟨rest, rfl, by simp; omega⟩)

/-- Induction over an input by its runs. -/
theorem run_induction {P : List Byte → Prop}
    (last : ∀ run : List Byte, (∀ x ∈ run, x ≠ 0#8) → run.length < 254 → P run)
    (zero : ∀ run rest : List Byte, (∀ x ∈ run, x ≠ 0#8) → run.length < 254 → P rest → P (run ++ 0#8 :: rest))
    (full : ∀ run rest : List Byte, (∀ x ∈ run, x ≠ 0#8) → run.length = 254 → P rest → P (run ++ rest))
    (b : List Byte) : P b := by
  suffices h : ∀ n : Nat, ∀ b : List Byte, b.length ≤ n → P b from h b.length b (le_refl _)
  intro n
  induction n with
  | zero =>
    intro b hb
    have hnil : b = [] := List.eq_nil_of_length_eq_zero (by omega)
    exact hnil ▸ last [] (by simp) (by simp)
  | succ n ih =>
    intro b hb
    obtain ⟨run, hrun, ⟨rfl, hl⟩ | ⟨rest, rfl, hl⟩ | ⟨rest, rfl, hl⟩⟩ := run_cases b
    · exact last _ hrun hl
    · exact zero run rest hrun hl (ih rest (by simp at hb; omega))
    · exact full run rest hrun hl (ih rest (by simp at hb; omega))

theorem cobs_ne_nil (b : List Byte) : cobs b ≠ [] := by
  obtain ⟨run, hrun, ⟨rfl, hl⟩ | ⟨rest, rfl, hl⟩ | ⟨rest, rfl, hl⟩⟩ := run_cases b
  · simp [cobs_lastRun hrun hl]
  · simp [cobs_zero hrun hl]
  · simp [cobs_fullRun hrun hl]

/-! ### Decoding -/

/-- A code byte up to 254 says what number it holds. -/
theorem toNat_code {n : Nat} (h : n < 254) : (BitVec.ofNat 8 (n + 1)).toNat = n + 1 := by
  simp; omega

theorem code_ne_zero {n : Nat} (h : n < 254) : BitVec.ofNat 8 (n + 1) ≠ 0#8 := by
  intro hc
  have := congrArg BitVec.toNat hc
  rw [toNat_code h] at this
  simp at this

theorem code_ne_full {n : Nat} (h : n < 254) : BitVec.ofNat 8 (n + 1) ≠ 0xFF#8 := by
  intro hc
  have := congrArg BitVec.toNat hc
  rw [toNat_code h] at this
  simp at this
  omega

/-- One turn of R255's loop. -/
theorem cobsDecodeFrom_block {fuel i : Nat} {code : Byte} {blk rest out : List Byte} (h0 : code ≠ 0#8)
    (hlen : code.toNat = blk.length + 1) :
    cobsDecodeFrom (fuel + 1) i (code :: (blk ++ rest)) out =
      cobsDecodeFrom fuel (i + code.toNat) rest
        (if code ≠ 0xFF#8 ∧ rest ≠ [] then out ++ blk ++ [0x00#8] else out ++ blk) := by
  have hd : code.toNat - 1 = blk.length := by omega
  simp only [cobsDecodeFrom, if_neg h0, hd, List.drop_left, List.take_left]
  rw [if_neg (by simp; omega)]

/-- Decoding the COBS form of `b` appends `b` to what is decoded, at any index and with any fuel that suffices. -/
theorem cobsDecodeFrom_cobs (b : List Byte) : ∀ (fuel i : Nat) (out : List Byte), (cobs b).length ≤ fuel →
    cobsDecodeFrom fuel i (cobs b) out = .ok (out ++ b) := by
  induction b using run_induction with
  | last run hrun hl =>
    intro fuel i out hfuel
    rw [cobs_lastRun hrun hl] at hfuel ⊢
    obtain ⟨fuel, rfl⟩ : ∃ k, fuel = k + 1 := ⟨fuel - 1, by simp at hfuel; omega⟩
    have h := cobsDecodeFrom_block (fuel := fuel) (i := i) (rest := []) (out := out) (code_ne_zero hl) (toNat_code hl)
    rw [List.append_nil] at h
    rw [h]
    cases fuel <;> simp [cobsDecodeFrom]
  | zero run rest hrun hl ih =>
    intro fuel i out hfuel
    rw [cobs_zero hrun hl] at hfuel ⊢
    obtain ⟨fuel, rfl⟩ : ∃ k, fuel = k + 1 := ⟨fuel - 1, by simp at hfuel; omega⟩
    rw [List.cons_append, cobsDecodeFrom_block (code_ne_zero hl) (toNat_code hl),
      if_pos ⟨code_ne_full hl, cobs_ne_nil rest⟩, ih _ _ _ (by simp at hfuel; omega)]
    simp
  | full run rest hrun hl ih =>
    intro fuel i out hfuel
    rw [cobs_fullRun hrun hl] at hfuel ⊢
    obtain ⟨fuel, rfl⟩ : ∃ k, fuel = k + 1 := ⟨fuel - 1, by simp at hfuel; omega⟩
    rw [List.cons_append, cobsDecodeFrom_block (by decide) (by simp [hl]), if_neg (by simp),
      ih _ _ _ (by simp at hfuel; omega)]
    simp

/-- CDEC inverts COBS, for every value of `EMPTY_CHUNK_FAULT`. -/
theorem cobsDecodeWith_cobs (e : EmptyChunkFault) (b : List Byte) : cobsDecodeWith e (cobs b) = .ok b := by
  rw [cobsDecodeWith, if_neg (cobs_ne_nil b)]
  simpa using cobsDecodeFrom_cobs b _ 0 [] (le_refl _)

/-- Fuel beyond what the input needs changes nothing, and what was decoded before stands in front. -/
theorem cobsDecodeFrom_shift (n : Nat) : ∀ (rest : List Byte) (fuel fuel' i j : Nat) (out : List Byte),
    rest.length ≤ n → rest.length ≤ fuel → rest.length ≤ fuel' →
    cobsDecodeFrom fuel (i + j) rest out =
      match cobsDecodeFrom fuel' i rest [] with
      | .ok r => .ok (out ++ r)
      | .error (.frameDecodeFailure k) => .error (.frameDecodeFailure (k + j))
      | .error f => .error f := by
  induction n with
  | zero =>
    intro rest fuel fuel' i j out hn _ _
    rw [List.eq_nil_of_length_eq_zero (by omega : rest.length = 0)]
    cases fuel <;> cases fuel' <;> simp [cobsDecodeFrom]
  | succ n ih =>
    intro rest fuel fuel' i j out hn hf hf'
    cases rest with
    | nil => cases fuel <;> cases fuel' <;> simp [cobsDecodeFrom]
    | cons code tail =>
      simp only [List.length_cons] at hn hf hf'
      obtain ⟨fuel, rfl⟩ : ∃ k, fuel = k + 1 := ⟨fuel - 1, by omega⟩
      obtain ⟨fuel', rfl⟩ : ∃ k, fuel' = k + 1 := ⟨fuel' - 1, by omega⟩
      simp only [cobsDecodeFrom]
      split
      · rfl
      · split
        · rfl
        · have hl : (tail.drop (code.toNat - 1)).length ≤ tail.length := by simp
          have hij : i + j + code.toNat = (i + code.toNat) + j := by omega
          have h0 : i + code.toNat = (i + code.toNat) + 0 := by omega
          rw [hij, ih _ fuel fuel' _ j _ (by omega) (by omega) (by omega)]
          conv => rhs; rw [h0]
          rw [ih _ fuel' fuel' (i + code.toNat) 0 _ (by omega) (by omega) (by omega)]
          cases cobsDecodeFrom fuel' (i + code.toNat) (tail.drop (code.toNat - 1)) [] with
          | ok r => simp; split <;> simp
          | error f => cases f <;> simp

end Sys2Proof.Machine
end

