-- ==== Sys2Proof/Laws/Decode.lean ====
section
/-! SUPPORT. Reading an operand gives back what writing it put. -/

namespace Sys2Proof

variable {α β : Type}

@[simp] theorem give_eq (a : α) (bs : List Byte) : give a bs = .ok (a, bs) := rfl

@[simp] theorem andThen_takeByte (f : Byte → Parser β) (b : Byte) (rest : List Byte) :
    andThen takeByte f (b :: rest) = f b rest := rfl

theorem andThen_of_ok {p : Parser α} {bs rest : List Byte} {a : α} (h : p bs = .ok (a, rest))
    (f : α → Parser β) : andThen p f bs = f a rest := by
  simp [andThen, h]

/-- Two bytes of a 16-bit word make it again. -/
theorem append_halves16 (w : Word16) : w.extractLsb' 8 8 ++ w.extractLsb' 0 8 = w := by
  have h : w.extractLsb' 8 8 ++ w.extractLsb' 0 8 = w.extractLsb' 0 (8 + 8) :=
    BitVec.extractLsb'_append_extractLsb'_eq_extractLsb' rfl
  exact h.trans BitVec.extractLsb'_eq_self

/-- Two halves of a 32-bit pattern make it again. -/
theorem append_halves32 (w : F32) : w.extractLsb' 16 16 ++ w.extractLsb' 0 16 = w := by
  have h : w.extractLsb' 16 16 ++ w.extractLsb' 0 16 = w.extractLsb' 0 (16 + 16) :=
    BitVec.extractLsb'_append_extractLsb'_eq_extractLsb' rfl
  exact h.trans BitVec.extractLsb'_eq_self

theorem takeWord16_put (w : Word16) (rest : List Byte) : takeWord16 (putWord16 w ++ rest) = .ok (w, rest) := by
  simp [takeWord16, putWord16, append_halves16]

theorem takeWord32_put (w : F32) (rest : List Byte) : takeWord32 (putWord32 w ++ rest) = .ok (w, rest) := by
  rw [takeWord32, putWord32, List.append_assoc, andThen_of_ok (takeWord16_put _ _), andThen_of_ok (takeWord16_put _ _)]
  simp only [give_eq, append_halves32]

theorem takeNarrow_put {w : Nat} (hw : w ≤ 8) (v : BitVec w) (rest : List Byte) :
    takeNarrow w (putNarrow v ++ rest) = .ok (v, rest) := by
  have hpow : 2 ^ w ≤ 2 ^ 8 := Nat.pow_le_pow_right (by omega) hw
  have hlt := v.isLt
  have hmod : v.toNat % 256 = v.toNat := Nat.mod_eq_of_lt (by omega)
  simp only [takeNarrow, putNarrow, List.singleton_append, andThen_takeByte, BitVec.toNat_setWidth]
  rw [if_pos (by omega)]
  congr 2
  apply BitVec.eq_of_toNat_eq
  simp [hmod]

theorem takeBool_put (b : Bool) (rest : List Byte) : takeBool (putBool b ++ rest) = .ok (b, rest) := by
  cases b <;> rfl

theorem takeVec_put {b : List Byte} (h : b.length ≤ 255) (rest : List Byte) :
    takeVec (putVec b ++ rest) = .ok (b, rest) := by
  have hmod : b.length % 256 = b.length := Nat.mod_eq_of_lt (by omega)
  simp [takeVec, putVec, takeBytes, hmod]

theorem takeOption_put (v : Option F32) (rest : List Byte) : takeOption (putOption v ++ rest) = .ok (v, rest) := by
  cases v <;>
    simp [takeOption, putOption, List.append_assoc, andThen_of_ok (takeBool_put _ _), andThen_of_ok (takeWord32_put _ _)]

theorem takeSample_put (r : RawSample) (rest : List Byte) : takeSample (putSample r ++ rest) = .ok (r, rest) := by
  simp [takeSample, putSample, andThen_of_ok (takeNarrow_put (w := 4) (by omega) _ _), andThen_of_ok (takeWord16_put _ _)]

theorem takeMessage_put (m : Message) (rest : List Byte) : takeMessage (putMessage m ++ rest) = .ok (m, rest) := by
  simp [takeMessage, putMessage, andThen_of_ok (takeOption_put _ _), andThen_of_ok (takeWord32_put _ _)]

/-- An operand that ends a record. -/
theorem andThen_last {p : Parser α} {bs : List Byte} {a : α} (h : p (bs ++ []) = .ok (a, [])) (f : α → Parser β) :
    andThen p f bs = f a [] := by
  rw [List.append_nil] at h
  exact andThen_of_ok h f

theorem whole_of_ok {p : Parser Instr} {bs : List Byte} {i : Instr} (h : p bs = .ok (i, [])) : whole p bs = .ok i := by
  simp [whole, h]

/-- A record may be followed by zero bytes: the port's unused lines. -/
theorem whole_zeros {p : Parser Instr} {bs : List Byte} {i : Instr} {n : Nat}
    (h : p bs = .ok (i, List.replicate n 0#8)) : whole p bs = .ok i := by
  simp [whole, h]

end Sys2Proof
end

