-- ==== Sys2Proof/Laws/State.lean ====
section
/-! SUPPORT. One lemma per field per update of State, and what `finish` answers. -/

namespace Sys2Proof.Machine

section Respond
variable (s : State) (r : Response)
@[simp] theorem respond_snap : (s.respond r).snap = s.snap := rfl
@[simp] theorem respond_inbox : (s.respond r).inbox = s.inbox := rfl
@[simp] theorem respond_response : (s.respond r).response = some r := rfl
@[simp] theorem respond_sink : (s.respond r).sink = s.sink := rfl
@[simp] theorem respond_sinkTakes : (s.respond r).sinkTakes = s.sinkTakes := rfl
@[simp] theorem respond_source : (s.respond r).source = s.source := rfl
@[simp] theorem respond_consumed : (s.respond r).consumed = s.consumed := rfl
@[simp] theorem respond_free : (s.respond r).free = s.free := rfl
end Respond

section Raise
variable (s : State) (f : ReqFault)
@[simp] theorem raise_snap : (s.raise f).snap = s.snap := rfl
@[simp] theorem raise_inbox : (s.raise f).inbox = s.inbox := rfl
@[simp] theorem raise_response : (s.raise f).response = some (.fault f) := rfl
@[simp] theorem raise_sink : (s.raise f).sink = s.sink := rfl
@[simp] theorem raise_sinkTakes : (s.raise f).sinkTakes = s.sinkTakes := rfl
@[simp] theorem raise_source : (s.raise f).source = s.source := rfl
@[simp] theorem raise_consumed : (s.raise f).consumed = s.consumed := rfl
@[simp] theorem raise_free : (s.raise f).free = s.free := rfl
end Raise

section Quiet
variable (s : State)
@[simp] theorem quiet_snap : s.quiet.snap = s.snap := rfl
@[simp] theorem quiet_inbox : s.quiet.inbox = s.inbox := rfl
@[simp] theorem quiet_response : s.quiet.response = none := rfl
@[simp] theorem quiet_sink : s.quiet.sink = s.sink := rfl
@[simp] theorem quiet_sinkTakes : s.quiet.sinkTakes = s.sinkTakes := rfl
@[simp] theorem quiet_source : s.quiet.source = s.source := rfl
@[simp] theorem quiet_consumed : s.quiet.consumed = s.consumed := rfl
@[simp] theorem quiet_free : s.quiet.free = s.free := rfl
end Quiet

section BlockReset
variable (s : State)
@[simp] theorem blockReset_captured : s.blockReset.snap.captured = false := rfl
@[simp] theorem blockReset_inbox : s.blockReset.inbox = s.inbox := rfl
@[simp] theorem blockReset_response : s.blockReset.response = none := rfl
@[simp] theorem blockReset_sink : s.blockReset.sink = s.sink := rfl
@[simp] theorem blockReset_sinkTakes : s.blockReset.sinkTakes = s.sinkTakes := rfl
@[simp] theorem blockReset_source : s.blockReset.source = s.source := rfl
@[simp] theorem blockReset_consumed : s.blockReset.consumed = s.consumed := rfl
@[simp] theorem blockReset_free : s.blockReset.free = s.free + 1 := rfl
end BlockReset

section Advance
variable (s : State)
@[simp] theorem advance_snap : s.advance.snap = s.snap := rfl
@[simp] theorem advance_inbox : s.advance.inbox = s.inbox.tail := rfl
@[simp] theorem advance_response : s.advance.response = s.response := rfl
@[simp] theorem advance_sink : s.advance.sink = s.sink := rfl
@[simp] theorem advance_sinkTakes : s.advance.sinkTakes = s.sinkTakes := rfl
@[simp] theorem advance_source : s.advance.source = s.source := rfl
@[simp] theorem advance_consumed : s.advance.consumed = s.consumed := rfl
@[simp] theorem advance_free : s.advance.free = s.free := rfl
end Advance

section Offer
variable (s : State) (b : List Byte)
@[simp] theorem offer_snap : (s.offer b).snap = s.snap := rfl
@[simp] theorem offer_inbox : (s.offer b).inbox = s.inbox := rfl
@[simp] theorem offer_response : (s.offer b).response = s.response := rfl
@[simp] theorem offer_sink : (s.offer b).sink = s.sink ++ b.take (s.sinkChoice b.length) := rfl
@[simp] theorem offer_sinkTakes : (s.offer b).sinkTakes = s.sinkTakes.tail := rfl
@[simp] theorem offer_source : (s.offer b).source = s.source := rfl
@[simp] theorem offer_consumed : (s.offer b).consumed = s.consumed := rfl
end Offer

section AfterRead
variable (s : State)
@[simp] theorem afterRead_snap : s.afterRead.snap = s.snap := rfl
@[simp] theorem afterRead_inbox : s.afterRead.inbox = s.inbox := rfl
@[simp] theorem afterRead_response : s.afterRead.response = s.response := rfl
@[simp] theorem afterRead_sink : s.afterRead.sink = s.sink := rfl
@[simp] theorem afterRead_sinkTakes : s.afterRead.sinkTakes = s.sinkTakes := rfl
@[simp] theorem afterRead_source : s.afterRead.source = s.source.tail := rfl
@[simp] theorem afterRead_consumed : s.afterRead.consumed = s.consumed + consumedBy s.sourceChoice := rfl
end AfterRead

section Place
variable (s : State) (x : Stimulus)
@[simp] theorem place_snap : (s.place x).snap = s.snap := rfl
@[simp] theorem place_inbox : (s.place x).inbox = x :: s.inbox := rfl
@[simp] theorem place_sink : (s.place x).sink = s.sink := rfl
@[simp] theorem place_advance : (s.place x).advance = s := rfl
end Place

/-! ### Ending a request -/

theorem finish_ok (s : State) (v : Result) : finish s (.ok v) = .next (s.respond (.ok v)) := rfl

theorem finish_error (s : State) (f : ReqFault) : finish s (.error f) = .next (s.raise f) := rfl

/-- The response a pseudocode's outcome drives. -/
def responseOf : Except ReqFault Result → Response
  | .ok v => .ok v
  | .error f => .fault f

/-- `finish` always answers a next state, and changes the response port alone. -/
theorem finish_eq (s : State) (r : Except ReqFault Result) : finish s r = .next (s.respond (responseOf r)) := by
  cases r <;> rfl

end Sys2Proof.Machine
end

