-- ==== Sys2Proof/Laws/Ops.lean ====
section
/-! SUPPORT. What the sink's offer and the source's read can do, and the accessor tag check. -/

namespace Sys2Proof.Machine

/-- The sink never takes more than it is offered (R259). -/
theorem sinkChoice_le (s : State) (n : Nat) : s.sinkChoice n ≤ n := by
  unfold State.sinkChoice
  split <;> exact min_le_right _ _

theorem sinkChoice_script {s : State} {k : Nat} {rest : List Nat} (h : s.sinkTakes = k :: rest) (n : Nat) :
    s.sinkChoice n = min k n := by
  simp [State.sinkChoice, h]

theorem sourceChoice_script {s : State} {a : SourceAnswer} {rest : List SourceAnswer} (h : s.source = a :: rest) :
    s.sourceChoice = a := by
  simp [State.sourceChoice, h]

/-- A scripted offer. -/
theorem offer_script {s : State} {k : Nat} {rest : List Nat} (h : s.sinkTakes = k :: rest) (b : List Byte) :
    s.offer b = { s with sink := s.sink ++ b.take (min k b.length), sinkTakes := rest } := by
  simp [State.offer, sinkChoice_script h, h]

/-- A scripted read. -/
theorem afterRead_script {s : State} {a : SourceAnswer} {rest : List SourceAnswer} (h : s.source = a :: rest) :
    s.afterRead = { s with source := rest, consumed := s.consumed + consumedBy a } := by
  simp [State.afterRead, sourceChoice_script h, h]

/-- A read consumes a whole block or nothing. -/
theorem consumedBy_mod (a : SourceAnswer) : consumedBy a % 128 = 0 := by
  cases a <;> simp [consumedBy, Config.rxBlockLen]

theorem withTag_same (a : Byte) (r : Except ReqFault Result) : withTag a a r = r := by
  simp [withTag]

theorem withTag_other {addr a : Byte} (h : addr ≠ a) (r : Except ReqFault Result) :
    withTag addr a r = .error (.accessorMismatch addr) := by
  simp [withTag, h]

end Sys2Proof.Machine
end

