-- ==== Sys2Proof/Laws/Framer.lean ====
section
/-! SUPPORT. Message serialization and transport: parsing gives back what serializing wrote, lengths, and `split0`. -/

namespace Sys2Proof.Machine

/-- `LE32` of `bytes_LE32` (R13). -/
theorem le32_bytesLE32 (u : F32) :
    le32 (u.extractLsb' 0 8) (u.extractLsb' 8 8) (u.extractLsb' 16 8) (u.extractLsb' 24 8) = u := by
  have h1 : u.extractLsb' 24 8 ++ u.extractLsb' 16 8 = u.extractLsb' 16 (8 + 8) :=
    BitVec.extractLsb'_append_extractLsb'_eq_extractLsb' rfl
  have h2 : u.extractLsb' 16 (8 + 8) ++ u.extractLsb' 8 8 = u.extractLsb' 8 (8 + (8 + 8)) :=
    BitVec.extractLsb'_append_extractLsb'_eq_extractLsb' rfl
  have h3 : u.extractLsb' 8 (8 + (8 + 8)) ++ u.extractLsb' 0 8 = u.extractLsb' 0 (8 + (8 + (8 + 8))) :=
    BitVec.extractLsb'_append_extractLsb'_eq_extractLsb' rfl
  unfold le32
  rw [h1, h2]
  exact h3.trans BitVec.extractLsb'_eq_self

@[simp] theorem length_bytesLE32 (u : F32) : (bytesLE32 u).length = 4 := rfl

theorem getF32_put (u : F32) (rest : List Byte) : getF32 (bytesLE32 u ++ rest) = .ok (u, rest) := by
  simp [bytesLE32, getF32, le32_bytesLE32]

theorem getTagged_put (v : Option F32) (rest : List Byte) : getTagged (putTagged v ++ rest) = .ok (v, rest) := by
  cases v with
  | none => simp [putTagged, getTagged]
  | some u => simp [putTagged, getTagged, getF32_put]

theorem length_putTagged (v : Option F32) : (putTagged v).length = 1 + 4 * v.isSome.toNat := by
  cases v <;> simp [putTagged]

/-- R243. -/
theorem length_payloadOf (m : Message) : (payloadOf m).length =
    16 + 4 * (m.field.x.isSome.toNat + m.field.y.isSome.toNat + m.field.z.isSome.toNat + m.field.t.isSome.toNat) := by
  simp only [payloadOf, List.length_append, length_putTagged, length_bytesLE32]
  omega

theorem length_payloadOf_bounds (m : Message) : 16 ≤ (payloadOf m).length ∧ (payloadOf m).length ≤ 32 := by
  have hx := Bool.toNat_le m.field.x.isSome
  have hy := Bool.toNat_le m.field.y.isSome
  have hz := Bool.toNat_le m.field.z.isSome
  have ht := Bool.toNat_le m.field.t.isSome
  rw [length_payloadOf]
  omega

/-- SER never faults: every payload fits the serialization buffer. -/
theorem serialize_eq (m : Message) : serialize m = .ok (payloadOf m) := by
  have h := (length_payloadOf_bounds m).2
  rw [serialize, if_neg (by simp [Config.serBufLen]; omega)]

/-- DESER gives back the Message of a payload, whatever follows it (R246, R247). -/
theorem deserialize_payload (m : Message) (rest : List Byte) : deserialize (payloadOf m ++ rest) = .ok m := by
  simp only [deserialize, payloadOf, List.append_assoc, getTagged_put, getF32_put, bind, Except.bind]
  rfl

/-! ### Reading one value: what a success or a fault says of the input -/

/-- Appending bit vectors, as numbers. -/
theorem toNat_append_eq {n m : Nat} (x : BitVec n) (y : BitVec m) : (x ++ y).toNat = x.toNat * 2 ^ m + y.toNat := by
  rw [BitVec.toNat_append, ← Nat.shiftLeft_add_eq_or_of_lt y.isLt, Nat.shiftLeft_eq]

/-- `LE32` as a number (R13). -/
theorem toNat_le32 (b0 b1 b2 b3 : Byte) :
    (le32 b0 b1 b2 b3).toNat = ((b3.toNat * 256 + b2.toNat) * 256 + b1.toNat) * 256 + b0.toNat := by
  have h : (b3 ++ b2 ++ b1 ++ b0).toNat = ((b3.toNat * 256 + b2.toNat) * 256 + b1.toNat) * 256 + b0.toNat := by
    simp only [toNat_append_eq, Nat.reducePow]
  exact h

theorem getF32_ok {d d' : List Byte} {u : F32} (h : getF32 d = .ok (u, d')) : d = bytesLE32 u ++ d' := by
  match d, h with
  | b0 :: b1 :: b2 :: b3 :: rest, h =>
    simp only [getF32, Except.ok.injEq, Prod.mk.injEq] at h
    obtain ⟨rfl, rfl⟩ := h
    have e0 : (le32 b0 b1 b2 b3).extractLsb' 0 8 = b0 := by
      apply BitVec.eq_of_toNat_eq
      rw [BitVec.extractLsb'_toNat, toNat_le32, Nat.shiftRight_eq_div_pow]
      omega
    have e1 : (le32 b0 b1 b2 b3).extractLsb' 8 8 = b1 := by
      apply BitVec.eq_of_toNat_eq
      rw [BitVec.extractLsb'_toNat, toNat_le32, Nat.shiftRight_eq_div_pow]
      omega
    have e2 : (le32 b0 b1 b2 b3).extractLsb' 16 8 = b2 := by
      apply BitVec.eq_of_toNat_eq
      rw [BitVec.extractLsb'_toNat, toNat_le32, Nat.shiftRight_eq_div_pow]
      omega
    have e3 : (le32 b0 b1 b2 b3).extractLsb' 24 8 = b3 := by
      apply BitVec.eq_of_toNat_eq
      rw [BitVec.extractLsb'_toNat, toNat_le32, Nat.shiftRight_eq_div_pow]
      omega
    simp [bytesLE32, e0, e1, e2, e3]

/-- A binary32 is missing exactly where fewer than four bytes are left. -/
theorem getF32_short {d : List Byte} (h : d.length < 4) : getF32 d = .error (.payloadDecodeFailure .unexpectedEnd) := by
  match d, h with
  | [], _ => rfl
  | [_], _ => rfl
  | [_, _], _ => rfl
  | [_, _, _], _ => rfl

theorem getTagged_ok {d d' : List Byte} {v : Option F32} (h : getTagged d = .ok (v, d')) : d = putTagged v ++ d' := by
  cases d with
  | nil => simp [getTagged] at h
  | cons tag rest =>
    simp only [getTagged] at h
    split at h
    · rename_i htag
      simp only [Except.ok.injEq, Prod.mk.injEq] at h
      obtain ⟨rfl, rfl⟩ := h
      simp [putTagged, htag]
    · split at h
      · rename_i htag
        split at h
        · rename_i f rest' hf
          simp only [Except.ok.injEq, Prod.mk.injEq] at h
          obtain ⟨rfl, rfl⟩ := h
          simp [putTagged, htag, getF32_ok hf]
        · simp at h
      · simp at h

/-! ### Splitting -/

theorem split0_ne_nil (b : List Byte) : split0 b ≠ [] := by
  cases b with
  | nil => simp [split0]
  | cons x xs =>
    simp only [split0]
    split
    · simp
    · split <;> simp

/-- A block without a zero byte is one chunk. -/
theorem split0_noZero {b : List Byte} (h : 0#8 ∉ b) : split0 b = [b] := by
  induction b with
  | nil => rfl
  | cons x xs ih =>
    have hx : x ≠ 0#8 := fun e => h (by simp [e])
    have hxs : 0#8 ∉ xs := fun e => h (by simp [e])
    simp [split0, hx, ih hxs]

/-- The first chunk of a block is what precedes its first zero byte. -/
theorem split0_zero {pre : List Byte} (h : 0#8 ∉ pre) (rest : List Byte) :
    split0 (pre ++ 0#8 :: rest) = pre :: split0 rest := by
  induction pre with
  | nil => simp [split0]
  | cons x xs ih =>
    have hx : x ≠ 0#8 := fun e => h (by simp [e])
    have hxs : 0#8 ∉ xs := fun e => h (by simp [e])
    simp [split0, hx, ih hxs]

end Sys2Proof.Machine
end

