-- ==== Sys2Proof/Laws/Exec.lean ====
section
/-! SUPPORT. What each request does, one equation per instruction over the shared operations, and what any request
can do at all. -/

namespace Sys2Proof.Machine

/-- What a request returned, from the state it left. -/
theorem finish_returned {u s : State} {r : Except ReqFault Result} {v : Result}
    (h : finish u r = .next (s.respond (.ok v))) : r = .ok v := by
  cases r with
  | ok a =>
    have := congrArg State.response (Host.Outcome.next.inj h)
    simpa using this
  | error e =>
    have := congrArg State.response (Host.Outcome.next.inj h)
    simp at this

/-- What a request raised, from the state it left. -/
theorem finish_raised {u s : State} {r : Except ReqFault Result} {f : ReqFault}
    (h : finish u r = .next (s.raise f)) : r = .error f := by
  cases r with
  | ok a =>
    have := congrArg State.response (Host.Outcome.next.inj h)
    simp at this
  | error e =>
    have := congrArg State.response (Host.Outcome.next.inj h)
    simpa using this

theorem exec_sb (p : ChannelSet) (s : State) : exec (.sb p) s = finish s (.ok (.frame (sbFrame p))) := rfl

theorem exec_sw (p : ChannelSet) (s : State) : exec (.sw p) s = finish s (.ok (.frame (swFrame p))) := rfl

theorem exec_sm (p : ChannelSet) (s : State) : exec (.sm p) s = finish s (.ok (.frame (smFrame p))) := rfl

theorem exec_rm (p : ChannelSet) (s : State) : exec (.rm p) s = finish s (.ok (.frame (rmFrame p))) := rfl

theorem exec_rr (addr : Byte) (s : State) : exec (.rr addr) s = finish s (frameResult (rrFrame addr)) := rfl

theorem exec_wr (addr : Byte) (data : Word16) (s : State) :
    exec (.wr addr data) s = finish s (frameResult (wrFrame addr data)) := rfl

theorem exec_ex (s : State) : exec .ex s = finish s (.ok (.frame exFrame)) := rfl

theorem exec_hr (s : State) : exec .hr s = finish s (.ok (.frame hrFrame)) := rfl

theorem exec_hs (s : State) : exec .hs s = finish s (.ok (.frame hsFrame)) := rfl

theorem exec_rt (s : State) : exec .rt s = finish s (.ok (.frame rtFrame)) := rfl

theorem exec_fget (addr : Byte) (word : Word16) (idx : BitVec 5) (s : State) :
    exec (.fget addr word idx) s = finish s (fget addr word idx) := rfl

theorem exec_fset (addr : Byte) (word : Word16) (idx : BitVec 5) (value : Word16) (s : State) :
    exec (.fset addr word idx value) s = finish s (fset addr word idx value) := rfl

theorem exec_dgain (addr : Byte) (word : Word16) (s : State) :
    exec (.dgain addr word) s = finish s (withTag addr 0x00#8 (.ok (.gain (gainOf word)))) := rfl

theorem exec_dtcmp (addr : Byte) (word : Word16) (s : State) :
    exec (.dtcmp addr word) s = finish s (withTag addr 0x01#8 (.ok (.flag (tcmpOf word)))) := rfl

theorem exec_dhall (addr : Byte) (word : Word16) (s : State) :
    exec (.dhall addr word) s = finish s (withTag addr 0x00#8 (.ok (.hall (hallOf word)))) := rfl

theorem exec_dzser (addr : Byte) (word : Word16) (s : State) :
    exec (.dzser addr word) s = finish s (withTag addr 0x00#8 (.ok (.flag (zseriesOf word)))) := rfl

theorem exec_dbist (addr : Byte) (word : Word16) (s : State) :
    exec (.dbist addr word) s = finish s (withTag addr 0x00#8 (.ok (.flag (bistOf word)))) := rfl

theorem exec_dres (addr : Byte) (word : Word16) (s : State) :
    exec (.dres addr word) s = finish s (withTag addr 0x02#8 (.ok (.resolutions (resXOf word) (resYOf word) (resZOf word)))) := rfl

theorem exec_egain (addr : Byte) (word : Word16) (gain : Byte) (s : State) :
    exec (.egain addr word gain) s = finish s (egain addr word gain) := rfl

theorem exec_etcmp (addr : Byte) (word : Word16) (b : Bool) (s : State) :
    exec (.etcmp addr word b) s = finish s (withTag addr 0x01#8 (.ok (.word (setBit word 10 b)))) := rfl

theorem exec_ezser (addr : Byte) (word : Word16) (b : Bool) (s : State) :
    exec (.ezser addr word b) s = finish s (withTag addr 0x00#8 (.ok (.word (setBit word 7 b)))) := rfl

theorem exec_ebist (addr : Byte) (word : Word16) (b : Bool) (s : State) :
    exec (.ebist addr word b) s = finish s (withTag addr 0x00#8 (.ok (.word (setBit word 8 b)))) := rfl

theorem exec_snapq (s : State) : exec .snapq s = finish s (.ok (.snapshot (shownSnap s.snap))) := rfl

theorem exec_cmdenc (base : Byte) (chans : ChannelSet) (addr : Byte) (data : Word16) (s : State) :
    exec (.cmdenc base chans addr data) s = finish s (frameResult (commandFrame base chans addr data)) := rfl

theorem exec_stdec (b : Byte) (s : State) : exec (.stdec b) s = finish s (.ok (.status (statusFields b))) := rfl

theorem exec_rmdec (chans : ChannelSet) (b : List Byte) (s : State) :
    exec (.rmdec chans b) s = finish s (rmDecode chans b) := rfl

theorem exec_rrdec (b : List Byte) (s : State) : exec (.rrdec b) s = finish s (rrDecode b) := rfl

theorem exec_s1dec (b : List Byte) (s : State) : exec (.s1dec b) s = finish s (s1Decode b) := rfl

theorem exec_conv (chans : ChannelSet) (raw : RawSample) (s : State) :
    exec (.conv chans raw) s = finish s (fieldResult (convert Config.convParams s.snap chans raw)) := rfl

theorem exec_ser (m : Message) (s : State) : exec (.ser m) s = finish s (bytesResult (serialize m)) := rfl

theorem exec_deser (d : List Byte) (s : State) : exec (.deser d) s = finish s (messageResult (deserialize d)) := rfl

theorem exec_cenc (b : List Byte) (s : State) : exec (.cenc b) s = finish s (bytesResult (cobsEncode b)) := rfl

theorem exec_cdec (c : List Byte) (s : State) : exec (.cdec c) s = finish s (bytesResult (cobsDecode c)) := rfl

theorem exec_snapcap (w0 w1 w2 tref : Word16) (s : State) : exec (.snapcap w0 w1 w2 tref) s =
    .next (State.respond { s with snap := captureSnap w0 w1 w2 tref } (.ok (.flag (hallOf w0).isSome))) := rfl

theorem exec_fwrite (f : List Byte) (s : State) : exec (.fwrite f) s = writeFrame f .none s := rfl

theorem exec_fread (s : State) :
    exec .fread s = finish s.afterRead (messageResult (messageOfAnswer s.sourceChoice)) := rfl

/-- The frame of a payload of SER: it always fits (R250, R252). -/
theorem length_cobs_short {b : List Byte} (h : b.length ≤ 253) : (cobs b).length = b.length + 1 := by
  have key : ∀ (b blk : List Byte), blk.length + b.length ≤ 253 →
      (cobsFrom blk b).length = blk.length + b.length + 1 := by
    intro b
    induction b with
    | nil => intro blk _; simp [cobsFrom]
    | cons x xs ih =>
      intro blk hl
      simp only [List.length_cons] at hl
      rw [cobsFrom]
      split
      · simp only [List.cons_append, List.length_cons, List.length_append]
        rw [ih [] (by simp; omega)]
        simp
      · rw [if_neg (by omega), ih _ (by simp; omega)]
        simp; omega
  rw [cobs_eq, key b [] (by simpa using h)]
  simp

/-- SER and CENC of a Message never fault: the frame is COBS of the payload and a zero (R266). -/
theorem frameOf_eq (m : Message) : frameOf m = .ok (cobs (payloadOf m) ++ [0#8]) := by
  have h := (length_payloadOf_bounds m).2
  have hc := length_cobs_short (b := payloadOf m) (by omega)
  simp only [frameOf, serialize_eq, bind, Except.bind, cobsEncode]
  rw [if_neg (by simp [Config.frameBufLen, hc]; omega)]

theorem exec_msgtx (m : Message) (s : State) : exec (.msgtx m) s =
    writeFrame (cobs (payloadOf m) ++ [0#8])
      (.written (BitVec.ofNat 8 (cobs (payloadOf m) ++ [0#8]).length)) s := by
  simp only [exec, execMsgtx, frameOf_eq]

/-- What a request can do: capture the snapshot; offer a frame to the sink; read the source; or answer and change
nothing but the response port. -/
theorem exec_cases (i : Instr) (s : State) :
    (∃ w0 w1 w2 tref, i = .snapcap w0 w1 w2 tref) ∨ (∃ f r, exec i s = writeFrame f r s) ∨ i = .fread ∨
      ∃ r, exec i s = .next (s.respond r) := by
  cases i
  case snapcap => exact .inl ⟨_, _, _, _, rfl⟩
  case fwrite f => exact .inr (.inl ⟨f, .none, rfl⟩)
  case fread => exact .inr (.inr (.inl rfl))
  case msgtx m => exact .inr (.inl ⟨_, _, exec_msgtx m s⟩)
  case sb => exact .inr (.inr (.inr ⟨_, (exec_sb _ _).trans (finish_eq _ _)⟩))
  case sw => exact .inr (.inr (.inr ⟨_, (exec_sw _ _).trans (finish_eq _ _)⟩))
  case sm => exact .inr (.inr (.inr ⟨_, (exec_sm _ _).trans (finish_eq _ _)⟩))
  case rm => exact .inr (.inr (.inr ⟨_, (exec_rm _ _).trans (finish_eq _ _)⟩))
  case rr => exact .inr (.inr (.inr ⟨_, (exec_rr _ _).trans (finish_eq _ _)⟩))
  case wr => exact .inr (.inr (.inr ⟨_, (exec_wr _ _ _).trans (finish_eq _ _)⟩))
  case ex => exact .inr (.inr (.inr ⟨_, (exec_ex _).trans (finish_eq _ _)⟩))
  case hr => exact .inr (.inr (.inr ⟨_, (exec_hr _).trans (finish_eq _ _)⟩))
  case hs => exact .inr (.inr (.inr ⟨_, (exec_hs _).trans (finish_eq _ _)⟩))
  case rt => exact .inr (.inr (.inr ⟨_, (exec_rt _).trans (finish_eq _ _)⟩))
  case fget => exact .inr (.inr (.inr ⟨_, (exec_fget _ _ _ _).trans (finish_eq _ _)⟩))
  case fset => exact .inr (.inr (.inr ⟨_, (exec_fset _ _ _ _ _).trans (finish_eq _ _)⟩))
  case dgain => exact .inr (.inr (.inr ⟨_, (exec_dgain _ _ _).trans (finish_eq _ _)⟩))
  case dtcmp => exact .inr (.inr (.inr ⟨_, (exec_dtcmp _ _ _).trans (finish_eq _ _)⟩))
  case dhall => exact .inr (.inr (.inr ⟨_, (exec_dhall _ _ _).trans (finish_eq _ _)⟩))
  case dzser => exact .inr (.inr (.inr ⟨_, (exec_dzser _ _ _).trans (finish_eq _ _)⟩))
  case dbist => exact .inr (.inr (.inr ⟨_, (exec_dbist _ _ _).trans (finish_eq _ _)⟩))
  case dres => exact .inr (.inr (.inr ⟨_, (exec_dres _ _ _).trans (finish_eq _ _)⟩))
  case egain => exact .inr (.inr (.inr ⟨_, (exec_egain _ _ _ _).trans (finish_eq _ _)⟩))
  case etcmp => exact .inr (.inr (.inr ⟨_, (exec_etcmp _ _ _ _).trans (finish_eq _ _)⟩))
  case ezser => exact .inr (.inr (.inr ⟨_, (exec_ezser _ _ _ _).trans (finish_eq _ _)⟩))
  case ebist => exact .inr (.inr (.inr ⟨_, (exec_ebist _ _ _ _).trans (finish_eq _ _)⟩))
  case snapq => exact .inr (.inr (.inr ⟨_, (exec_snapq _).trans (finish_eq _ _)⟩))
  case cmdenc => exact .inr (.inr (.inr ⟨_, (exec_cmdenc _ _ _ _ _).trans (finish_eq _ _)⟩))
  case stdec => exact .inr (.inr (.inr ⟨_, (exec_stdec _ _).trans (finish_eq _ _)⟩))
  case rmdec => exact .inr (.inr (.inr ⟨_, (exec_rmdec _ _ _).trans (finish_eq _ _)⟩))
  case rrdec => exact .inr (.inr (.inr ⟨_, (exec_rrdec _ _).trans (finish_eq _ _)⟩))
  case s1dec => exact .inr (.inr (.inr ⟨_, (exec_s1dec _ _).trans (finish_eq _ _)⟩))
  case conv => exact .inr (.inr (.inr ⟨_, (exec_conv _ _ _).trans (finish_eq _ _)⟩))
  case ser => exact .inr (.inr (.inr ⟨_, (exec_ser _ _).trans (finish_eq _ _)⟩))
  case deser => exact .inr (.inr (.inr ⟨_, (exec_deser _ _).trans (finish_eq _ _)⟩))
  case cenc => exact .inr (.inr (.inr ⟨_, (exec_cenc _ _).trans (finish_eq _ _)⟩))
  case cdec => exact .inr (.inr (.inr ⟨_, (exec_cdec _ _).trans (finish_eq _ _)⟩))

/-- The requests without an effect outside the response answer by their operands alone, but for SNAPQ and CONV, which
read `SNAP`. -/
theorem exec_pure (i : Instr) (h1 : ∀ b, i ≠ .fwrite b) (h2 : ∀ m, i ≠ .msgtx m) (h3 : i ≠ .fread)
    (h4 : ∀ w0 w1 w2 tref, i ≠ .snapcap w0 w1 w2 tref) :
    (∃ r, ∀ s, exec i s = finish s r) ∨ i = .snapq ∨ ∃ chans raw, i = .conv chans raw := by
  cases i
  case fwrite => exact absurd rfl (h1 _)
  case msgtx => exact absurd rfl (h2 _)
  case fread => exact absurd rfl h3
  case snapcap => exact absurd rfl (h4 _ _ _ _)
  case snapq => exact .inr (.inl rfl)
  case conv => exact .inr (.inr ⟨_, _, rfl⟩)
  case sb => exact .inl ⟨_, fun s => exec_sb _ s⟩
  case sw => exact .inl ⟨_, fun s => exec_sw _ s⟩
  case sm => exact .inl ⟨_, fun s => exec_sm _ s⟩
  case rm => exact .inl ⟨_, fun s => exec_rm _ s⟩
  case rr => exact .inl ⟨_, fun s => exec_rr _ s⟩
  case wr => exact .inl ⟨_, fun s => exec_wr _ _ s⟩
  case ex => exact .inl ⟨_, fun s => exec_ex s⟩
  case hr => exact .inl ⟨_, fun s => exec_hr s⟩
  case hs => exact .inl ⟨_, fun s => exec_hs s⟩
  case rt => exact .inl ⟨_, fun s => exec_rt s⟩
  case fget => exact .inl ⟨_, fun s => exec_fget _ _ _ s⟩
  case fset => exact .inl ⟨_, fun s => exec_fset _ _ _ _ s⟩
  case dgain => exact .inl ⟨_, fun s => exec_dgain _ _ s⟩
  case dtcmp => exact .inl ⟨_, fun s => exec_dtcmp _ _ s⟩
  case dhall => exact .inl ⟨_, fun s => exec_dhall _ _ s⟩
  case dzser => exact .inl ⟨_, fun s => exec_dzser _ _ s⟩
  case dbist => exact .inl ⟨_, fun s => exec_dbist _ _ s⟩
  case dres => exact .inl ⟨_, fun s => exec_dres _ _ s⟩
  case egain => exact .inl ⟨_, fun s => exec_egain _ _ _ s⟩
  case etcmp => exact .inl ⟨_, fun s => exec_etcmp _ _ _ s⟩
  case ezser => exact .inl ⟨_, fun s => exec_ezser _ _ _ s⟩
  case ebist => exact .inl ⟨_, fun s => exec_ebist _ _ _ s⟩
  case cmdenc => exact .inl ⟨_, fun s => exec_cmdenc _ _ _ _ s⟩
  case stdec => exact .inl ⟨_, fun s => exec_stdec _ s⟩
  case rmdec => exact .inl ⟨_, fun s => exec_rmdec _ _ s⟩
  case rrdec => exact .inl ⟨_, fun s => exec_rrdec _ s⟩
  case s1dec => exact .inl ⟨_, fun s => exec_s1dec _ s⟩
  case ser => exact .inl ⟨_, fun s => exec_ser _ s⟩
  case deser => exact .inl ⟨_, fun s => exec_deser _ s⟩
  case cenc => exact .inl ⟨_, fun s => exec_cenc _ s⟩
  case cdec => exact .inl ⟨_, fun s => exec_cdec _ s⟩

/-- R201: without a capture CONV answers alike whatever the other fields hold. -/
theorem convert_uncaptured {p : Snap} (h : p.captured = false) (c : Config.ConvParams) (chans : ChannelSet)
    (raw : RawSample) : convert c p chans raw = .error .snapshotAbsent := by
  rw [convert, if_pos h]

end Sys2Proof.Machine
end

