-- ==== Sys2Proof/Laws/PerInstr.lean ====
section
/-! SUPPORT. Per instruction: decoding the record that `encode` writes gives the instruction back. -/

namespace Sys2Proof.Laws.RoundTrip

/-- The instruction survives the record. -/
def Statement (i : Instr) : Prop := i.wellFormed = true → decode (encode i) = .ok i

/-- The address byte of RR and WR gives the address back (R87). -/
theorem takeAddr_shift {addr : Byte} (h : addrOk addr = true) (rest : List Byte) :
    takeAddr ((addr <<< 2) :: rest) = .ok (addr, rest) := by
  have hle : addr.toNat ≤ 63 := of_decide_eq_true h
  have hshift : (addr <<< 2).toNat = 4 * addr.toNat := by
    simp [BitVec.toNat_shiftLeft, Nat.shiftLeft_eq]
    omega
  have hback : (addr <<< 2) >>> 2 = addr := by
    apply BitVec.eq_of_toNat_eq
    rw [BitVec.toNat_ushiftRight, hshift, Nat.shiftRight_eq_div_pow]
    omega
  simp [takeAddr, hshift, hback]

theorem sb (p : ChannelSet) : Statement (.sb p) := fun _ => by
  revert p; decide

theorem sw (p : ChannelSet) : Statement (.sw p) := fun _ => by
  revert p; decide

theorem sm (p : ChannelSet) : Statement (.sm p) := fun _ => by
  revert p; decide

theorem rm (p : ChannelSet) : Statement (.rm p) := fun _ => by
  revert p; decide

theorem rr (addr : Byte) : Statement (.rr addr) := fun h =>
  whole_of_ok (p := andThen takeAddr fun a => give (.rr a)) (andThen_of_ok (takeAddr_shift h []) _)

theorem wr (addr : Byte) (data : Word16) : Statement (.wr addr data) := fun h => by
  refine whole_of_ok (p := andThen takeByte fun dh => andThen takeByte fun dl => andThen takeAddr fun a =>
    give (.wr a (dh ++ dl))) ?_
  simp only [andThen_takeByte, andThen_of_ok (takeAddr_shift h []), give_eq, append_halves16]

theorem ex : Statement .ex := fun _ => rfl
theorem hr : Statement .hr := fun _ => rfl
theorem hs : Statement .hs := fun _ => rfl
theorem rt : Statement .rt := fun _ => rfl

/-- A request-port record of an assigned op is decoded by that op's operands (R82). -/
theorem port {op : Byte} {bs : List Byte} {p : Parser Instr} {i : Instr} (hop : portOperands op.toNat = some p)
    (h : p bs = .ok (i, [])) : decode (portRecord op bs) = .ok i := by
  simp only [decode, portRecord, decodePort, hop]
  exact whole_of_ok h

theorem tagged (k : Byte → Word16 → Instr) (addr : Byte) (word : Word16) :
    takeTagged k (addr :: putWord16 word) = .ok (k addr word, []) := by
  simp [takeTagged, andThen_last (takeWord16_put word [])]

theorem taggedBit (k : Byte → Word16 → Bool → Instr) (addr : Byte) (word : Word16) (b : Bool) :
    takeTaggedBit k (addr :: (putWord16 word ++ putBool b)) = .ok (k addr word b, []) := by
  simp [takeTaggedBit, andThen_of_ok (takeWord16_put word _), andThen_last (takeBool_put b [])]

theorem fget (addr : Byte) (word : Word16) (idx : BitVec 5) : Statement (.fget addr word idx) := fun _ =>
  port rfl (by simp [andThen_of_ok (takeWord16_put word _), andThen_last (takeNarrow_put (by omega) idx [])])

theorem fset (addr : Byte) (word : Word16) (idx : BitVec 5) (value : Word16) :
    Statement (.fset addr word idx value) := fun _ =>
  port rfl (by simp [andThen_of_ok (takeWord16_put word _), andThen_of_ok (takeNarrow_put (by omega) idx _),
    andThen_last (takeWord16_put value [])])

theorem dgain (addr : Byte) (word : Word16) : Statement (.dgain addr word) := fun _ => port rfl (tagged _ _ _)
theorem dtcmp (addr : Byte) (word : Word16) : Statement (.dtcmp addr word) := fun _ => port rfl (tagged _ _ _)
theorem dhall (addr : Byte) (word : Word16) : Statement (.dhall addr word) := fun _ => port rfl (tagged _ _ _)
theorem dzser (addr : Byte) (word : Word16) : Statement (.dzser addr word) := fun _ => port rfl (tagged _ _ _)
theorem dbist (addr : Byte) (word : Word16) : Statement (.dbist addr word) := fun _ => port rfl (tagged _ _ _)
theorem dres (addr : Byte) (word : Word16) : Statement (.dres addr word) := fun _ => port rfl (tagged _ _ _)

theorem egain (addr : Byte) (word : Word16) (gain : Byte) : Statement (.egain addr word gain) := fun _ =>
  port rfl (by simp [andThen_of_ok (takeWord16_put word _)])

theorem etcmp (addr : Byte) (word : Word16) (b : Bool) : Statement (.etcmp addr word b) := fun _ =>
  port rfl (taggedBit _ _ _ _)

theorem ezser (addr : Byte) (word : Word16) (b : Bool) : Statement (.ezser addr word b) := fun _ =>
  port rfl (taggedBit _ _ _ _)

theorem ebist (addr : Byte) (word : Word16) (b : Bool) : Statement (.ebist addr word b) := fun _ =>
  port rfl (taggedBit _ _ _ _)

theorem snapcap (w0 w1 w2 tref : Word16) : Statement (.snapcap w0 w1 w2 tref) := fun _ =>
  port rfl (by simp [andThen_of_ok (takeWord16_put _ _), andThen_last (takeWord16_put tref [])])

theorem snapq : Statement .snapq := fun _ => rfl

theorem cmdenc (base : Byte) (chans : ChannelSet) (addr : Byte) (data : Word16) :
    Statement (.cmdenc base chans addr data) := fun _ =>
  port rfl (by simp [andThen_of_ok (takeNarrow_put (by omega) chans _), andThen_last (takeWord16_put data [])])

theorem stdec (s : Byte) : Statement (.stdec s) := fun _ => rfl

/-- A byte vector that ends a record. -/
theorem lastVec {b : List Byte} (h : vecOk b = true) (k : List Byte → Instr) :
    (andThen takeVec fun b => give (k b)) (putVec b) = .ok (k b, []) := by
  have hle : b.length ≤ 255 := of_decide_eq_true h
  simp [andThen_last (takeVec_put hle [])]

theorem rmdec (chans : ChannelSet) (b : List Byte) : Statement (.rmdec chans b) := fun h =>
  port rfl (by rw [andThen_of_ok (takeNarrow_put (by omega) chans _)]; exact lastVec h _)

theorem rrdec (b : List Byte) : Statement (.rrdec b) := fun h => port rfl (lastVec h _)
theorem s1dec (b : List Byte) : Statement (.s1dec b) := fun h => port rfl (lastVec h _)

theorem conv (chans : ChannelSet) (raw : RawSample) : Statement (.conv chans raw) := fun _ =>
  port rfl (by simp [andThen_of_ok (takeNarrow_put (by omega) chans _), andThen_last (takeSample_put raw [])])

theorem ser (msg : Message) : Statement (.ser msg) := fun _ =>
  port rfl (by simp [andThen_last (takeMessage_put msg [])])

theorem deser (b : List Byte) : Statement (.deser b) := fun h => port rfl (lastVec h _)
theorem cenc (b : List Byte) : Statement (.cenc b) := fun h => port rfl (lastVec h _)
theorem cdec (b : List Byte) : Statement (.cdec b) := fun h => port rfl (lastVec h _)
theorem fwrite (b : List Byte) : Statement (.fwrite b) := fun h => port rfl (lastVec h _)
theorem fread : Statement .fread := fun _ => rfl

theorem msgtx (msg : Message) : Statement (.msgtx msg) := fun _ =>
  port rfl (by simp [andThen_last (takeMessage_put msg [])])

end Sys2Proof.Laws.RoundTrip
end

