-- ==== Sys2Proof/Laws/Registers.lean ====
section
/-! SUPPORT. Register fields: what `cma`, `getField` and `setField` do, bit by bit and as numbers. -/

namespace Sys2Proof.Machine

/-- R112: an index without a row. -/
theorem cma_none {idx : BitVec 5} (h : 23 < idx.toNat) : cma idx = .error (.illegalRequest (idx.setWidth 8)) := by
  have hl : cmaTable[idx.toNat]? = none := List.getElem?_eq_none (by simp only [cmaTable, List.length_cons, List.length_nil]; omega)
  rw [cma, hl]

/-- Every field of the table lies in its word. -/
theorem cma_bounds {idx : BitVec 5} {a : Byte} {o l : Nat} (h : cma idx = .ok (a, o, l)) : 1 ≤ l ∧ o + l ≤ 16 := by
  have key : ∀ i : BitVec 5, ∀ p ∈ (cma i).toOption, 1 ≤ p.2.2 ∧ p.2.1 + p.2.2 ≤ 16 := by decide
  exact key idx (a, o, l) (by rw [h]; rfl)

/-- R10: a field's value. -/
theorem toNat_getField (w : Word16) (o l : Nat) (h : o + l ≤ 16) :
    (getField w o l).toNat = w.toNat / 2 ^ o % 2 ^ l := by
  have hl : 2 ^ l ≤ 2 ^ 16 := Nat.pow_le_pow_right (by omega) (by omega)
  have hp : 0 < 2 ^ l := Nat.pow_pos (by omega)
  rw [getField, BitVec.toNat_and, BitVec.toNat_ushiftRight, BitVec.toNat_ofNat, Nat.mod_eq_of_lt (by omega),
    Nat.and_two_pow_sub_one_eq_mod, Nat.shiftRight_eq_div_pow]

theorem getLsbD_getField (w : Word16) (o l b : Nat) (h : o + l ≤ 16) :
    (getField w o l).getLsbD b = (decide (b < l) && w.getLsbD (o + b)) := by
  simp only [BitVec.getLsbD, toNat_getField w o l h, Nat.testBit_mod_two_pow, Nat.testBit_div_two_pow]
  rw [Nat.add_comm b o]

theorem getLsbD_fieldMask (o l b : Nat) (hb : b < 16) : (fieldMask o l).getLsbD b = decide (o ≤ b ∧ b < o + l) := by
  have hbit : ((2 ^ l - 1) <<< o).testBit b = decide (o ≤ b ∧ b < o + l) := by
    rw [Nat.testBit_shiftLeft, Nat.testBit_two_pow_sub_one]
    rw [Bool.eq_iff_iff]; simp only [Bool.and_eq_true, decide_eq_true_eq]; omega
  rw [fieldMask, BitVec.getLsbD_ofNat, hbit]
  simp [hb]

/-- R111: FSET replaces the bits of the field and keeps every other bit. -/
theorem getLsbD_setField (w v : Word16) (o l b : Nat) (hv : v.toNat < 2 ^ l) (hb : b < 16) :
    (setField w o l v).getLsbD b = if o ≤ b ∧ b < o + l then v.getLsbD (b - o) else w.getLsbD b := by
  have hhigh : ∀ k, l ≤ k → v.getLsbD k = false := fun k hk =>
    Nat.testBit_lt_two_pow (Nat.lt_of_lt_of_le hv (Nat.pow_le_pow_right (by omega) hk))
  rw [setField, BitVec.getLsbD_or, BitVec.getLsbD_and, BitVec.getLsbD_not, getLsbD_fieldMask o l b hb,
    BitVec.getLsbD_shiftLeft]
  by_cases h : o ≤ b ∧ b < o + l
  · simp [h, hb]
  · by_cases ho : o ≤ b
    · simp [hb, ho, hhigh (b - o) (by omega), Bool.and_comm]
    · simp [hb, ho]

/-- The round trip of R111. -/
theorem getField_setField (w v : Word16) (o l : Nat) (h : o + l ≤ 16) (hv : v.toNat < 2 ^ l) :
    getField (setField w o l v) o l = v := by
  apply BitVec.eq_of_getLsbD_eq
  intro b hb
  rw [getLsbD_getField _ _ _ _ h]
  by_cases hl : b < l
  · rw [getLsbD_setField w v o l _ hv (by omega)]
    simp [hl]
  · have : v.getLsbD b = false :=
      Nat.testBit_lt_two_pow (Nat.lt_of_lt_of_le hv (Nat.pow_le_pow_right (by omega) (by omega)))
    simp [hl, this]

/-- The one-bit encodes (R123, R124, R125). -/
theorem getLsbD_setBit (w : Word16) (o b : Nat) (x : Bool) (hb : b < 16) :
    (setBit w o x).getLsbD b = if b = o then x else w.getLsbD b := by
  rw [setBit, getLsbD_setField _ _ _ _ _ (by cases x <;> decide) hb]
  by_cases h : b = o
  · subst h; cases x <;> simp
  · rw [if_neg (by omega), if_neg h]

/-- R120: a resolution's code gives it back. -/
theorem resolutionCode_resolutionOf (k : BitVec 2) : resolutionCode (resolutionOf k) = k := by
  revert k; decide

end Sys2Proof.Machine
end

