-- ==== Sys2Proof/Tests/Slice0.lean ====
section
/-! SUPPORT. Tests: ill-formed terms refused, words written out from the spec's encodings, one step per instruction with
the values of 95_test_vectors.md, and a witness for the hypotheses of every obligation. -/

namespace Sys2Proof.Tests

open Sys2Proof.Machine

/-! ### Helpers -/

/-- The answer of a step or of a request. -/
def answerOf : Host.Outcome State Fault Refusal → Option Response
  | .next t => t.response
  | .fault _ => none
  | .refused _ => none

/-- What the sink holds after a step or a request. -/
def sinkOf : Host.Outcome State Fault Refusal → Option (List Byte)
  | .next t => some t.sink
  | .fault _ => none
  | .refused _ => none

/-- The answer to a request right after reset. -/
def ask (i : Instr) : Option Response := answerOf (exec i State.reset)

/-- The snapshot of 95_test_vectors.md P1, step 15. -/
def snapP1 : Snap := captureSnap 0x000C#16 0x0400#16 0x0080#16 0x1234#16

/-- A state with a snapshot and a sink that will take `k` bytes of the next offer. -/
def stateWith (p : Snap) (k : Nat) : State := { State.reset with snap := p, sinkTakes := [k] }

/-- A block of the source: the bytes, then 0x55 (95_test_vectors.md 2.9). -/
def block (bytes : List Byte) : Vector Byte 128 := Vector.ofFn fun i => bytes.getD i.val 0x55#8

/-- A state whose source will deliver one block. -/
def stateReading (bytes : List Byte) : State := { State.reset with source := [.block (block bytes)] }

/-- The placeholder parameters of 95_test_vectors.md: SENS 0.25, TEMP_SCALE 50.0, REF_OFFSET 25.0, no adjustment. -/
def placeholder : Config.ConvParams :=
  { sens := fun _ _ _ _ => 0x3E800000#32
    tempScale := 0x42480000#32
    refOffset := fun _ => 0x41C80000#32
    tcmpAdj := fun t _ => t }

/-- The Message of 95_test_vectors.md 1.6: x = 30.0, y = −12.5, z = 75.0, at (6.75, −2.25, 0.0). -/
def message16 : Message :=
  { field := { x := some 0x41F00000#32, y := some 0xC1480000#32, z := some 0x42960000#32, t := none }
    px := 0x40D80000#32
    py := 0xC0100000#32
    pz := 0x00000000#32 }

/-- The frame of 1.6. -/
def frame16 : List Byte :=
  [0x02#8, 0x01#8, 0x01#8, 0x04#8, 0xF0#8, 0x41#8, 0x01#8, 0x01#8, 0x04#8, 0x48#8, 0xC1#8, 0x01#8, 0x01#8, 0x03#8,
   0x96#8, 0x42#8, 0x01#8, 0x01#8, 0x03#8, 0xD8#8, 0x40#8, 0x01#8, 0x03#8, 0x10#8, 0xC0#8, 0x01#8, 0x01#8, 0x01#8,
   0x01#8, 0x00#8]

/-- The all-absent Message at (0, 0, 0). -/
def message0 : Message := ⟨⟨none, none, none, none⟩, 0#32, 0#32, 0#32⟩

/-- The frame of the all-absent Message: seventeen code bytes and the terminator (2.9). -/
def frame0 : List Byte := List.replicate 17 0x01#8 ++ [0x00#8]

/-! ### Well-formedness (R77, R81) -/

theorem test_wellFormed_refuses_rmdec : (Instr.rmdec 0#4 (List.replicate 256 0#8)).wellFormed = false := by decide +kernel
theorem test_wellFormed_refuses_rrdec : (Instr.rrdec (List.replicate 256 0#8)).wellFormed = false := by decide +kernel
theorem test_wellFormed_refuses_s1dec : (Instr.s1dec (List.replicate 256 0#8)).wellFormed = false := by decide +kernel
theorem test_wellFormed_refuses_deser : (Instr.deser (List.replicate 256 0#8)).wellFormed = false := by decide +kernel
theorem test_wellFormed_refuses_cenc : (Instr.cenc (List.replicate 256 0#8)).wellFormed = false := by decide +kernel
theorem test_wellFormed_refuses_cdec : (Instr.cdec (List.replicate 256 0#8)).wellFormed = false := by decide +kernel
theorem test_wellFormed_refuses_fwrite : (Instr.fwrite (List.replicate 256 0#8)).wellFormed = false := by decide +kernel
theorem test_wellFormed_accepts_255 : (Instr.fwrite (List.replicate 255 0#8)).wellFormed = true := by decide +kernel
theorem test_wellFormed_refuses_rr : (Instr.rr 0x40#8).wellFormed = false := by decide
theorem test_wellFormed_refuses_wr : (Instr.wr 0x40#8 0#16).wellFormed = false := by decide
theorem test_wellFormed_accepts_3F : (Instr.wr 0x3F#8 0xFFFF#16).wellFormed = true := by decide

/-! ### Words written out from the encodings: R85 to R88 for commands, R82 for requests -/

/-- Sources: R85 to R88 and the table of 95_test_vectors.md 1.1. -/
theorem test_decode_commands :
    decode ⟨.bus, [0x15#8]⟩ = .ok (.sb 0b0101#4) ∧ decode ⟨.bus, [0x2A#8]⟩ = .ok (.sw 0b1010#4) ∧
    decode ⟨.bus, [0x3E#8]⟩ = .ok (.sm 0b1110#4) ∧ decode ⟨.bus, [0x40#8]⟩ = .ok (.rm 0b0000#4) ∧
    decode ⟨.bus, [0x50#8, 0xFC#8]⟩ = .ok (.rr 0x3F#8) ∧
    decode ⟨.bus, [0x60#8, 0x12#8, 0x34#8, 0x0C#8]⟩ = .ok (.wr 0x03#8 0x1234#16) ∧
    decode ⟨.bus, [0x80#8]⟩ = .ok .ex ∧ decode ⟨.bus, [0xD0#8]⟩ = .ok .hr ∧ decode ⟨.bus, [0xE0#8]⟩ = .ok .hs ∧
    decode ⟨.bus, [0xF0#8]⟩ = .ok .rt := by decide

/-- Source: R82, ops 0x01 to 0x0C; words least significant byte first (assumption 3). -/
theorem test_decode_registers :
    decode ⟨.port, [0x01#8, 0x02#8, 0xC3#8, 0xA5#8, 0x0E#8]⟩ = .ok (.fget 0x02#8 0xA5C3#16 14#5) ∧
    decode ⟨.port, [0x02#8, 0x08#8, 0x01#8, 0x00#8, 0x17#8, 0x34#8, 0x12#8]⟩ =
      .ok (.fset 0x08#8 0x0001#16 23#5 0x1234#16) ∧
    decode ⟨.port, [0x03#8, 0x00#8, 0x70#8, 0x00#8]⟩ = .ok (.dgain 0x00#8 0x0070#16) ∧
    decode ⟨.port, [0x04#8, 0x01#8, 0x00#8, 0x04#8]⟩ = .ok (.dtcmp 0x01#8 0x0400#16) ∧
    decode ⟨.port, [0x05#8, 0x00#8, 0x0C#8, 0x00#8]⟩ = .ok (.dhall 0x00#8 0x000C#16) ∧
    decode ⟨.port, [0x06#8, 0x00#8, 0x80#8, 0x00#8]⟩ = .ok (.dzser 0x00#8 0x0080#16) ∧
    decode ⟨.port, [0x07#8, 0x00#8, 0x00#8, 0x01#8]⟩ = .ok (.dbist 0x00#8 0x0100#16) ∧
    decode ⟨.port, [0x08#8, 0x02#8, 0x80#8, 0x00#8]⟩ = .ok (.dres 0x02#8 0x0080#16) ∧
    decode ⟨.port, [0x09#8, 0x00#8, 0x0C#8, 0x00#8, 0x05#8]⟩ = .ok (.egain 0x00#8 0x000C#16 0x05#8) ∧
    decode ⟨.port, [0x0A#8, 0x01#8, 0x00#8, 0x00#8, 0x01#8]⟩ = .ok (.etcmp 0x01#8 0x0000#16 true) ∧
    decode ⟨.port, [0x0B#8, 0x00#8, 0x0C#8, 0x00#8, 0x01#8]⟩ = .ok (.ezser 0x00#8 0x000C#16 true) ∧
    decode ⟨.port, [0x0C#8, 0x00#8, 0xFF#8, 0xFF#8, 0x00#8]⟩ = .ok (.ebist 0x00#8 0xFFFF#16 false) := by decide

/-- Source: R82, ops 0x10 to 0x30. -/
theorem test_decode_snapshot_codec_conv :
    decode ⟨.port, [0x10#8, 0x0C#8, 0x00#8, 0x00#8, 0x04#8, 0x80#8, 0x00#8, 0x34#8, 0x12#8]⟩ =
      .ok (.snapcap 0x000C#16 0x0400#16 0x0080#16 0x1234#16) ∧
    decode ⟨.port, [0x11#8]⟩ = .ok .snapq ∧
    decode ⟨.port, [0x20#8, 0x30#8, 0x0E#8, 0x00#8, 0x00#8, 0x00#8]⟩ = .ok (.cmdenc 0x30#8 0b1110#4 0x00#8 0x0000#16) ∧
    decode ⟨.port, [0x21#8, 0x20#8]⟩ = .ok (.stdec 0x20#8) ∧
    decode ⟨.port, [0x22#8, 0x02#8, 0x03#8, 0x20#8, 0x00#8, 0x78#8]⟩ =
      .ok (.rmdec 0b0010#4 [0x20#8, 0x00#8, 0x78#8]) ∧
    decode ⟨.port, [0x23#8, 0x03#8, 0x00#8, 0x12#8, 0x34#8]⟩ = .ok (.rrdec [0x00#8, 0x12#8, 0x34#8]) ∧
    decode ⟨.port, [0x24#8, 0x01#8, 0x04#8]⟩ = .ok (.s1dec [0x04#8]) ∧
    decode ⟨.port, [0x30#8, 0x02#8, 0x20#8, 0x02#8, 0x00#8, 0x00#8, 0x78#8, 0x00#8, 0x00#8, 0x00#8, 0x00#8, 0x00#8]⟩ =
      .ok (.conv 0b0010#4 ⟨0x20#8, 0b0010#4, 0x0000#16, 0x0078#16, 0x0000#16, 0x0000#16⟩) := by decide

/-- The operand bytes of the all-present x, absent y, z, t Message at (1.0, 0, 0). -/
def messageBytes : List Byte :=
  [0x01#8, 0x00#8, 0x00#8, 0x00#8, 0xC6#8, 0x00#8, 0x00#8, 0x00#8, 0x00#8, 0x00#8, 0x00#8, 0x00#8, 0x00#8, 0x00#8,
   0x00#8, 0x00#8, 0x00#8, 0x00#8, 0x00#8, 0x00#8, 0x00#8, 0x00#8, 0x80#8, 0x3F#8, 0x00#8, 0x00#8, 0x00#8, 0x00#8,
   0x00#8, 0x00#8, 0x00#8, 0x00#8]

/-- Source: R82, ops 0x40 to 0x46. -/
theorem test_decode_framer :
    decode ⟨.port, 0x40#8 :: messageBytes⟩ =
      .ok (.ser ⟨⟨some 0xC6000000#32, none, none, none⟩, 0x3F800000#32, 0#32, 0#32⟩) ∧
    decode ⟨.port, [0x41#8, 0x02#8, 0x00#8, 0x01#8]⟩ = .ok (.deser [0x00#8, 0x01#8]) ∧
    decode ⟨.port, [0x42#8, 0x04#8, 0x11#8, 0x22#8, 0x00#8, 0x33#8]⟩ = .ok (.cenc [0x11#8, 0x22#8, 0x00#8, 0x33#8]) ∧
    decode ⟨.port, [0x43#8, 0x00#8]⟩ = .ok (.cdec []) ∧
    decode ⟨.port, [0x44#8, 0x01#8, 0xAA#8]⟩ = .ok (.fwrite [0xAA#8]) ∧
    decode ⟨.port, [0x45#8]⟩ = .ok .fread ∧
    decode ⟨.port, 0x46#8 :: messageBytes⟩ =
      .ok (.msgtx ⟨⟨some 0xC6000000#32, none, none, none⟩, 0x3F800000#32, 0#32, 0#32⟩) := by decide

/-- R82, R84: the assigned ops are the table's, and no others. -/
theorem test_assigned_ops : (List.range 256).filter (fun n => (portOperands n).isSome) =
    [0x01, 0x02, 0x03, 0x04, 0x05, 0x06, 0x07, 0x08, 0x09, 0x0A, 0x0B, 0x0C, 0x10, 0x11, 0x20, 0x21, 0x22, 0x23, 0x24,
     0x30, 0x40, 0x41, 0x42, 0x43, 0x44, 0x45, 0x46] := by decide

/-- What is no record: cut short, a bit above an operand's width, bytes after its end, low address bits set. -/
theorem test_decode_refuses :
    decode ⟨.port, [0x01#8, 0x02#8, 0x80#8]⟩ = .error .truncated ∧
    decode ⟨.port, [0x01#8, 0x02#8, 0x80#8, 0x01#8, 0x2E#8]⟩ = .error .paddingSet ∧
    decode ⟨.port, [0x11#8, 0x01#8]⟩ = .error .trailing ∧ decode ⟨.bus, [0x50#8, 0x09#8]⟩ = .error .addressLowBits ∧
    decode ⟨.bus, [0x51#8, 0x08#8]⟩ = .error (.unknownCommand 0x51#8) := by decide

/-- Words of spec/opcode_table.json, as the host gives them. -/
theorem test_table_words :
    decodeTableWord 8 0x01 = some (.fget 0#8 0#16 0#5) ∧ decodeTableWord 8 0x10 = some (.snapcap 0#16 0#16 0#16 0#16) ∧
    decodeTableWord 8 0x12 = some (.sb 0b0010#4) ∧ decodeTableWord 8 0x50 = some (.rr 0#8) ∧
    decodeTableWord 8 0x60 = some (.wr 0#8 0#16) ∧ decodeTableWord 8 0xF0 = some .rt ∧
    decodeTableWord 16 0x0443 = some (.cdec [0#8, 0#8, 0#8, 0#8]) ∧ decodeTableWord 8 0x47 = some (.rm 0b0111#4) ∧
    decodeTableWord 8 0x70 = none := by decide

theorem test_step_runs_table_word :
    answerOf (step (State.reset.withFetchWord 8 0xD0)) = some (.ok (.frame ⟨1#8, 0xD0#8, 0#8, 0#8, 0#8, 1#8⟩)) ∧
    answerOf (step (State.reset.withFetchWord 8 0x11)) = some (.ok (.snapshot zeroSnap)) := by decide

/-! ### Register decoder: 95_test_vectors.md 1.3, 1.4, 2.1, and the examples of 41_register_decoder.md -/

theorem test_fget : ask (.fget 0x02#8 0xA5C3#16 14#5) = some (.ok (.value 3#16)) := by decide
theorem test_fget_mismatch : ask (.fget 0x01#8 0xA5C3#16 14#5) = some (.fault (.accessorMismatch 0x01#8)) := by decide
theorem test_fset : ask (.fset 0x02#8 0xA5C3#16 14#5 0#16) = some (.ok (.word 0xA443#16)) := by decide
theorem test_fset_range : ask (.fset 0x02#8 0x0000#16 14#5 4#16) = some (.fault (.fieldRange 14#5)) := by decide
theorem test_dgain : ask (.dgain 0x00#8 0x0070#16) = some (.ok (.gain 7#3)) := by decide
theorem test_dgain_others : ask (.dgain 0x00#8 0x008F#16) = some (.ok (.gain 0#3)) := by decide
theorem test_dtcmp : ask (.dtcmp 0x01#8 0x0400#16) = some (.ok (.flag true)) := by decide
theorem test_dtcmp_low : ask (.dtcmp 0x01#8 0x0004#16) = some (.ok (.flag false)) := by decide
theorem test_dhall : ask (.dhall 0x00#8 0x000C#16) = some (.ok (.hall (some .fourPhase))) := by decide
theorem test_dhall_absent : ask (.dhall 0x00#8 0x0008#16) = some (.ok (.hall none)) := by decide
theorem test_dzser : ask (.dzser 0x00#8 0x0080#16) = some (.ok (.flag true)) := by decide
theorem test_dbist : ask (.dbist 0x00#8 0x0100#16) = some (.ok (.flag true)) := by decide
theorem test_dres_y17 : ask (.dres 0x02#8 0x0080#16) = some (.ok (.resolutions .res19 .res17 .res19)) := by decide
theorem test_dres_y18 : ask (.dres 0x02#8 0x0100#16) = some (.ok (.resolutions .res19 .res18 .res19)) := by decide
theorem test_egain : ask (.egain 0x00#8 0xFFFF#16 2#8) = some (.ok (.word 0xFFAF#16)) := by decide
theorem test_egain_range : ask (.egain 0x00#8 0x0000#16 8#8) = some (.fault (.fieldRange 1#5)) := by decide
theorem test_etcmp : ask (.etcmp 0x01#8 0xFFFF#16 false) = some (.ok (.word 0xFBFF#16)) := by decide
theorem test_ezser : ask (.ezser 0x00#8 0x000C#16 true) = some (.ok (.word 0x008C#16)) := by decide
theorem test_ebist : ask (.ebist 0x00#8 0xFFFF#16 false) = some (.ok (.word 0xFEFF#16)) := by decide

/-- P1, steps 15 and 16. -/
theorem test_snapcap : snapP1 = ⟨true, true, 0#3, some .fourPhase, true, .res19, .res17, .res19, 0x1234#16⟩ ∧
    ask (.snapcap 0x000C#16 0x0400#16 0x0080#16 0x1234#16) = some (.ok (.flag true)) := by decide

/-- P3, step 10. -/
theorem test_snapcap_invalid : ask (.snapcap 0x0058#16 0x0400#16 0x0080#16 0x1234#16) = some (.ok (.flag false)) := by decide

/-- P1, steps 1 and 16. -/
theorem test_snapq : ask .snapq = some (.ok (.snapshot zeroSnap)) ∧
    answerOf (exec .snapq (stateWith snapP1 0)) = some (.ok (.snapshot snapP1)) := by decide

/-! ### Command codec: 95_test_vectors.md 1.1, P1, P2, P3 -/

theorem test_sb : ask (.sb 0b1101#4) = some (.ok (.frame ⟨1#8, 0x1D#8, 0#8, 0#8, 0#8, 1#8⟩)) := by decide
theorem test_sw : ask (.sw 0b0111#4) = some (.ok (.frame ⟨1#8, 0x27#8, 0#8, 0#8, 0#8, 1#8⟩)) := by decide
theorem test_sm : ask (.sm 0b1110#4) = some (.ok (.frame ⟨1#8, 0x3E#8, 0#8, 0#8, 0#8, 1#8⟩)) := by decide
theorem test_rm : ask (.rm 0b1110#4) = some (.ok (.frame ⟨1#8, 0x4E#8, 0#8, 0#8, 0#8, 7#8⟩)) := by decide
theorem test_rm_none : ask (.rm 0b0000#4) = some (.ok (.frame ⟨1#8, 0x40#8, 0#8, 0#8, 0#8, 1#8⟩)) := by decide
theorem test_rr : ask (.rr 0x02#8) = some (.ok (.frame ⟨2#8, 0x50#8, 0x08#8, 0#8, 0#8, 3#8⟩)) := by decide
theorem test_rr_range : ask (.rr 0x40#8) = some (.fault (.addressRange 0x40#8)) := by decide
theorem test_wr : ask (.wr 0x00#8 0x005C#16) = some (.ok (.frame ⟨4#8, 0x60#8, 0x00#8, 0x5C#8, 0x00#8, 1#8⟩)) := by decide
theorem test_ex : ask .ex = some (.ok (.frame ⟨1#8, 0x80#8, 0#8, 0#8, 0#8, 1#8⟩)) := by decide
theorem test_hr : ask .hr = some (.ok (.frame ⟨1#8, 0xD0#8, 0#8, 0#8, 0#8, 1#8⟩)) := by decide
theorem test_hs : ask .hs = some (.ok (.frame ⟨1#8, 0xE0#8, 0#8, 0#8, 0#8, 1#8⟩)) := by decide
theorem test_rt : ask .rt = some (.ok (.frame ⟨1#8, 0xF0#8, 0#8, 0#8, 0#8, 1#8⟩)) := by decide
theorem test_cmdenc : ask (.cmdenc 0x60#8 0xF#4 0x02#8 0x0180#16) =
    some (.ok (.frame ⟨4#8, 0x60#8, 0x01#8, 0x80#8, 0x08#8, 1#8⟩)) := by decide
theorem test_cmdenc_unknown : ask (.cmdenc 0x51#8 0#4 0#8 0#16) = some (.fault (.illegalRequest 0x51#8)) := by decide
theorem test_stdec : ask (.stdec 0x26#8) =
    some (.ok (.status ⟨false, false, true, false, false, true, 2#2⟩)) := by decide

/-- P2, step 4. -/
theorem test_rmdec : ask (.rmdec 0b1110#4 [0x20#8, 0x00#8, 0x78#8, 0xFF#8, 0xCE#8, 0x01#8, 0x2C#8]) =
    some (.ok (.sample ⟨0x20#8, 0b1110#4, 0x0000#16, 0x0078#16, 0xFFCE#16, 0x012C#16⟩)) := by decide
theorem test_rmdec_length : ask (.rmdec 0b0001#4 [0x20#8, 0x00#8]) = some (.fault (.responseLengthMismatch 2)) := by decide

/-- P1, step 14. -/
theorem test_rrdec : ask (.rrdec [0x00#8, 0x12#8, 0x34#8]) =
    some (.ok (.register ⟨false, false, false, false, false, false, 0#2⟩ 0x1234#16)) := by decide
theorem test_s1dec : ask (.s1dec [0x04#8]) =
    some (.ok (.status ⟨false, false, false, false, false, true, 0#2⟩)) := by decide

/-! ### Converter: 95_test_vectors.md 1.6 and P1, step 2, with the placeholder parameters -/

/-- P2, step 5. -/
theorem test_conv : convert placeholder (captureSnap 0#16 0#16 0#16 0#16) 0b1110#4
      ⟨0x20#8, 0b1110#4, 0x0000#16, 0x0078#16, 0xFFCE#16, 0x012C#16⟩ = .ok message16.field := by decide +kernel

/-- A temperature of 100 counts: 25.0 + 100 / 50.0 = 27.0 °C. -/
theorem test_conv_temp : convert placeholder snapP1 0b0001#4
      ⟨0x00#8, 0b0001#4, 0x0064#16, 0x0000#16, 0x0000#16, 0x0000#16⟩ =
    .ok ⟨none, none, none, some 0x41D80000#32⟩ := by decide +kernel

/-! ### Wire framer: 95_test_vectors.md 1.6, 2.7, 2.8, 2.9 -/

theorem test_ser : ask (.ser message16) = some (.ok (.bytes
    [0x01#8, 0x00#8, 0x00#8, 0xF0#8, 0x41#8, 0x01#8, 0x00#8, 0x00#8, 0x48#8, 0xC1#8, 0x01#8, 0x00#8, 0x00#8, 0x96#8,
     0x42#8, 0x00#8, 0x00#8, 0x00#8, 0xD8#8, 0x40#8, 0x00#8, 0x00#8, 0x10#8, 0xC0#8, 0x00#8, 0x00#8, 0x00#8, 0x00#8])) := by
  decide

/-- Trailing AA BB is ignored (R246). -/
theorem test_deser : ask (.deser (List.replicate 16 0x00#8 ++ [0xAA#8, 0xBB#8])) = some (.ok (.message message0)) := by
  decide +kernel
theorem test_deser_tag : ask (.deser (0x02#8 :: List.replicate 15 0x00#8)) =
    some (.fault (.payloadDecodeFailure .badOptionTag)) := by decide +kernel
theorem test_cenc : ask (.cenc [0x11#8, 0x22#8, 0x00#8, 0x33#8]) =
    some (.ok (.bytes [0x03#8, 0x11#8, 0x22#8, 0x02#8, 0x33#8, 0x00#8])) := by decide
theorem test_cenc_long : ask (.cenc (List.replicate 63 0x01#8)) = some (.fault (.frameEncodeFailure 65)) := by decide +kernel
theorem test_cdec : ask (.cdec [0x03#8, 0x11#8, 0x22#8, 0x02#8, 0x33#8]) =
    some (.ok (.bytes [0x11#8, 0x22#8, 0x00#8, 0x33#8])) := by decide
theorem test_cdec_zero : ask (.cdec [0x02#8, 0x05#8, 0x00#8, 0x01#8]) = some (.fault (.frameDecodeFailure 2)) := by decide

/-- 2.9: the sink takes 4 of 6 bytes, and they stay. -/
theorem test_fwrite_partial :
    answerOf (exec (.fwrite [0x03#8, 0x11#8, 0x22#8, 0x02#8, 0x33#8, 0x00#8]) (stateWith snapP1 4)) =
      some (.fault (.transportWriteFailure 4)) ∧
    sinkOf (exec (.fwrite [0x03#8, 0x11#8, 0x22#8, 0x02#8, 0x33#8, 0x00#8]) (stateWith snapP1 4)) =
      some [0x03#8, 0x11#8, 0x22#8, 0x02#8] := by decide

/-- P2, step 6. -/
theorem test_msgtx :
    answerOf (exec (.msgtx message16) (stateWith snapP1 128)) = some (.ok (.written 30#8)) ∧
    sinkOf (exec (.msgtx message16) (stateWith snapP1 128)) = some frame16 := by decide

/-- 2.9, block B1. -/
theorem test_fread : answerOf (exec .fread (stateReading ([0xAA#8, 0xBB#8, 0x00#8] ++ frame16))) =
    some (.ok (.message message16)) := by decide +kernel

/-- 2.9, block B2. -/
theorem test_fread_lost : answerOf (exec .fread (stateReading frame16)) = some (.fault (.frameDecodeFailure 85)) := by
  decide +kernel

/-! ### Sequences and written requests -/

/-- R94: RESET_SEQ is EX, then RT. -/
theorem test_resetSeq : resetSeq.map ask =
    [some (.ok (.frame ⟨1#8, 0x80#8, 0#8, 0#8, 0#8, 1#8⟩)), some (.ok (.frame ⟨1#8, 0xF0#8, 0#8, 0#8, 0#8, 1#8⟩))] := by
  decide

/-- The examples of R110 and R111. -/
theorem test_assemble :
    assemble "FGET" [.number 0x02, .number 0x0180, .field "ResY"] = some (.fget 0x02#8 0x0180#16 14#5) ∧
    assemble "FSET" [.number 0x02, .number 0x0000, .field "ResY", .number 3] = some (.fset 0x02#8 0#16 14#5 3#16) := by
  decide

/-! ### Witnesses: states and operands that meet the hypotheses of the obligations -/

/-- A state at whose port one stimulus waits. -/
def presenting (x : Stimulus) : State := State.reset.place x

theorem witness_StepRunsTheDecodedRequest :
    (presenting (.record ⟨.port, [0x11#8]⟩)).inbox = [.record ⟨.port, [0x11#8]⟩] ∧
    decode ⟨.port, [0x11#8]⟩ = .ok .snapq ∧ Instr.snapq.wellFormed = true := by decide

/-- Every range of R84, at both ends. -/
theorem witness_UnassignedOpsFaultIllegalRequest :
    (∀ op ∈ [0x00#8, 0x0D#8, 0x0F#8, 0x12#8, 0x1F#8, 0x25#8, 0x2F#8, 0x31#8, 0x3F#8, 0x47#8, 0xFF#8],
      (op.toNat = 0 ∨ (0x0D ≤ op.toNat ∧ op.toNat ≤ 0x0F) ∨ (0x12 ≤ op.toNat ∧ op.toNat ≤ 0x1F) ∨
        (0x25 ≤ op.toNat ∧ op.toNat ≤ 0x2F) ∨ (0x31 ≤ op.toNat ∧ op.toNat ≤ 0x3F) ∨ 0x47 ≤ op.toNat) ∧
      (presenting (.record ⟨.port, [op]⟩)).inbox = [.record ⟨.port, [op]⟩] ∧
      answerOf (step (presenting (.record ⟨.port, [op]⟩))) = some (.fault (.illegalRequest op))) := by decide

theorem witness_UnknownCommandBytesFaultIllegalRequest :
    (∀ c ∈ [0x00#8, 0x0F#8, 0x70#8, 0x9F#8, 0xC0#8, 0x51#8, 0xFF#8],
      (c.toNat / 16 ∈ [0x0, 0x7, 0x9, 0xA, 0xB, 0xC] ∨
        (c.toNat / 16 ∈ [0x5, 0x6, 0x8, 0xD, 0xE, 0xF] ∧ c.toNat % 16 ≠ 0)) ∧
      answerOf (step (presenting (.record ⟨.bus, [c]⟩))) = some (.fault (.illegalRequest c))) := by decide

theorem witness_ResetClearsCapturedAndHidesTheRest :
    (presenting .reset).inbox = [.reset] ∧ State.reset.snap.captured = false ∧
    ({ snapP1 with captured := false } : Snap).captured = false ∧ State.reset.snap ≠ { snapP1 with captured := false } ∧
    (∃ t, exec .rt State.reset = .next t) := ⟨rfl, rfl, rfl, by decide, _, rfl⟩

theorem witness_RunsServeEveryStimulus :
    (presenting .reset).wellPosed = true ∧ (presenting (.record ⟨.port, [0x11#8]⟩)).wellPosed = true ∧
    (∀ i ∈ resetSeq, i.wellFormed = true) := by decide

/-- A step that captures, and one that reads a block. -/
theorem witness_StepKeepsTheInvariant :
    (presenting (.record ⟨.port, [0x11#8]⟩)).Inv ∧ (stateWith snapP1 0).Inv ∧
    (∃ t, step (presenting (.record ⟨.port, [0x11#8]⟩)) = .next t) := ⟨by decide, by decide, _, rfl⟩

theorem witness_OnlySnapcapAndResetWriteSnap :
    (∃ t, exec (.snapcap 0#16 0#16 0#16 0#16) State.reset = .next t ∧ t.snap ≠ State.reset.snap) ∧
    (∃ t, step ((stateWith snapP1 0).place .reset) = .next t ∧ t.snap ≠ snapP1) := by
  refine ⟨⟨_, rfl, by decide⟩, _, rfl, fun h => ?_⟩
  have := congrArg Snap.captured h
  exact absurd this (by decide)

/-- A fault without effect, a refused offer, a consumed block. -/
theorem witness_FaultedRequestsWriteNoState :
    answerOf (exec (.cdec []) State.reset) = some (.fault (.frameDecodeFailure 0)) ∧
    answerOf (exec (.fwrite [0x01#8]) (stateWith snapP1 0)) = some (.fault (.transportWriteFailure 0)) ∧
    answerOf (exec .fread (stateReading [])) = some (.fault (.transportReadFailure .noSecondChunk)) := by
  decide +kernel

theorem witness_OtherOperationsArePure :
    (∀ b, Instr.snapq ≠ .fwrite b) ∧ (∀ m, Instr.snapq ≠ .msgtx m) ∧ Instr.snapq ≠ .fread ∧
    (∀ w0 w1 w2 tref, Instr.snapq ≠ .snapcap w0 w1 w2 tref) ∧ (stateWith snapP1 3).snap = (stateWith snapP1 5).snap :=
  ⟨fun _ h => (by cases h), fun _ h => (by cases h), by decide, fun _ _ _ _ h => (by cases h), rfl⟩

theorem witness_EffectsKeepRequestOrder : ∃ t, step (presenting (.record ⟨.port, [0x45#8]⟩)) = .next t := ⟨_, rfl⟩

theorem witness_ReservedFaultCodesAreNeverAnswered :
    (∃ t, exec .snapq State.reset = .next t ∧ t.response = some (.ok (.snapshot zeroSnap))) := ⟨_, rfl, rfl⟩

/-- Indices 24 and 31 have no row; 0 and 23 have one; field numbers at the ends of the table. -/
theorem witness_CmaTableIsTheSpecsTable : 23 < (24#5).toNat ∧ 23 < (31#5).toNat ∧ 0 < 24 ∧ 23 < 24 := by decide

theorem witness_CmaFieldsCoverTheRegistersOnce :
    cma 0#5 = .ok (0x00#8, 0, 4) ∧ cma 1#5 = .ok (0x00#8, 4, 3) ∧ (0#5) ≠ 1#5 ∧ (0x00#8).toNat ≤ 8 ∧ (0x08#8).toNat ≤ 8 ∧
    cma 23#5 = .ok (0x08#8, 0, 16) := by decide

/-- No row; the wrong address; the right one. -/
theorem witness_FgetReturnsTheField :
    23 < (24#5).toNat ∧ cma 23#5 = .ok (0x08#8, 0, 16) ∧ 0x07#8 ≠ 0x08#8 ∧ cma 0#5 = .ok (0x00#8, 0, 4) := by decide

/-- The largest value that fits and the smallest that does not. -/
theorem witness_FsetReplacesTheField :
    23 < (24#5).toNat ∧ cma 14#5 = .ok (0x02#8, 7, 2) ∧ 0x01#8 ≠ 0x02#8 ∧ 2 ^ 2 ≤ (4#16).toNat ∧ (3#16).toNat < 2 ^ 2 ∧
    cma 19#5 = .ok (0x04#8, 0, 16) ∧ (0xFFFF#16).toNat < 2 ^ 16 := by decide

theorem witness_TypedDecodesReadTheirBits : 0x01#8 ≠ 0x00#8 ∧ 0x00#8 ≠ 0x01#8 := by decide

/-- The two patterns that decode, and their neighbours. -/
theorem witness_DhallDecodesTwoPatterns :
    0x01#8 ≠ 0x00#8 ∧ (0xFFF0#16).toNat % 16 = 0b0000 ∧ (0x000C#16).toNat % 16 = 0b1100 ∧
    (0x0001#16).toNat % 16 ≠ 0b0000 ∧ (0x0001#16).toNat % 16 ≠ 0b1100 ∧ (0x000D#16).toNat % 16 ≠ 0b0000 ∧
    (0x000D#16).toNat % 16 ≠ 0b1100 := by decide

theorem witness_DresReadsTheResolutionCodes : 0x01#8 ≠ 0x02#8 := by decide

theorem witness_ResYRawFieldIsTheCodeSwapped :
    Returns (.fget 0x02#8 0x0100#16 14#5) State.reset (.value 2#16) ∧
    Returns (.dres 0x02#8 0x0100#16) State.reset (.resolutions .res19 .res18 .res19) := ⟨rfl, rfl⟩

theorem witness_EgainWritesTheGainBits : 0x01#8 ≠ 0x00#8 ∧ 7 < (8#8).toNat ∧ (7#8).toNat ≤ 7 := by decide

theorem witness_BitEncodesWriteOneBit : 0x00#8 ≠ 0x01#8 ∧ 0x01#8 ≠ 0x00#8 ∧ 15 < 16 := by decide

theorem witness_SnapqShowsTheSnapshot :
    State.reset.snap.captured = false ∧ (stateWith snapP1 0).snap.captured = true := by decide

theorem witness_RegisterCommandFrames : (0x3F#8).toNat ≤ 0x3F ∧ 0x3F < (0x40#8).toNat := by decide

theorem witness_CmdencDispatchesOnTheBase :
    ((0x50#8).toNat ∈ [0x50, 0x60] → (0x3F#8).toNat ≤ 0x3F) ∧
    (∀ base ∈ [0x00#8, 0x11#8, 0x51#8, 0x70#8, 0xFF#8],
      base ∉ [0x10#8, 0x20#8, 0x30#8, 0x40#8, 0x50#8, 0x60#8, 0x80#8, 0xD0#8, 0xE0#8, 0xF0#8]) := by decide

theorem witness_ProducedCommandBytes :
    Returns (.wr 0x02#8 0x0180#16) State.reset (.frame ⟨4#8, 0x60#8, 0x01#8, 0x80#8, 0x08#8, 1#8⟩) ∧
    Returns (.rr 0x3F#8) State.reset (.frame ⟨2#8, 0x50#8, 0xFC#8, 0#8, 0#8, 3#8⟩) ∧
    Returns .ex State.reset (.frame ⟨1#8, 0x80#8, 0#8, 0#8, 0#8, 1#8⟩) := ⟨rfl, rfl, rfl⟩

theorem witness_ProducedFramesDecodeToTheirCommand :
    (encode (.wr 0x02#8 0x0180#16)).space = .bus ∧ (Instr.wr 0x02#8 0x0180#16).wellFormed = true ∧
    Returns (.wr 0x02#8 0x0180#16) State.reset (.frame ⟨4#8, 0x60#8, 0x01#8, 0x80#8, 0x08#8, 1#8⟩) :=
  ⟨rfl, rfl, rfl⟩

/-- No channel, one and all four; a channel that is enabled and one that is not. -/
theorem witness_RmdecPlacesTheChannelWords :
    ([0x20#8] : List Byte).length = 1 + 2 * popcount 0b0000#4 ∧
    ([0x20#8, 0x00#8, 0x78#8] : List Byte).length = 1 + 2 * popcount 0b1000#4 ∧
    (List.replicate 9 0x00#8).length = 1 + 2 * popcount 0b1111#4 ∧
    ([] : List Byte).length ≠ 1 + 2 * popcount 0b0000#4 ∧ hasChannel 0b1000#4 .z = true ∧
    hasChannel 0b1000#4 .temp = false := by decide

theorem witness_RegisterResponsesDecode :
    ([0x00#8, 0x00#8] : List Byte).length ≠ 3 ∧ ([] : List Byte).length ≠ 1 := by decide

theorem witness_NoFaultDependsOnTheStatusByte :
    Raises (.rmdec 0b0001#4 [0x10#8]) State.reset (.responseLengthMismatch 1) ∧
    Raises (.rrdec [0x10#8]) State.reset (.responseLengthMismatch 1) ∧
    Raises (.s1dec [0x10#8, 0x00#8]) State.reset (.responseLengthMismatch 2) := ⟨rfl, rfl, rfl⟩

/-- Nothing captured; an invalid capture; a valid one with another presence mask. -/
theorem witness_ConvFaultsInOrder :
    State.reset.snap.captured = false ∧ (captureSnap 0x0058#16 0#16 0#16 0#16).captured = true ∧
    (captureSnap 0x0058#16 0#16 0#16 0#16).valid = false ∧ snapP1.captured = true ∧ snapP1.valid = true ∧
    0b1110#4 ≠ 0b0110#4 := by decide

theorem witness_ConvReturnsTheRequestedValues :
    (stateWith snapP1 0).snap.captured = true ∧ (stateWith snapP1 0).snap.valid = true ∧
    (stateWith snapP1 0).snap.hall = some .fourPhase ∧
    (RawSample.mk 0x20#8 0b1111#4 0#16 0#16 0#16 0#16).present = 0b1111#4 := by decide

theorem witness_F32OfSmallIntegersIsExact :
    (2 ^ 24 : Int).natAbs ≤ 2 ^ 24 ∧ (-32768 : Int).natAbs ≤ 2 ^ 24 := by decide

/-- A finite sensitivity, an infinite one and a NaN. -/
theorem witness_RawZeroGivesZeroOrNaN :
    isFinite (placeholder.sens 0#3 .res19 .twoPhase .x) = true ∧ isFinite 0x7F800000#32 = false ∧
    isFinite 0x7FC00001#32 = false := by decide

/-- A quiet and a signalling NaN, infinities of both signs, a zero, a finite value, a NaN from `SENS` and one from
`REF_OFFSET`. -/
theorem witness_InfinitiesAndNaNsPropagate :
    isNaN 0x7FC00001#32 = true ∧ isNaN 0x7F800001#32 = true ∧ isInf 0x7F800000#32 = true ∧ isInf 0xFF800000#32 = true ∧
    isZero 0x80000000#32 = true ∧ signBit 0x7F800000#32 ≠ signBit 0xFF800000#32 ∧ isFinite 0x3F800000#32 = true ∧
    isZero 0x3F800000#32 = false ∧ isNaN 0x3F800000#32 = false ∧
    isNaN (({ placeholder with sens := fun _ _ _ _ => 0x7F800001#32 } : Config.ConvParams).sens 0#3 .res19 .twoPhase .x)
      = true ∧
    isNaN (({ placeholder with refOffset := fun _ => 0xFFC00002#32 } : Config.ConvParams).refOffset 0#16) = true ∧
    isFinite placeholder.tempScale = true ∧ isZero placeholder.tempScale = false := by decide

/-- The exact values the rounding witnesses use: 1, 2, the largest finite value, half its last place, and 1/2. -/
theorem value32_one : value32 0x3F800000#32 = 1 := by
  rw [value32, show signBit 0x3F800000#32 = false by decide, show mant 0x3F800000#32 = 2 ^ 23 by decide,
    show exponent 0x3F800000#32 = -23 by decide]
  norm_num

theorem value32_two : value32 0x40000000#32 = 2 := by
  rw [value32, show signBit 0x40000000#32 = false by decide, show mant 0x40000000#32 = 2 ^ 23 by decide,
    show exponent 0x40000000#32 = -22 by decide]
  norm_num

theorem value32_largest : value32 0x7F7FFFFF#32 = 2 ^ 128 - 2 ^ 104 := by
  rw [value32, show signBit 0x7F7FFFFF#32 = false by decide, show mant 0x7F7FFFFF#32 = 2 ^ 24 - 1 by decide,
    show exponent 0x7F7FFFFF#32 = 104 by decide]
  norm_num

theorem value32_halfUlp : value32 0x73000000#32 = 2 ^ 103 := by
  rw [value32, show signBit 0x73000000#32 = false by decide, show mant 0x73000000#32 = 2 ^ 23 by decide,
    show exponent 0x73000000#32 = 80 by decide]
  norm_num

theorem value32_half : value32 0x3F000000#32 = 1 / 2 := by
  rw [value32, show signBit 0x3F000000#32 = false by decide, show mant 0x3F000000#32 = 2 ^ 23 by decide,
    show exponent 0x3F000000#32 = -24 by decide]
  norm_num

/-- The largest finite value by 1 stays below the bound, by 2 it is above. -/
theorem witness_ProductsAreRoundedToNearestEven :
    isFinite 0x7F7FFFFF#32 = true ∧ isFinite 0x3F800000#32 = true ∧ isFinite 0x40000000#32 = true ∧
    |value32 0x7F7FFFFF#32 * value32 0x3F800000#32| < 2 ^ 128 - 2 ^ 103 ∧
    2 ^ 128 - 2 ^ 103 ≤ |value32 0x7F7FFFFF#32 * value32 0x40000000#32| := by
  rw [value32_largest, value32_one, value32_two]
  exact ⟨by decide, by decide, by decide, by norm_num [abs_of_pos], by norm_num [abs_of_pos]⟩

/-- An exact zero sum; the largest finite value plus half its last place is the bound itself; plus 1 it is below. -/
theorem witness_SumsAreRoundedToNearestEven :
    isFinite 0x7F7FFFFF#32 = true ∧ isFinite 0x73000000#32 = true ∧ isFinite 0x3F800000#32 = true ∧
    isFinite 0x80000000#32 = true ∧ value32 0x80000000#32 + value32 0x80000000#32 = 0 ∧
    value32 0x7F7FFFFF#32 + value32 0x3F800000#32 ≠ 0 ∧
    |value32 0x7F7FFFFF#32 + value32 0x3F800000#32| < 2 ^ 128 - 2 ^ 103 ∧
    2 ^ 128 - 2 ^ 103 ≤ |value32 0x7F7FFFFF#32 + value32 0x73000000#32| := by
  have hzero : value32 0x80000000#32 = 0 := by rw [value32, show mant 0x80000000#32 = 0 by decide]; simp
  rw [value32_largest, value32_one, value32_halfUlp, hzero]
  exact ⟨by decide, by decide, by decide, by decide, by norm_num, by norm_num, by norm_num [abs_of_pos],
    by norm_num [abs_of_pos]⟩

/-- The largest finite value by 2 stays below the bound, by a half it is above. -/
theorem witness_QuotientsAreRoundedToNearestEven :
    isFinite 0x7F7FFFFF#32 = true ∧ isFinite 0x40000000#32 = true ∧ isZero 0x40000000#32 = false ∧
    isFinite 0x3F000000#32 = true ∧ isZero 0x3F000000#32 = false ∧
    |value32 0x7F7FFFFF#32 / value32 0x40000000#32| < 2 ^ 128 - 2 ^ 103 ∧
    2 ^ 128 - 2 ^ 103 ≤ |value32 0x7F7FFFFF#32 / value32 0x3F000000#32| := by
  rw [value32_largest, value32_two, value32_half]
  exact ⟨by decide, by decide, by decide, by decide, by decide, by norm_num [abs_of_pos], by norm_num [abs_of_pos]⟩

/-- IEEE 754 overflow, from outside the model: the largest finite value plus half its last place is an infinity, and
plus anything less stays. -/
theorem test_add_overflow :
    add32 0x7F7FFFFF#32 0x73000000#32 = 0x7F800000#32 ∧ add32 0x7F7FFFFF#32 0x72FFFFFF#32 = 0x7F7FFFFF#32 := by decide

/-- A payload, a cut of it, a bad tag after three optional values. -/
theorem witness_DeserFaultsOnCutOrBadPayloads :
    Returns (.ser message0) State.reset (.bytes (List.replicate 16 0x00#8)) ∧ 15 < (List.replicate 16 0x00#8).length ∧
    ([none, none, none] : List (Option F32)).length < 4 ∧ 2 ≤ (0x02#8).toNat ∧
    Returns (.deser (List.replicate 16 0x00#8)) State.reset (.message message0) := ⟨rfl, by decide, by decide, by decide, rfl⟩

/-- The longest frame that fits, and one byte more. -/
theorem witness_CencTerminatesOrFaults :
    (cobs (List.replicate 62 0x01#8)).length + 1 ≤ 64 ∧ 64 < (cobs (List.replicate 63 0x01#8)).length + 1 := by
  decide +kernel

theorem witness_CobsReplacesZerosByDistances :
    (∀ b ∈ List.replicate 253 0x01#8, b ≠ 0#8) ∧ (List.replicate 253 0x01#8).length < 254 ∧
    (∀ b ∈ List.replicate 254 0x01#8, b ≠ 0#8) ∧ (List.replicate 254 0x01#8).length = 254 := by
  refine ⟨fun b h => ?_, by rw [List.length_replicate]; decide, fun b h => ?_, List.length_replicate⟩ <;> rw [List.eq_of_mem_replicate h] <;> decide

theorem witness_CobsHasNoZeroAndBoundedOverhead :
    Returns (.cenc [0x00#8]) State.reset (.bytes [0x01#8, 0x01#8, 0x00#8]) := rfl

theorem witness_CdecInvertsCenc : (cobs (List.replicate 62 0x01#8)).length + 1 ≤ 64 := by decide +kernel

/-- A code byte 0; one past the end by one byte; one that ends the chunk; one with a block after it. -/
theorem witness_CdecDecodesBlockByBlock :
    ([0x01#8] : List Byte).length + 1 < (0x03#8).toNat ∧ ([0x01#8] : List Byte).length + 1 = (0x02#8).toNat ∧
    (0x01#8).toNat < ([0x01#8] : List Byte).length + 1 ∧ 0x01#8 ≠ 0x00#8 ∧
    Returns (.cdec ([0x01#8].drop ((0x01#8).toNat - 1))) State.reset (.bytes []) ∧
    Raises (.cdec ([0x00#8].drop ((0x01#8).toNat - 1))) State.reset (.frameDecodeFailure 0) :=
  ⟨by decide, by decide, by decide, by decide, rfl, rfl⟩

/-- All of a frame, all but one byte, no scripted choice. -/
theorem witness_FwriteEmitsWhatTheSinkTakes :
    (stateWith snapP1 30).sinkTakes = [30] ∧ frame16.length ≤ 30 ∧ (stateWith snapP1 29).sinkTakes = [29] ∧
    29 < frame16.length ∧ State.reset.sinkTakes = [] := by decide

theorem witness_MsgtxSerializesFramesAndWrites :
    (stateWith snapP1 30).sinkTakes = [30] ∧ frame16.length ≤ 30 ∧
    answerOf (exec (.fwrite frame16) (stateWith snapP1 30)) = some (.ok .none) ∧
    answerOf (exec (.fwrite frame16) (stateWith snapP1 29)) ≠ some (.ok .none) := by decide

/-- A read error; a block without a zero; a block with two, its second chunk a frame. -/
theorem witness_FreadDecodesTheSecondChunk :
    ({ State.reset with source := [.readError] } : State).source = [.readError] ∧
    (stateReading []).source = [.block (block [])] ∧ 0#8 ∉ (block []).toList ∧
    (block ([0xAA#8, 0x00#8] ++ frame0)).toList = [0xAA#8] ++ 0#8 :: List.replicate 17 0x01#8 ++
      (0x00#8 :: List.replicate 108 0x55#8) ∧
    0#8 ∉ [0xAA#8] ∧ 0#8 ∉ List.replicate 17 0x01#8 ∧
    (0x00#8 :: List.replicate 108 0x55#8).head? = some 0#8 ∧
    Returns (.cdec (List.replicate 17 0x01#8)) State.reset (.bytes (List.replicate 16 0x00#8)) ∧
    Returns (.deser (List.replicate 16 0x00#8)) State.reset (.message message0) ∧
    Raises (.cdec []) State.reset (.frameDecodeFailure 0) ∧
    Raises (.deser []) State.reset (.payloadDecodeFailure .unexpectedEnd) :=
  ⟨rfl, rfl, by decide +kernel, by decide +kernel, by decide, by decide, by decide, rfl, rfl, rfl, rfl⟩

theorem witness_FreadDeliversAFramedMessage :
    Returns (.ser message0) State.reset (.bytes (List.replicate 16 0x00#8)) ∧
    Returns (.cenc (List.replicate 16 0x00#8)) State.reset (.bytes frame0) ∧
    (stateReading ([0xAA#8, 0x00#8] ++ frame0)).source = [.block (block ([0xAA#8, 0x00#8] ++ frame0))] ∧
    (block ([0xAA#8, 0x00#8] ++ frame0)).toList = [0xAA#8] ++ 0#8 :: frame0 ++ List.replicate 108 0x55#8 ∧
    0#8 ∉ [0xAA#8] := ⟨rfl, rfl, rfl, by decide +kernel, by decide⟩

theorem witness_DecodeInvertsEncode :
    (Instr.wr 0x3F#8 0xFFFF#16).wellFormed = true ∧ (Instr.fwrite (List.replicate 255 0x00#8)).wellFormed = true := by
  decide +kernel

/-- A field's name, the Channels of a set written twice and out of order, a longest and a too long byte vector. -/
theorem witness_WrittenRequestsAssemble :
    fieldIdx "ResY" = some 14#5 ∧ (∀ c : Channel, c ∈ [.y, .x, .y] ↔ hasChannel 0b0110#4 c = true) ∧
    (List.replicate 255 0x00#8).length ≤ 255 ∧
    assemble "FWRITE" [.bytes (List.replicate 255 0x00#8)] = some (.fwrite (List.replicate 255 0x00#8)) ∧
    assemble "FWRITE" [.bytes (List.replicate 256 0x00#8)] = none :=
  ⟨by decide, fun c => by cases c <;> decide, List.length_replicate.le, by decide +kernel, by decide +kernel⟩

/-- A byte vector, and a status response of fields. -/
theorem witness_ResultsFitTheirPortFields :
    (Instr.cenc []).wellFormed = true ∧ resultWidths (.cenc []) = none ∧ (∃ t, exec (.cenc []) State.reset = .next t ∧
      t.response = some (.ok (.bytes [0x01#8, 0x00#8]))) ∧
    resultWidths (.stdec 0x23#8) = some [1, 1, 1, 1, 1, 1, 2] ∧ (∃ t, exec (.stdec 0x23#8) State.reset = .next t ∧
      t.response = some (.ok (.status (statusFields 0x23#8)))) := ⟨rfl, rfl, ⟨_, rfl, rfl⟩, rfl, _, rfl, rfl⟩

end Sys2Proof.Tests
end

/-! ### Steps -/

namespace Sys2Proof.Machine

/-- A record that decodes is served by its instruction. -/
theorem serve_of_decode {r : Record} {i : Instr} (h : decode r = .ok i) : serve r = .run i := by
  simp only [serve, h]

/-- What stands first at the inputs, when it is a record. -/
theorem nextOf_record {s : State} {r : Record} {rest : List Stimulus} (h : s.inbox = .record r :: rest) :
    nextOf s = serve r := by
  simp only [nextOf, h]

/-- Taking the first stimulus leaves the ones behind it, and nothing else changes. -/
theorem advance_cons {s : State} {x : Stimulus} {rest : List Stimulus} (h : s.inbox = x :: rest) :
    s.advance = { s with inbox := rest } := by
  simp only [State.advance, h, List.tail_cons]

/-- Settles O1: the record decodes, so the step serves it, and serving it is `exec`. -/
theorem stepRunsTheDecodedRequest : Obligations.StepRunsTheDecodedRequest := by
  unfold Obligations.StepRunsTheDecodedRequest
  intro s r rest i hin hdec _
  have hnext : nextOf s = .run i := (nextOf_record hin).trans (serve_of_decode hdec)
  simp only [step, hnext, advance_cons hin]

/-! ### Rounding exact values -/

/-- `round32` of whatever number its integer stands for, zero included, is `RNE32` of it. -/
theorem round32_rounds_value {neg : Bool} {m : Nat} {e : Int} {x v : ℚ} (hx : StandsFor m x)
    (hbig : x = m ∨ 2 ^ 25 ≤ m) (hv : v = signFactor neg * x * (2 : ℚ) ^ e) :
    (|v| < 2 ^ 128 - 2 ^ 103 → IsNearestEven (round32 neg m e) v) ∧
    (2 ^ 128 - 2 ^ 103 ≤ |v| → isInf (round32 neg m e) = true) := by
  subst hv
  rcases Nat.eq_zero_or_pos m with rfl | hm
  · have hx0 : x = 0 := by simpa [StandsFor] using hx
    rw [hx0, mul_zero, zero_mul, round32_zero]
    exact ⟨fun _ => signedZero_nearest neg, fun h => absurd h (by norm_num)⟩
  · exact round32_rounds hm hx hbig

/-- Settles O41: the exact product is the product of the significands, with the exclusive-or of the signs, and `round32`
rounds it once. -/
theorem productsAreRoundedToNearestEven : Obligations.ProductsAreRoundedToNearestEven := by
  unfold Obligations.ProductsAreRoundedToNearestEven
  intro a b ha hb
  rw [mul32_finite ha hb]
  refine ⟨(round32_sign _ _ _).1, round32_rounds_value (.inl rfl) (.inl rfl) ?_⟩
  rw [value32_eq, value32_eq, signFactor_xor, zpow_add₀ two_ne_zero, Nat.cast_mul]
  ring

/-! ### Sums -/

theorem isNaN_of_isFinite {a : F32} (h : isFinite a = true) : isNaN a = false := by
  rw [isFinite, bne_iff_ne] at h
  simp [isNaN, h]

theorem isInf_of_isFinite {a : F32} (h : isFinite a = true) : isInf a = false := by
  rw [isFinite, bne_iff_ne] at h
  simp [isInf, h]

/-- The exact sum of finite operands, in units of the smaller of their last places. -/
def exactSum (a b : F32) : Int :=
  scaled a (min (exponent a) (exponent b)) + scaled b (min (exponent a) (exponent b))

/-- The sum of finite operands is computed exactly and rounded once, unless it is zero. -/
theorem add32_finite {a b : F32} (ha : isFinite a = true) (hb : isFinite b = true) :
    add32 a b = if exactSum a b = 0 then signedZero (signBit a && signBit b)
      else round32 (decide (exactSum a b < 0)) (exactSum a b).natAbs (min (exponent a) (exponent b)) := by
  simp only [add32, isNaN_of_isFinite ha, isNaN_of_isFinite hb, isInf_of_isFinite ha, isInf_of_isFinite hb,
    Bool.or_self, Bool.false_eq_true, if_false]
  rfl

theorem value32_add (a b : F32) :
    value32 a + value32 b = (exactSum a b : ℚ) * (2 : ℚ) ^ min (exponent a) (exponent b) := by
  rw [value32_scaled a (min_le_left _ (exponent b)), value32_scaled b (min_le_right (exponent a) _), exactSum]
  push_cast
  ring

/-- An integer is its magnitude with its sign. -/
theorem signFactor_mul_natAbs (z : Int) : signFactor (decide (z < 0)) * (z.natAbs : ℚ) = z := by
  rcases lt_or_ge z 0 with h | h
  · simp [signFactor, h, Nat.cast_natAbs, abs_of_neg]
  · simp [signFactor, not_lt.mpr h, Nat.cast_natAbs, abs_of_nonneg h]

/-- Settles O42: the exact sum is an integer in units of a power of two; zero has the sign the model gives it, and any
other sum is rounded once by `round32`. -/
theorem sumsAreRoundedToNearestEven : Obligations.SumsAreRoundedToNearestEven := by
  unfold Obligations.SumsAreRoundedToNearestEven
  intro a b ha hb
  rw [add32_finite ha hb, value32_add]
  have hpow : (0 : ℚ) < (2 : ℚ) ^ min (exponent a) (exponent b) := zpow_pos two_pos _
  generalize min (exponent a) (exponent b) = e at hpow
  generalize exactSum a b = sum
  by_cases h0 : sum = 0
  · rw [if_pos h0, h0, Int.cast_zero, zero_mul]
    exact ⟨fun _ => signBit_signedZero _, fun h => absurd rfl h, fun _ => signedZero_nearest _,
      fun h => absurd h (by norm_num)⟩
  · have hne : (sum : ℚ) * (2 : ℚ) ^ e ≠ 0 := mul_ne_zero (Int.cast_ne_zero.mpr h0) hpow.ne'
    have hneg : (sum : ℚ) * (2 : ℚ) ^ e < 0 ↔ sum < 0 := by
      have h := mul_lt_mul_iff_left₀ (b := (sum : ℚ)) (c := 0) hpow
      rwa [zero_mul, Int.cast_lt_zero] at h
    rw [if_neg h0]
    refine ⟨fun h => absurd h hne, fun _ => ?_, round32_rounds_value (.inl rfl) (.inl rfl) ?_⟩
    · rw [(round32_sign _ _ _).1, decide_eq_true_iff, hneg]
    · rw [signFactor_mul_natAbs]

/-! ### Quotients -/

/-- The significand of a quotient as `div32` forms it: 51 bits below the point, the last of them sticky. -/
def stickyQuotient (n d : Nat) : Nat := 2 * (n / d) + if n % d = 0 then 0 else 1

/-- The sticky quotient stands for twice the exact one. -/
theorem stickyQuotient_standsFor (n : Nat) {d : Nat} (hd : 0 < d) :
    StandsFor (stickyQuotient n d) (2 * ((n : ℚ) / d)) := by
  have hdq : (0 : ℚ) < d := Nat.cast_pos.mpr hd
  have hsplit : (n : ℚ) / d = (n / d : Nat) + (n % d : Nat) / d := by
    have h : ((d * (n / d) + n % d : Nat) : ℚ) = n := congrArg _ (Nat.div_add_mod n d)
    push_cast at h
    rw [div_eq_iff hdq.ne', ← h]
    field_simp
  rw [hsplit]
  unfold stickyQuotient
  split
  · rename_i h
    left
    simp [h]
  · rename_i h
    have hr0 : (0 : ℚ) < (n % d : Nat) / d := div_pos (Nat.cast_pos.mpr (Nat.pos_of_ne_zero h)) hdq
    have hr1 : ((n % d : Nat) : ℚ) / d < 1 := by
      rw [div_lt_one hdq]
      exact_mod_cast Nat.mod_lt n hd
    right
    refine ⟨by omega, ?_, ?_⟩ <;> push_cast <;> linarith

/-- The quotient of the significands of `a` and `b` has bits enough below the point to be rounded from its sticky bit. -/
theorem stickyQuotient_large {m d : Nat} (hm : 0 < m) (hd : 0 < d) (hlt : d < 2 ^ 24) :
    2 ^ 25 ≤ stickyQuotient (m * 2 ^ 50) d := by
  have h : 2 ^ 24 ≤ m * 2 ^ 50 / d := by
    rw [Nat.le_div_iff_mul_le hd]
    nlinarith
  unfold stickyQuotient
  omega

/-- A pattern that is no zero has a non-zero significand. -/
theorem mant_pos {b : F32} (h : isZero b = false) : 0 < mant b := by
  unfold mant
  split
  · rename_i he
    have hf : fracField b ≠ 0 := by simpa [isZero, he] using h
    omega
  · omega

/-- The quotient of finite operands is rounded once from its sticky significand. -/
theorem div32_finite {a b : F32} (ha : isFinite a = true) (hb : isFinite b = true) (hz : isZero b = false) :
    div32 a b = round32 (signBit a ^^ signBit b) (stickyQuotient (mant a * 2 ^ 50) (mant b))
      (exponent a - exponent b - 51) := by
  simp only [div32, isNaN_of_isFinite ha, isNaN_of_isFinite hb, isInf_of_isFinite ha, isInf_of_isFinite hb, hz,
    Bool.or_self, Bool.false_eq_true, if_false, stickyQuotient]

/-- The exact quotient, in the units in which `div32` forms it. -/
theorem value32_div (a b : F32) : value32 a / value32 b =
    signFactor (signBit a ^^ signBit b) * (2 * (((mant a * 2 ^ 50 : Nat) : ℚ) / mant b)) *
      (2 : ℚ) ^ (exponent a - exponent b - 51) := by
  have hsign : (signFactor (signBit b))⁻¹ = signFactor (signBit b) := by
    cases signBit b <;> norm_num [signFactor]
  rw [value32_eq, value32_eq, signFactor_xor, zpow_sub₀ two_ne_zero, zpow_sub₀ two_ne_zero, div_eq_mul_inv, mul_inv,
    mul_inv, hsign]
  push_cast
  ring

/-- Settles O43: the model's quotient with its sticky bit stands for the exact one, and `round32` rounds what it stands
for. -/
theorem quotientsAreRoundedToNearestEven : Obligations.QuotientsAreRoundedToNearestEven := by
  unfold Obligations.QuotientsAreRoundedToNearestEven
  intro a b ha hb hz
  have hd := mant_pos hz
  rw [div32_finite ha hb hz]
  refine ⟨(round32_sign _ _ _).1, round32_rounds_value (stickyQuotient_standsFor _ hd) ?_ (value32_div a b)⟩
  rcases Nat.eq_zero_or_pos (mant a) with h0 | h0
  · left
    simp [h0, stickyQuotient]
  · exact .inr (stickyQuotient_large h0 hd (mant_lt b))

/-! ### Small integers -/

/-- The integer nearest to an integer is itself. -/
theorem NearestInt.eq_of_intCast {u : Nat} {j : Int} (h : NearestInt u (j : ℚ)) : (u : ℚ) = j := by
  have hle := (h j).1
  rw [sub_self, abs_zero] at hle
  exact sub_eq_zero.mp (abs_nonpos_iff.mp hle)

/-- An integer up to 2^24, in units of a last place that leaves it 24 bits, is an integer still. -/
theorem units_integral {m : Nat} {q : Int} {y : ℚ} (hm : m ≤ 2 ^ 24) (hy : 2 ^ 23 ≤ y ∨ q = -149)
    (hval : (m : ℚ) = y * (2 : ℚ) ^ q) : ∃ j : Int, y = j := by
  rcases le_or_gt q 0 with hq | hq
  · obtain ⟨d, rfl⟩ : ∃ d : Nat, q = -d := ⟨q.natAbs, by omega⟩
    refine ⟨m * 2 ^ d, ?_⟩
    push_cast
    rw [hval, zpow_neg, zpow_natCast, inv_mul_cancel_right₀ (by positivity)]
  · have hy := hy.resolve_right (by omega)
    have h2 : (2 : ℚ) ≤ (2 : ℚ) ^ q := by
      calc (2 : ℚ) = (2 : ℚ) ^ (1 : Int) := (zpow_one 2).symm
        _ ≤ (2 : ℚ) ^ q := zpow_le_zpow_right₀ (by norm_num) hq
    have hmq : (m : ℚ) ≤ 2 ^ 24 := by exact_mod_cast hm
    refine ⟨2 ^ 23, ?_⟩
    push_cast
    nlinarith

/-- `round32` of an integer up to 2^24 changes nothing. -/
theorem round32_integer (neg : Bool) {m : Nat} (hm : m ≤ 2 ^ 24) :
    isFinite (round32 neg m 0) = true ∧ value32 (round32 neg m 0) = signFactor neg * m := by
  rcases Nat.eq_zero_or_pos m with rfl | h0
  · rw [round32_zero]
    cases neg <;> simp [isFinite, value32, mant, fracField, expField, signedZero, withSign]
  · have hmq : (m : ℚ) ≤ 2 ^ 24 := by exact_mod_cast hm
    have hfin : isFinite (round32 neg m 0) = true := by
      rw [round32_overflow h0 (.inl rfl) (.inl rfl), zpow_zero, mul_one]
      exact lt_of_le_of_lt hmq (by norm_num [overflowBound])
    refine ⟨hfin, ?_⟩
    obtain ⟨q, units, y, hr, hq, hu, hy, hn, hxy⟩ := round32_packs (e := 0) neg h0 (.inl rfl) (.inl rfl)
    rw [zpow_zero, mul_one] at hxy
    obtain ⟨j, rfl⟩ := units_integral hm hy hxy
    have huj : (units : ℚ) = j := hn.eq_of_intCast
    rw [hr] at hfin ⊢
    split at hfin
    · simp at hfin
    · rename_i hlow
      have hnorm : 2 ^ 23 ≤ units ∨ q = -149 := by
        rw [← huj] at hy
        exact_mod_cast hy
      rw [if_neg hlow, (value32_packed neg hq hu hnorm (not_le.mp hlow)).2, hxy, huj, mul_assoc]

/-- Settles O38: an integer up to 2^24 in magnitude is a whole number of units of its last place, so rounding keeps it. -/
theorem f32OfSmallIntegersIsExact : Obligations.F32OfSmallIntegersIsExact := by
  unfold Obligations.F32OfSmallIntegersIsExact
  intro i hi
  have h := round32_integer (decide (i < 0)) hi
  rwa [signFactor_mul_natAbs] at h

end Sys2Proof.Machine

/-! ### Results on the response port -/

namespace Sys2Proof.Machine

/-- A result stands on the port as a row of R82's results column says: in fields of the row's widths, or, where the row
has no widths, as a byte vector that fits its length field. -/
inductive Result.OnPort : Result → Option (List Nat) → Prop
  | fields {v : Result} (h : ∀ b, v ≠ .bytes b) : v.OnPort (some (v.portFields.map Prod.fst))
  | bytes {b : List Byte} (h : b.length < 256) : (Result.bytes b).OnPort Option.none

/-- Whatever the outcome `r` of a request returns stands on the port as `row` says. -/
def Answers (row : Option (List Nat)) (r : Except ReqFault Result) : Prop := ∀ v, r = .ok v → v.OnPort row

theorem answers_ok {row : Option (List Nat)} {v : Result} (h : v.OnPort row) : Answers row (.ok v) := by
  rintro _ ⟨⟩
  exact h

theorem answers_error (row : Option (List Nat)) (f : ReqFault) : Answers row (.error f) := by
  rintro _ ⟨⟩

section Register
variable (addr : Byte) (word : Word16)

theorem answers_withTag {row : Option (List Nat)} {r : Except ReqFault Result} (h : Answers row r) (a : Byte) :
    Answers row (withTag addr a r) := by
  unfold withTag
  split
  · exact answers_error _ _
  · exact h

/-- A register request's outcome that is no fault. -/
theorem answers_withTag_ok {row : Option (List Nat)} {v : Result} (h : v.OnPort row) (a : Byte) :
    Answers row (withTag addr a (.ok v)) := answers_withTag addr (answers_ok h) a

theorem onPort_word (w : Word16) : (Result.word w).OnPort (some [16]) := .fields (by nofun)

theorem answers_fget (idx : BitVec 5) : Answers (some [16]) (fget addr word idx) := by
  unfold fget
  split
  · exact answers_error _ _
  · exact answers_withTag_ok addr (.fields (by nofun)) _

theorem answers_fset (idx : BitVec 5) (value : Word16) : Answers (some [16]) (fset addr word idx value) := by
  unfold fset
  split
  · exact answers_error _ _
  · refine answers_withTag addr ?_ _
    split
    · exact answers_error _ _
    · exact answers_ok (onPort_word _)

theorem answers_egain (gain : Byte) : Answers (some [16]) (egain addr word gain) := by
  refine answers_withTag addr ?_ _
  split
  · exact answers_error _ _
  · exact answers_ok (onPort_word _)

end Register

theorem onPort_frame (f : CmdFrame) : (Result.frame f).OnPort (some [8, 8, 8, 8, 8, 8]) := .fields (by nofun)

theorem answers_frameResult (r : Except ReqFault CmdFrame) : Answers (some [8, 8, 8, 8, 8, 8]) (frameResult r) := by
  cases r with
  | ok f => exact answers_ok (onPort_frame f)
  | error e => exact answers_error _ e

theorem onPort_status (st : StatusFields) : (Result.status st).OnPort (some [1, 1, 1, 1, 1, 1, 2]) := .fields (by nofun)

theorem answers_rmDecode (chans : ChannelSet) (b : List Byte) :
    Answers (some [8, 4, 16, 16, 16, 16]) (rmDecode chans b) := by
  unfold rmDecode
  split
  · exact answers_error _ _
  · exact answers_ok (.fields (by nofun))

theorem answers_rrDecode (b : List Byte) : Answers (some [1, 1, 1, 1, 1, 1, 2, 16]) (rrDecode b) := by
  unfold rrDecode
  split
  · exact answers_ok (.fields (by nofun))
  · exact answers_error _ _

theorem answers_s1Decode (b : List Byte) : Answers (some [1, 1, 1, 1, 1, 1, 2]) (s1Decode b) := by
  unfold s1Decode
  split
  · exact answers_ok (onPort_status _)
  · exact answers_error _ _

/-- An optional binary32 takes its presence bit and 32 bits, absent or not (R82). -/
@[simp] theorem widths_portOption (v : Option F32) : (portOption v).map Prod.fst = [1, 32] := by
  cases v <;> rfl

@[simp] theorem widths_portField (m : MagneticField) :
    (portField m).map Prod.fst = [1, 32, 1, 32, 1, 32, 1, 32] := by
  simp [portField]

theorem answers_fieldResult (r : Except ReqFault MagneticField) :
    Answers (some [1, 32, 1, 32, 1, 32, 1, 32]) (fieldResult r) := by
  cases r with
  | ok m =>
    have h : (Result.field m).OnPort _ := .fields (by nofun)
    rw [Result.portFields, widths_portField] at h
    exact answers_ok h
  | error e => exact answers_error _ e

theorem answers_messageResult (r : Except ReqFault Message) :
    Answers (some [1, 32, 1, 32, 1, 32, 1, 32, 32, 32, 32]) (messageResult r) := by
  cases r with
  | ok m =>
    have h : (Result.message m).OnPort _ := .fields (by nofun)
    rw [Result.portFields, List.map_append, widths_portField] at h
    exact answers_ok h
  | error e => exact answers_error _ e

theorem answers_writeAnswer {row : Option (List Nat)} {v : Result} (h : v.OnPort row) (k n : Nat) :
    Answers row (writeAnswer k n v) := by
  unfold writeAnswer
  split
  · exact answers_error _ _
  · exact answers_ok h

/-! ### Byte vectors fit their length field -/

theorem answers_bytesResult {r : Except ReqFault (List Byte)} (h : ∀ b, r = .ok b → b.length < 256) :
    Answers none (bytesResult r) := by
  cases r with
  | ok b => exact answers_ok (.bytes (h b rfl))
  | error e => exact answers_error _ e

theorem length_serialize_lt {m : Message} {b : List Byte} (h : serialize m = .ok b) : b.length < 256 := by
  have hb := (length_payloadOf_bounds m).2
  rw [serialize_eq] at h
  rw [← Except.ok.inj h]
  omega

/-- A frame that CENC returns fits its buffer (R250). -/
theorem length_cobsEncode_le {b f : List Byte} (h : cobsEncode b = .ok f) : f.length ≤ Config.frameBufLen := by
  unfold cobsEncode at h
  split at h
  · cases h
  · rename_i hle
    rw [← Except.ok.inj h]
    exact not_lt.mp hle

/-- A turn of R255's loop writes no more bytes than it takes: `code − 1`, and at most one zero. -/
theorem length_cobsDecodeFrom_le : ∀ (fuel i : Nat) (rest out r : List Byte),
    cobsDecodeFrom fuel i rest out = .ok r → r.length ≤ out.length + rest.length := by
  intro fuel
  induction fuel with
  | zero =>
    intro i rest out r h
    obtain rfl : out = r := by cases rest <;> exact Except.ok.inj h
    exact Nat.le_add_right _ _
  | succ fuel ih =>
    intro i rest out r h
    cases rest with
    | nil =>
      obtain rfl : out = r := Except.ok.inj h
      exact Nat.le_add_right _ _
    | cons code tail =>
      rw [cobsDecodeFrom] at h
      split at h
      · cases h
      · rename_i hcode
        have hpos : code.toNat ≠ 0 := fun h0 => hcode (BitVec.eq_of_toNat_eq h0)
        split at h
        · cases h
        · have hle := ih _ _ _ _ h
          split at hle <;> simp at hle ⊢ <;> omega

/-- What CDEC returns is no longer than its chunk (R255). -/
theorem length_cobsDecode_le {c b : List Byte} (h : cobsDecode c = .ok b) : b.length ≤ c.length := by
  unfold cobsDecode cobsDecodeWith at h
  split at h
  · cases h
  · simpa using length_cobsDecodeFrom_le _ _ _ _ _ h

/-! ### Every request -/

/-- Every request ends with an outcome whose result stands on the port as the request's row says. -/
theorem exec_answers (i : Instr) (s : State) (hwf : i.wellFormed = true) :
    ∃ u r, exec i s = finish u r ∧ Answers (resultWidths i) r := by
  cases i
  case sb => exact ⟨_, _, exec_sb _ _, answers_ok (onPort_frame _)⟩
  case sw => exact ⟨_, _, exec_sw _ _, answers_ok (onPort_frame _)⟩
  case sm => exact ⟨_, _, exec_sm _ _, answers_ok (onPort_frame _)⟩
  case rm => exact ⟨_, _, exec_rm _ _, answers_ok (onPort_frame _)⟩
  case rr => exact ⟨_, _, exec_rr _ _, answers_frameResult _⟩
  case wr => exact ⟨_, _, exec_wr _ _ _, answers_frameResult _⟩
  case ex => exact ⟨_, _, exec_ex _, answers_ok (onPort_frame _)⟩
  case hr => exact ⟨_, _, exec_hr _, answers_ok (onPort_frame _)⟩
  case hs => exact ⟨_, _, exec_hs _, answers_ok (onPort_frame _)⟩
  case rt => exact ⟨_, _, exec_rt _, answers_ok (onPort_frame _)⟩
  case fget => exact ⟨_, _, exec_fget _ _ _ _, answers_fget _ _ _⟩
  case fset => exact ⟨_, _, exec_fset _ _ _ _ _, answers_fset _ _ _ _⟩
  case dgain => exact ⟨_, _, exec_dgain _ _ _, answers_withTag_ok _ (.fields (by nofun)) _⟩
  case dtcmp => exact ⟨_, _, exec_dtcmp _ _ _, answers_withTag_ok _ (.fields (by nofun)) _⟩
  case dhall => exact ⟨_, _, exec_dhall _ _ _, answers_withTag_ok _ (.fields (by nofun)) _⟩
  case dzser => exact ⟨_, _, exec_dzser _ _ _, answers_withTag_ok _ (.fields (by nofun)) _⟩
  case dbist => exact ⟨_, _, exec_dbist _ _ _, answers_withTag_ok _ (.fields (by nofun)) _⟩
  case dres => exact ⟨_, _, exec_dres _ _ _, answers_withTag_ok _ (.fields (by nofun)) _⟩
  case egain => exact ⟨_, _, exec_egain _ _ _ _, answers_egain _ _ _⟩
  case etcmp => exact ⟨_, _, exec_etcmp _ _ _ _, answers_withTag_ok _ (onPort_word _) _⟩
  case ezser => exact ⟨_, _, exec_ezser _ _ _ _, answers_withTag_ok _ (onPort_word _) _⟩
  case ebist => exact ⟨_, _, exec_ebist _ _ _ _, answers_withTag_ok _ (onPort_word _) _⟩
  case snapcap => exact ⟨_, _, (exec_snapcap _ _ _ _ _).trans (finish_ok _ _).symm, answers_ok (.fields (by nofun))⟩
  case snapq => exact ⟨_, _, exec_snapq _, answers_ok (.fields (by nofun))⟩
  case cmdenc => exact ⟨_, _, exec_cmdenc _ _ _ _ _, answers_frameResult _⟩
  case stdec => exact ⟨_, _, exec_stdec _ _, answers_ok (onPort_status _)⟩
  case rmdec => exact ⟨_, _, exec_rmdec _ _ _, answers_rmDecode _ _⟩
  case rrdec => exact ⟨_, _, exec_rrdec _ _, answers_rrDecode _⟩
  case s1dec => exact ⟨_, _, exec_s1dec _ _, answers_s1Decode _⟩
  case conv => exact ⟨_, _, exec_conv _ _ _, answers_fieldResult _⟩
  case ser => exact ⟨_, _, exec_ser _ _, answers_bytesResult fun _ => length_serialize_lt⟩
  case deser => exact ⟨_, _, exec_deser _ _, answers_messageResult _⟩
  case cenc =>
    exact ⟨_, _, exec_cenc _ _, answers_bytesResult fun _ h => (length_cobsEncode_le h).trans_lt (by decide)⟩
  case cdec c =>
    have hvec : c.length ≤ 255 := of_decide_eq_true hwf
    exact ⟨_, _, exec_cdec _ _, answers_bytesResult fun _ h => by have := length_cobsDecode_le h; omega⟩
  case fwrite => exact ⟨_, _, exec_fwrite _ _, answers_writeAnswer (.fields (by nofun)) _ _⟩
  case fread => exact ⟨_, _, exec_fread _, answers_messageResult _⟩
  case msgtx => exact ⟨_, _, exec_msgtx _ _, answers_writeAnswer (.fields (by nofun)) _ _⟩

/-- A request that ends with the result `v` on the response port has returned it. -/
theorem finish_response {u t : State} {r : Except ReqFault Result} {v : Result} (h : finish u r = .next t)
    (hv : t.response = some (.ok v)) : r = .ok v := by
  rw [finish_eq, Host.Outcome.next.injEq] at h
  rw [← h, respond_response, Option.some.injEq] at hv
  cases r with
  | ok a => exact congrArg _ (Response.ok.inj hv)
  | error f => cases hv

/-- What a well-formed request returns stands on the port as the request's row says. -/
theorem onPort_of_exec {i : Instr} {s t : State} {v : Result} (hwf : i.wellFormed = true) (h : exec i s = .next t)
    (hv : t.response = some (.ok v)) : v.OnPort (resultWidths i) := by
  obtain ⟨u, r, hexec, hr⟩ := exec_answers i s hwf
  exact hr v (finish_response (hexec.symm.trans h) hv)

/-! ### Values fit their fields -/

/-- The value of a port field fits the field's width. -/
def PortField.Fits (p : PortField) : Prop := p.2 < 2 ^ p.1

@[simp] theorem fits_portBits {w : Nat} (v : BitVec w) : (portBits v).Fits := v.isLt

@[simp] theorem fits_portBool (b : Bool) : (portBool b).Fits := b.toNat_lt

theorem fits_portOption (v : Option F32) : ∀ p ∈ portOption v, PortField.Fits p := by
  cases v <;> simp [portOption]

theorem fits_portStatus (st : StatusFields) : ∀ p ∈ portStatus st, PortField.Fits p := by
  simp [portStatus]

theorem fits_portField (m : MagneticField) : ∀ p ∈ portField m, PortField.Fits p := by
  simp only [portField, List.forall_mem_append]
  exact ⟨⟨⟨fits_portOption _, fits_portOption _⟩, fits_portOption _⟩, fits_portOption _⟩

/-- Every field of a result holds a value of its width, where a byte vector fits its length field. -/
theorem fits_portFields {v : Result} (hb : ∀ b, v = .bytes b → b.length < 256) :
    ∀ p ∈ v.portFields, PortField.Fits p := by
  cases v
  case bytes b =>
    have hlen : PortField.Fits (8, b.length) := hb b rfl
    exact List.forall_mem_cons.mpr ⟨hlen, List.forall_mem_map.mpr fun x _ => fits_portBits x⟩
  case status st => exact fits_portStatus st
  case field m => exact fits_portField m
  case register st w => exact List.forall_mem_append.mpr ⟨fits_portStatus st, by simp⟩
  case message m => exact List.forall_mem_append.mpr ⟨fits_portField m.field, by simp⟩
  all_goals simp [Result.portFields]

/-- What standing on the port as a row says comes to: the row's widths, or a byte vector, and every value fits. -/
theorem Result.OnPort.spec {v : Result} {row : Option (List Nat)} (h : v.OnPort row) :
    (∀ widths, row = some widths → v.portFields.map Prod.fst = widths) ∧
    (row = Option.none → ∃ b : List Byte, b.length < 256 ∧ v = .bytes b) ∧ ∀ p ∈ v.portFields, PortField.Fits p := by
  cases h with
  | fields hv => exact ⟨fun _ => Option.some.inj, by nofun, fits_portFields fun b hb => absurd hb (hv b)⟩
  | bytes hlen => exact ⟨by nofun, fun _ => ⟨_, hlen, rfl⟩, fits_portFields fun b hb => Result.bytes.inj hb ▸ hlen⟩

theorem values_portField (m : MagneticField) :
    (portField m).map Prod.snd = [m.x, m.y, m.z, m.t].flatMap fun v => (portOption v).map Prod.snd := by
  simp [portField]

/-- Settles O60: every request ends in an outcome that stands on the port as its row says; the values of each shape are
those R82 names, by the definition of `Result.portFields`. -/
theorem resultsFitTheirPortFields : Obligations.ResultsFitTheirPortFields := by
  unfold Obligations.ResultsFitTheirPortFields
  refine ⟨⟨rfl, rfl, rfl, rfl, rfl, rfl, rfl⟩, fun i s t v hwf h hv => (onPort_of_exec hwf h hv).spec, fun _ => rfl,
    fun _ => rfl, fun _ => rfl, fun v g x h m => ⟨rfl, rfl, rfl, ?_, rfl, rfl⟩, fun _ _ _ => rfl, fun _ => rfl,
    fun _ => rfl, fun _ _ => ⟨rfl, rfl⟩, fun _ => rfl, fun m => ?_, fun _ => rfl⟩
  · cases x <;> rfl
  · refine (values_portField m).trans (congrArg (List.flatMap · _) (funext fun v => ?_))
    cases v <;> rfl

end Sys2Proof.Machine

/-! ### What a request and a step do to the state -/

namespace Sys2Proof.Machine

/-- The state a request leaves: with the snapshot of SNAPCAP's operands, after an offer to the sink, after FREAD's read
of the source, or as it was; and a response on the port. -/
theorem exec_next_cases {i : Instr} {s t : State} (h : exec i s = .next t) :
    (∃ w0 w1 w2 tref r, i = .snapcap w0 w1 w2 tref ∧
      t = State.respond { s with snap := captureSnap w0 w1 w2 tref } r) ∨
    (∃ f r, t = (s.offer f).respond r) ∨ (∃ r, i = .fread ∧ t = s.afterRead.respond r) ∨ ∃ r, t = s.respond r := by
  obtain ⟨w0, w1, w2, tref, rfl⟩ | ⟨f, r, hwrite⟩ | rfl | ⟨r, hanswer⟩ := exec_cases i s
  · rw [exec_snapcap, Host.Outcome.next.injEq] at h
    exact .inl ⟨w0, w1, w2, tref, _, rfl, h.symm⟩
  · rw [hwrite, writeFrame, finish_eq, Host.Outcome.next.injEq] at h
    exact .inr (.inl ⟨f, _, h.symm⟩)
  · rw [exec_fread, finish_eq, Host.Outcome.next.injEq] at h
    exact .inr (.inr (.inl ⟨_, rfl, h.symm⟩))
  · rw [hanswer, Host.Outcome.next.injEq] at h
    exact .inr (.inr (.inr ⟨r, h.symm⟩))

/-- R32: a request captures the snapshot of its operands, or leaves `SNAP` as it was. -/
theorem exec_snap {i : Instr} {s t : State} (h : exec i s = .next t) :
    (∃ w0 w1 w2 tref, i = .snapcap w0 w1 w2 tref ∧ t.snap = captureSnap w0 w1 w2 tref) ∨ t.snap = s.snap := by
  obtain ⟨w0, w1, w2, tref, r, hi, rfl⟩ | ⟨f, r, rfl⟩ | ⟨r, -, rfl⟩ | ⟨r, rfl⟩ := exec_next_cases h
  · exact .inl ⟨w0, w1, w2, tref, hi, rfl⟩
  · exact .inr (by simp)
  · exact .inr (by simp)
  · exact .inr (by simp)

/-- R60, R67: a request consumes nothing, or what an answer of the source has it consume. -/
theorem exec_consumed {i : Instr} {s t : State} (h : exec i s = .next t) :
    t.consumed = s.consumed ∨ ∃ a, t.consumed = s.consumed + consumedBy a := by
  obtain ⟨w0, w1, w2, tref, r, -, rfl⟩ | ⟨f, r, rfl⟩ | ⟨r, -, rfl⟩ | ⟨r, rfl⟩ := exec_next_cases h
  · exact .inl (by simp)
  · exact .inl (by simp)
  · exact .inr ⟨s.sourceChoice, by simp⟩
  · exact .inl (by simp)

/-- A record is served by the instruction it decodes to, is answered with a fault, or is malformed. -/
theorem serve_cases (r : Record) :
    (∃ i, decode r = .ok i ∧ serve r = .run i) ∨ (∃ f, serve r = .answer f) ∨ ∃ e, serve r = .malformed e := by
  unfold serve
  cases decode r with
  | ok i => exact .inl ⟨i, rfl, rfl⟩
  | error e =>
    cases e with
    | unassignedOp op => exact .inr (.inl ⟨_, rfl⟩)
    | unknownCommand c => exact .inr (.inl ⟨_, rfl⟩)
    | truncated => exact .inr (.inr ⟨_, rfl⟩)
    | paddingSet => exact .inr (.inr ⟨_, rfl⟩)
    | trailing => exact .inr (.inr ⟨_, rfl⟩)
    | addressLowBits => exact .inr (.inr ⟨_, rfl⟩)

/-- What a step that goes on has done: stayed quiet, with nothing asked; reset the block; run the instruction the first
record decodes to; or answered that record with a fault. -/
theorem step_next_cases {s t : State} (h : step s = .next t) :
    (s.inbox = [] ∧ t = s.quiet) ∨
    (∃ rest, s.inbox = .reset :: rest ∧ t = s.advance.blockReset) ∨
    (∃ r rest i, s.inbox = .record r :: rest ∧ decode r = .ok i ∧ exec i s.advance = .next t) ∨
    ∃ r rest f, s.inbox = .record r :: rest ∧ serve r = .answer f ∧ t = s.advance.raise f := by
  rcases hin : s.inbox with _ | ⟨r | _, rest⟩
  · simp only [step, nextOf, hin, Host.Outcome.next.injEq] at h
    exact .inl ⟨rfl, h.symm⟩
  · simp only [step, nextOf_record hin] at h
    obtain ⟨i, hdec, hserve⟩ | ⟨f, hserve⟩ | ⟨e, hserve⟩ := serve_cases r
    · simp only [hserve] at h
      exact .inr (.inr (.inl ⟨r, rest, i, rfl, hdec, h⟩))
    · simp only [hserve, Host.Outcome.next.injEq] at h
      exact .inr (.inr (.inr ⟨r, rest, f, rfl, hserve, h.symm⟩))
    · simp only [hserve, reduceCtorEq] at h
  · simp only [step, nextOf, hin, Host.Outcome.next.injEq] at h
    exact .inr (.inl ⟨rest, rfl, h.symm⟩)

/-! ### The invariant of the snapshot and the source -/

/-- The invariant speaks of `SNAP` and the number of consumed bytes alone. -/
theorem inv_congr {s t : State} (hsnap : t.snap = s.snap) (hcons : t.consumed = s.consumed) (hs : s.Inv) : t.Inv := by
  unfold State.Inv
  rwa [hsnap, hcons]

/-- Every request keeps the invariant: SNAPCAP captures `valid` and the hall configuration together, and the source
answers in whole blocks. -/
theorem exec_inv {i : Instr} {s t : State} (hs : s.Inv) (h : exec i s = .next t) : t.Inv := by
  obtain ⟨hvalid, hblocks⟩ := hs
  constructor
  · obtain ⟨w0, w1, w2, tref, -, hsnap⟩ | hsnap := exec_snap h
    · rw [hsnap]
      exact fun _ => rfl
    · rwa [hsnap]
  · obtain hcons | ⟨a, hcons⟩ := exec_consumed h
    · rwa [hcons]
    · rw [hcons, Nat.add_mod, hblocks, consumedBy_mod]

/-- A reset leaves no snapshot captured and consumes nothing. -/
theorem blockReset_inv {s : State} : s.Inv → s.blockReset.Inv :=
  fun ⟨_, hblocks⟩ => ⟨by simp, hblocks⟩

/-- Settles O7: whatever a step does to the state with its first stimulus taken keeps the invariant. -/
theorem stepKeepsTheInvariant : Obligations.StepKeepsTheInvariant := by
  unfold Obligations.StepKeepsTheInvariant
  intro s t hs h
  have hadvance : s.advance.Inv := inv_congr (advance_snap s) (advance_consumed s) hs
  obtain ⟨-, rfl⟩ | ⟨rest, -, rfl⟩ | ⟨r, rest, i, -, -, hexec⟩ | ⟨r, rest, f, -, -, rfl⟩ := step_next_cases h
  · exact inv_congr (quiet_snap s) (quiet_consumed s) hs
  · exact blockReset_inv hadvance
  · exact exec_inv hadvance hexec
  · exact inv_congr (raise_snap _ f) (raise_consumed _ f) hadvance

/-! ### Writing `SNAP` -/

/-- Settles O9: a request that changes `SNAP` is SNAPCAP, and a step that does is a reset or serves such a request. -/
theorem onlySnapcapAndResetWriteSnap : Obligations.OnlySnapcapAndResetWriteSnap := by
  unfold Obligations.OnlySnapcapAndResetWriteSnap
  have hexec : ∀ (i : Instr) (s t : State), exec i s = .next t → t.snap ≠ s.snap →
      ∃ w0 w1 w2 tref, i = .snapcap w0 w1 w2 tref := by
    intro i s t h hne
    obtain ⟨w0, w1, w2, tref, hi, -⟩ | hsnap := exec_snap h
    · exact ⟨w0, w1, w2, tref, hi⟩
    · exact absurd hsnap hne
  refine ⟨hexec, fun s t h hne => ?_⟩
  obtain ⟨-, rfl⟩ | ⟨rest, hin, -⟩ | ⟨r, rest, i, hin, hdec, hrun⟩ | ⟨r, rest, f, -, -, rfl⟩ := step_next_cases h
  · exact absurd (quiet_snap s) hne
  · exact .inl ⟨rest, hin⟩
  · obtain ⟨w0, w1, w2, tref, rfl⟩ := hexec i s.advance t hrun hne
    exact .inr ⟨r, rest, w0, w1, w2, tref, hin, hdec⟩
  · exact absurd (raise_snap s.advance f) hne

/-! ### The CustomerMemoryArea table -/

/-- `CMA(idx)` is the row of the table at `idx`, without its name (R112). -/
theorem cma_eq_ok_iff {idx : BitVec 5} {a : Byte} {o l : Nat} :
    cma idx = .ok (a, o, l) ↔ ∃ name, cmaTable[idx.toNat]? = some (name, a, o, l) := by
  unfold cma
  rcases cmaTable[idx.toNat]? with _ | ⟨name, a', o', l'⟩ <;> simp

/-- The index of a row, as an operand. -/
theorem toNat_ofNat_row {k : Nat} {row : CmaRow} (h : cmaTable[k]? = some row) : (BitVec.ofNat 5 k).toNat = k := by
  have hk : k < 24 := (List.getElem?_eq_some_iff.mp h).1
  exact Nat.mod_eq_of_lt (by omega)

theorem cma_ofNat_row {k : Nat} {name : String} {a : Byte} {o l : Nat} (h : cmaTable[k]? = some (name, a, o, l)) :
    cma (BitVec.ofNat 5 k) = .ok (a, o, l) :=
  cma_eq_ok_iff.mpr ⟨name, by rwa [toNat_ofNat_row h]⟩

/-- No two rows of the table bear one name (R36). -/
theorem cmaTable_names_nodup : (cmaTable.map Prod.fst).Nodup := by decide

/-- A field's name gives back the index of its row. -/
theorem fieldIdx_row {k : Nat} {row : CmaRow} (h : cmaTable[k]? = some row) :
    fieldIdx row.1 = some (BitVec.ofNat 5 k) := by
  obtain ⟨hk, hrow⟩ := List.getElem?_eq_some_iff.mp h
  have hfind : cmaTable.findIdx? (fun r => r.1 == row.1) = some k := by
    refine List.findIdx?_eq_some_iff_getElem.mpr ⟨hk, by simp [hrow], fun j hj => ?_⟩
    have hne := List.pairwise_iff_getElem.mp cmaTable_names_nodup j k (by simp; omega) (by simpa using hk) hj
    simpa [hrow] using hne
  rw [fieldIdx, hfind, Option.map_some]

/-- A row as R36 writes it, with its address as a number. -/
def cmaRowOf (r : String × Nat × Nat × Nat) : CmaRow := (r.1, BitVec.ofNat 8 r.2.1, r.2.2)

/-- Where the rows of R36 are those of the model's table, each is the answer of `CMA` at its index, and its name the
name of that index. -/
theorem cma_rows {rows : List (String × Nat × Nat × Nat)} (hrows : rows.map cmaRowOf = cmaTable) (k : Nat)
    (hk : k < 24) : ∃ name a o l, rows[k]? = some (name, a, o, l) ∧
      cma (BitVec.ofNat 5 k) = .ok (BitVec.ofNat 8 a, o, l) ∧ fieldIdx name = some (BitVec.ofNat 5 k) := by
  have hlen : k < rows.length := by
    rw [← List.length_map cmaRowOf, hrows]
    exact hk
  have hrow : cmaTable[k]? = some (cmaRowOf rows[k]) := by
    rw [← hrows, List.getElem?_map, List.getElem?_eq_getElem hlen, Option.map_some]
  exact ⟨_, _, _, _, List.getElem?_eq_getElem hlen, cma_ofNat_row hrow, fieldIdx_row hrow⟩

/-- Settles O15: R36's rows are the model's table. -/
theorem cmaTableIsTheSpecsTable : Obligations.CmaTableIsTheSpecsTable := by
  unfold Obligations.CmaTableIsTheSpecsTable
  exact ⟨fun _ => cma_none, cma_rows rfl⟩

/-- Within one register the rows stand in the order of their bits, each above the one before. -/
theorem cmaTable_ascending :
    cmaTable.Pairwise fun p q => p.2.1 = q.2.1 → p.2.2.1 + p.2.2.2 ≤ q.2.2.1 := by decide

/-- Of two fields of one register, the one with the smaller index lies below the other. -/
theorem cma_below {i j : BitVec 5} {a : Byte} {o l o' l' : Nat} (hi : cma i = .ok (a, o, l))
    (hj : cma j = .ok (a, o', l')) (hij : i < j) : o + l ≤ o' := by
  obtain ⟨_, hi⟩ := cma_eq_ok_iff.mp hi
  obtain ⟨_, hj⟩ := cma_eq_ok_iff.mp hj
  obtain ⟨hilt, hi⟩ := List.getElem?_eq_some_iff.mp hi
  obtain ⟨hjlt, hj⟩ := List.getElem?_eq_some_iff.mp hj
  have h := List.pairwise_iff_getElem.mp cmaTable_ascending _ _ hilt hjlt hij
  rw [hi, hj] at h
  exact h rfl

/-- The row covers bit `b` of register `a`. -/
abbrev CmaRow.Covers (row : CmaRow) (a : Byte) (b : Nat) : Prop :=
  row.2.1 = a ∧ row.2.2.1 ≤ b ∧ b < row.2.2.1 + row.2.2.2

/-- A bit lies in a field that `CMA` gives exactly when a row of the table covers it. -/
theorem exists_cma_iff_covered {a : Byte} {b : Nat} :
    (∃ (idx : BitVec 5) (o l : Nat), cma idx = .ok (a, o, l) ∧ o ≤ b ∧ b < o + l) ↔
      ∃ row ∈ cmaTable, row.Covers a b := by
  constructor
  · rintro ⟨idx, o, l, hcma, hb⟩
    obtain ⟨name, hrow⟩ := cma_eq_ok_iff.mp hcma
    exact ⟨_, List.mem_of_getElem? hrow, rfl, hb⟩
  · rintro ⟨⟨name, _, o, l⟩, hmem, rfl, hb⟩
    obtain ⟨k, hrow⟩ := List.mem_iff_getElem?.mp hmem
    exact ⟨BitVec.ofNat 5 k, o, l, cma_ofNat_row hrow, hb⟩

/-- R37: the bits the table covers, register by register. -/
theorem covered_iff : ∀ a < 9, ∀ b < 16, (∃ row ∈ cmaTable, row.Covers (BitVec.ofNat 8 a) b) ↔
    ¬((a = 0 ∧ 9 ≤ b) ∨ (a = 2 ∧ 13 ≤ b)) := by decide

/-- Settles O16: the rows ascend within each register, and cover what R37 says they cover. -/
theorem cmaFieldsCoverTheRegistersOnce : Obligations.CmaFieldsCoverTheRegistersOnce := by
  unfold Obligations.CmaFieldsCoverTheRegistersOnce
  constructor
  · rintro i j a _ o l o' l' hi hj hne rfl
    obtain hlt | hlt : i < j ∨ j < i := by bv_omega
    · exact .inl (cma_below hi hj hlt)
    · exact .inr (cma_below hj hi hlt)
  · intro a b ha hb
    have h := covered_iff a.toNat (by omega) b hb
    rw [BitVec.ofNat_toNat, BitVec.setWidth_eq] at h
    rw [exists_cma_iff_covered, h]
    bv_omega

end Sys2Proof.Machine

/-! ### Purity -/

namespace Sys2Proof.Machine

/-- R67: what a request without an effect outside the response answers is a function of `SNAP`. -/
theorem exec_eq_finish_of_pure {i : Instr} (hwrite : ∀ b, i ≠ .fwrite b) (htx : ∀ m, i ≠ .msgtx m) (hread : i ≠ .fread)
    (hcap : ∀ w0 w1 w2 tref, i ≠ .snapcap w0 w1 w2 tref) :
    ∃ answer : Snap → Except ReqFault Result, ∀ s, exec i s = finish s (answer s.snap) := by
  obtain ⟨r, hr⟩ | rfl | ⟨chans, raw, rfl⟩ := exec_pure i hwrite htx hread hcap
  · exact ⟨fun _ => r, hr⟩
  · exact ⟨fun snap => .ok (.snapshot (shownSnap snap)), exec_snapq⟩
  · exact ⟨fun snap => fieldResult (convert Config.convParams snap chans raw), exec_conv chans raw⟩

/-- Settles O11: such a request ends with its answer to `SNAP`, which is alike in both states. -/
theorem otherOperationsArePure : Obligations.OtherOperationsArePure := by
  unfold Obligations.OtherOperationsArePure
  intro i s hwrite htx hread hcap
  obtain ⟨answer, hexec⟩ := exec_eq_finish_of_pure hwrite htx hread hcap
  refine ⟨responseOf (answer s.snap), (hexec s).trans (finish_eq _ _), fun s' hsnap => ?_⟩
  rw [hexec, finish_eq, hsnap]

/-! ### The order of effects -/

/-- R67, R70: from `s` to `t` the sink was only appended to, and no byte was given back to the source. -/
def KeepsOrder (s t : State) : Prop := s.sink <+: t.sink ∧ s.consumed ≤ t.consumed ∧ t.source <:+ s.source

/-- A state with the same sink and source. -/
theorem keepsOrder_of_eq {s t : State} (hsink : t.sink = s.sink) (hcons : t.consumed = s.consumed)
    (hsource : t.source = s.source) : KeepsOrder s t := by
  unfold KeepsOrder
  rw [hsink, hcons, hsource]
  exact ⟨List.prefix_rfl, le_rfl, List.suffix_rfl⟩

/-- An offer appends what the sink takes of it. -/
theorem keepsOrder_offer (s : State) (f : List Byte) : KeepsOrder s (s.offer f) :=
  ⟨List.prefix_append _ _, le_rfl, List.suffix_rfl⟩

/-- A read takes the source's next answer and consumes its bytes. -/
theorem keepsOrder_afterRead (s : State) : KeepsOrder s s.afterRead :=
  ⟨List.prefix_rfl, Nat.le_add_right _ _, List.tail_suffix _⟩

/-- A request keeps the order of the effects, and takes nothing that waits. -/
theorem exec_keepsOrder {i : Instr} {s t : State} (h : exec i s = .next t) : KeepsOrder s t ∧ t.inbox = s.inbox := by
  obtain ⟨w0, w1, w2, tref, r, -, rfl⟩ | ⟨f, r, rfl⟩ | ⟨r, -, rfl⟩ | ⟨r, rfl⟩ := exec_next_cases h
  · exact ⟨keepsOrder_of_eq rfl rfl rfl, rfl⟩
  · exact ⟨keepsOrder_offer s f, rfl⟩
  · exact ⟨keepsOrder_afterRead s, rfl⟩
  · exact ⟨keepsOrder_of_eq rfl rfl rfl, rfl⟩

/-- A step keeps the order of the effects, and takes the first of what waits. -/
theorem step_keepsOrder {s t : State} (h : step s = .next t) : KeepsOrder s t ∧ t.inbox = s.inbox.tail := by
  obtain ⟨hin, rfl⟩ | ⟨rest, -, rfl⟩ | ⟨r, rest, i, -, -, hexec⟩ | ⟨r, rest, f, -, -, rfl⟩ := step_next_cases h
  · exact ⟨keepsOrder_of_eq rfl rfl rfl, by rw [quiet_inbox, hin, List.tail_nil]⟩
  · exact ⟨keepsOrder_of_eq rfl rfl rfl, rfl⟩
  · exact exec_keepsOrder hexec
  · exact ⟨keepsOrder_of_eq rfl rfl rfl, rfl⟩

/-- Settles O12: a step serves the first stimulus, and what serving it appends, consumes and takes keeps the order. -/
theorem effectsKeepRequestOrder : Obligations.EffectsKeepRequestOrder := by
  unfold Obligations.EffectsKeepRequestOrder
  intro s t h
  obtain ⟨⟨hsink, hcons, hsource⟩, hinbox⟩ := step_keepsOrder h
  exact ⟨hsink, hcons, hsource, hinbox⟩

/-! ### Runs from what the inputs can carry -/

/-- Decoding the record of a well-formed instruction gives it back. -/
theorem decode_encode {i : Instr} (h : i.wellFormed = true) : decode (encode i) = .ok i := by
  cases i with
  | sb p => exact Laws.RoundTrip.sb p h
  | sw p => exact Laws.RoundTrip.sw p h
  | sm p => exact Laws.RoundTrip.sm p h
  | rm p => exact Laws.RoundTrip.rm p h
  | rr addr => exact Laws.RoundTrip.rr addr h
  | wr addr data => exact Laws.RoundTrip.wr addr data h
  | ex => exact Laws.RoundTrip.ex h
  | hr => exact Laws.RoundTrip.hr h
  | hs => exact Laws.RoundTrip.hs h
  | rt => exact Laws.RoundTrip.rt h
  | fget addr word idx => exact Laws.RoundTrip.fget addr word idx h
  | fset addr word idx value => exact Laws.RoundTrip.fset addr word idx value h
  | dgain addr word => exact Laws.RoundTrip.dgain addr word h
  | dtcmp addr word => exact Laws.RoundTrip.dtcmp addr word h
  | dhall addr word => exact Laws.RoundTrip.dhall addr word h
  | dzser addr word => exact Laws.RoundTrip.dzser addr word h
  | dbist addr word => exact Laws.RoundTrip.dbist addr word h
  | dres addr word => exact Laws.RoundTrip.dres addr word h
  | egain addr word gain => exact Laws.RoundTrip.egain addr word gain h
  | etcmp addr word b => exact Laws.RoundTrip.etcmp addr word b h
  | ezser addr word b => exact Laws.RoundTrip.ezser addr word b h
  | ebist addr word b => exact Laws.RoundTrip.ebist addr word b h
  | snapcap w0 w1 w2 tref => exact Laws.RoundTrip.snapcap w0 w1 w2 tref h
  | snapq => exact Laws.RoundTrip.snapq h
  | cmdenc base chans addr data => exact Laws.RoundTrip.cmdenc base chans addr data h
  | stdec b => exact Laws.RoundTrip.stdec b h
  | rmdec chans b => exact Laws.RoundTrip.rmdec chans b h
  | rrdec b => exact Laws.RoundTrip.rrdec b h
  | s1dec b => exact Laws.RoundTrip.s1dec b h
  | conv chans raw => exact Laws.RoundTrip.conv chans raw h
  | ser m => exact Laws.RoundTrip.ser m h
  | deser d => exact Laws.RoundTrip.deser d h
  | cenc b => exact Laws.RoundTrip.cenc b h
  | cdec c => exact Laws.RoundTrip.cdec c h
  | fwrite f => exact Laws.RoundTrip.fwrite f h
  | fread => exact Laws.RoundTrip.fread h
  | msgtx m => exact Laws.RoundTrip.msgtx m h

/-- The inputs carry every record that decodes. -/
theorem goodStimulus_of_decode {r : Record} {i : Instr} (h : decode r = .ok i) : goodStimulus (.record r) = true := by
  simp only [goodStimulus, serve_of_decode h]

/-- A malformed record is nothing the inputs carry. -/
theorem goodStimulus_of_malformed {r : Record} {e : DecodeError} (h : serve r = .malformed e) :
    goodStimulus (.record r) = false := by
  simp only [goodStimulus, h]

/-- `exec` answers a next state for every instruction in every state (R311). -/
theorem exec_goes_on (i : Instr) (s : State) : ∃ t, exec i s = .next t := by
  obtain ⟨w0, w1, w2, tref, rfl⟩ | ⟨f, r, hwrite⟩ | rfl | ⟨r, hanswer⟩ := exec_cases i s
  · exact ⟨_, exec_snapcap w0 w1 w2 tref s⟩
  · exact ⟨_, hwrite.trans (finish_eq _ _)⟩
  · exact ⟨_, (exec_fread s).trans (finish_eq _ _)⟩
  · exact ⟨_, hanswer⟩

/-- A step goes on from every first stimulus that the inputs can carry. -/
theorem step_goes_on {s : State} {x : Stimulus} {rest : List Stimulus} (hin : s.inbox = x :: rest)
    (hx : goodStimulus x = true) : ∃ t, step s = .next t := by
  cases x with
  | reset => exact ⟨s.advance.blockReset, by simp only [step, nextOf, hin]⟩
  | record r =>
    have hnext : nextOf s = serve r := nextOf_record hin
    obtain ⟨i, -, hserve⟩ | ⟨f, hserve⟩ | ⟨e, hserve⟩ := serve_cases r
    · simp only [step, hnext, hserve]
      exact exec_goes_on i s.advance
    · exact ⟨s.advance.raise f, by simp only [step, hnext, hserve]⟩
    · rw [goodStimulus_of_malformed hserve] at hx
      cases hx

/-- A run's first step. -/
theorem run_succ {M : Host.Core} {s t : M.State} (h : M.step s = .next t) (k : Nat) : M.run (k + 1) s = M.run k t := by
  rw [Host.Core.run, h]

/-- As many steps as stimuli wait serve them all, in one unstopped run. -/
theorem run_serves {waiting : List Stimulus} : ∀ {s : State}, s.inbox = waiting → waiting.all goodStimulus = true →
    ∃ t, Host.Core.run core waiting.length s = .next t ∧ t.inbox = [] ∧ s.sink <+: t.sink := by
  induction waiting with
  | nil => exact fun {s} hin _ => ⟨s, rfl, hin, List.prefix_rfl⟩
  | cons x rest ih =>
    intro s hin hall
    obtain ⟨hx, hrest⟩ : goodStimulus x = true ∧ rest.all goodStimulus = true := by
      rwa [List.all_cons, Bool.and_eq_true] at hall
    obtain ⟨t, hstep⟩ := step_goes_on hin hx
    obtain ⟨⟨hsink, -, -⟩, hinbox⟩ := step_keepsOrder hstep
    obtain ⟨u, hrun, hempty, hsink'⟩ := ih (by rw [hinbox, hin, List.tail_cons] : t.inbox = rest) hrest
    exact ⟨u, (run_succ (M := core) hstep _).trans hrun, hempty, hsink.trans hsink'⟩

/-- Asking well-formed requests leaves the inputs with what they can carry. -/
theorem ask_wellPosed {s : State} {is : List Instr} (hs : s.wellPosed = true)
    (his : ∀ i ∈ is, i.wellFormed = true) : (s.ask is).wellPosed = true := by
  have hasked : (is.map fun i => Stimulus.record (encode i)).all goodStimulus = true := by
    rw [List.all_map, List.all_eq_true]
    exact fun i hi => goodStimulus_of_decode (decode_encode (his i hi))
  unfold State.wellPosed at hs ⊢
  rw [State.ask, List.all_append, hs, hasked, Bool.and_self]

/-- Settles O6: by induction on what waits, each step of the run serves one stimulus and only appends to the sink. -/
theorem runsServeEveryStimulus : Obligations.RunsServeEveryStimulus := by
  unfold Obligations.RunsServeEveryStimulus
  exact ⟨fun _ hs => run_serves rfl hs, fun _ _ hs his => ask_wellPosed hs his⟩

end Sys2Proof.Machine

/-! ### Encodings -/

namespace Sys2Proof.Machine

/-! ### Records and the instructions they encode -/

/-- Settles O57: the round trip of each instruction's record. -/
theorem decodeInvertsEncode : Obligations.DecodeInvertsEncode := by
  unfold Obligations.DecodeInvertsEncode
  exact fun _ => decode_encode

/-- Settles O58: the decoder runs on each word. -/
theorem specWordsDecode : Obligations.SpecWordsDecode := by
  unfold Obligations.SpecWordsDecode
  exact ⟨rfl, rfl, rfl, rfl, rfl, rfl, rfl, rfl, rfl, rfl⟩

/-! ### Records that the port answers itself -/

/-- A step that the port answers itself raises the fault and changes nothing else. -/
theorem step_of_answer {s : State} {r : Record} {rest : List Stimulus} {f : ReqFault}
    (hin : s.inbox = .record r :: rest) (h : serve r = .answer f) :
    step s = .next (State.raise { s with inbox := rest } f) := by
  have hnext : nextOf s = .answer f := (nextOf_record hin).trans h
  simp only [step, hnext, advance_cons hin]

theorem serve_of_unassignedOp {r : Record} {op : Byte} (h : decode r = .error (.unassignedOp op)) :
    serve r = .answer (.illegalRequest op) := by
  simp only [serve, h]

theorem serve_of_unknownCommand {r : Record} {c : Byte} (h : decode r = .error (.unknownCommand c)) :
    serve r = .answer (.illegalRequest c) := by
  simp only [serve, h]

/-- R84: the ops between and above those of R82's map have no operands. -/
theorem portOperands_unassigned {n : Nat} (h : n = 0 ∨ (0x0D ≤ n ∧ n ≤ 0x0F) ∨ (0x12 ≤ n ∧ n ≤ 0x1F) ∨
    (0x25 ≤ n ∧ n ≤ 0x2F) ∨ (0x31 ≤ n ∧ n ≤ 0x3F) ∨ 0x47 ≤ n) : portOperands n = none := by
  unfold portOperands
  split
  on_goal 28 => rfl
  all_goals omega

/-- Settles O2: such an op has no operands in R82's map, so the port answers its record itself. -/
theorem unassignedOpsFaultIllegalRequest : Obligations.UnassignedOpsFaultIllegalRequest := by
  unfold Obligations.UnassignedOpsFaultIllegalRequest
  intro s op operands rest hin hop
  have hdec : decode ⟨.port, op :: operands⟩ = .error (.unassignedOp op) := by
    simp only [decode, decodePort, portOperands_unassigned hop]
  exact step_of_answer hin (serve_of_unassignedOp hdec)

/-- R89: a high nibble that no command has. -/
theorem decodeBus_unusedNibble {c : Byte} (h : c.toNat / 16 ∈ [0x0, 0x7, 0x9, 0xA, 0xB, 0xC]) (rest : List Byte) :
    decodeBus (c :: rest) = .error (.unknownCommand c) := by
  simp only [List.mem_cons, List.not_mem_nil, or_false] at h
  rcases h with h | h | h | h | h | h <;> simp only [decodeBus, h]

theorem plainCommand_lowNibble {c : Byte} (h : c.toNat % 16 ≠ 0) (p : Parser Instr) (rest : List Byte) :
    plainCommand c p rest = .error (.unknownCommand c) := by
  rw [plainCommand, if_neg h]

/-- R89: the low nibble of a command without channels is 0. -/
theorem decodeBus_lowNibble {c : Byte} (hhigh : c.toNat / 16 ∈ [0x5, 0x6, 0x8, 0xD, 0xE, 0xF])
    (hlow : c.toNat % 16 ≠ 0) (rest : List Byte) : decodeBus (c :: rest) = .error (.unknownCommand c) := by
  simp only [List.mem_cons, List.not_mem_nil, or_false] at hhigh
  rcases hhigh with h | h | h | h | h | h <;> simp only [decodeBus, h, plainCommand_lowNibble hlow]

/-- Settles O3: the decoder refuses such a byte by name, so the port answers its record itself. -/
theorem unknownCommandBytesFaultIllegalRequest : Obligations.UnknownCommandBytesFaultIllegalRequest := by
  unfold Obligations.UnknownCommandBytesFaultIllegalRequest
  intro s c operands rest hin hc
  have hdec : decode ⟨.bus, c :: operands⟩ = .error (.unknownCommand c) := by
    obtain hhigh | ⟨hhigh, hlow⟩ := hc
    · exact decodeBus_unusedNibble hhigh operands
    · exact decodeBus_lowNibble hhigh hlow operands
  exact step_of_answer hin (serve_of_unknownCommand hdec)

end Sys2Proof.Machine

/-! ### Command frames -/

namespace Sys2Proof.Machine

/-! ### Which requests return a command frame -/

theorem bytesResult_ne_frame {r : Except ReqFault (List Byte)} {f : CmdFrame} : bytesResult r ≠ .ok (.frame f) := by
  cases r <;> nofun

/-- A frame stands on the port as the results of CMDENC's row, and of no other. -/
theorem Answers.row_of_frame {row : Option (List Nat)} {r : Except ReqFault Result} {f : CmdFrame}
    (hr : Answers row r) (h : r = .ok (.frame f)) : row = some [8, 8, 8, 8, 8, 8] := by
  cases hr _ h
  rfl

/-- A request that returns a frame has CMDENC's row, well-formed or not. -/
theorem resultWidths_of_frame {i : Instr} {s : State} {f : CmdFrame} (h : Returns i s (.frame f)) :
    resultWidths i = some [8, 8, 8, 8, 8, 8] := by
  by_cases hwf : i.wellFormed = true
  · obtain ⟨u, r, hexec, hr⟩ := exec_answers i s hwf
    exact hr.row_of_frame (finish_returned (hexec.symm.trans h))
  · cases i
    case rr => rfl
    case wr => rfl
    case rmdec => exact (answers_rmDecode _ _).row_of_frame (finish_returned h)
    case rrdec => exact (answers_rrDecode _).row_of_frame (finish_returned h)
    case s1dec => exact (answers_s1Decode _).row_of_frame (finish_returned h)
    case deser => exact (answers_messageResult _).row_of_frame (finish_returned h)
    case cenc => exact absurd (finish_returned h) bytesResult_ne_frame
    case cdec => exact absurd (finish_returned h) bytesResult_ne_frame
    case fwrite => exact (answers_writeAnswer (.fields (by nofun)) _ _).row_of_frame (finish_returned h)
    all_goals exact absurd rfl hwf

/-- The frame that a request returns is the one its command forms. -/
theorem frame_of_exec {i : Instr} {s : State} {r : Except ReqFault CmdFrame} {f : CmdFrame}
    (hexec : exec i s = finish s (frameResult r)) (h : Returns i s (.frame f)) : r = .ok f := by
  have hr : frameResult r = .ok (.frame f) := finish_returned (hexec.symm.trans h)
  cases r with
  | ok g => exact congrArg _ (Result.frame.inj (Except.ok.inj hr))
  | error e => nomatch hr

/-- Whatever request returns a frame, CMDENC forms it too: a command's frame for that command's base byte. -/
theorem commandFrame_of_returns {i : Instr} {s : State} {f : CmdFrame} (h : Returns i s (.frame f)) :
    ∃ base chans addr data, commandFrame base chans addr data = .ok f := by
  have hrow := resultWidths_of_frame h
  cases i
  case cmdenc base chans addr data => exact ⟨_, _, _, _, frame_of_exec (exec_cmdenc base chans addr data s) h⟩
  case sb p => exact ⟨0x10#8, p, 0#8, 0#16, frame_of_exec (exec_sb p s) h⟩
  case sw p => exact ⟨0x20#8, p, 0#8, 0#16, frame_of_exec (exec_sw p s) h⟩
  case sm p => exact ⟨0x30#8, p, 0#8, 0#16, frame_of_exec (exec_sm p s) h⟩
  case rm p => exact ⟨0x40#8, p, 0#8, 0#16, frame_of_exec (exec_rm p s) h⟩
  case rr addr => exact ⟨0x50#8, 0#4, addr, 0#16, frame_of_exec (exec_rr addr s) h⟩
  case wr addr data => exact ⟨0x60#8, 0#4, addr, data, frame_of_exec (exec_wr addr data s) h⟩
  case ex => exact ⟨0x80#8, 0#4, 0#8, 0#16, frame_of_exec (exec_ex s) h⟩
  case hr => exact ⟨0xD0#8, 0#4, 0#8, 0#16, frame_of_exec (exec_hr s) h⟩
  case hs => exact ⟨0xE0#8, 0#4, 0#8, 0#16, frame_of_exec (exec_hs s) h⟩
  case rt => exact ⟨0xF0#8, 0#4, 0#8, 0#16, frame_of_exec (exec_rt s) h⟩
  all_goals cases hrow

/-! ### The shape of a command frame -/

/-- R89: a command byte that the block produces. -/
abbrev ProducedByte (c : Byte) : Prop :=
  c.toNat / 16 ∉ [0x0, 0x7, 0x9, 0xA, 0xB, 0xC] ∧ (c.toNat / 16 ∈ [0x5, 0x6, 0x8, 0xD, 0xE, 0xF] → c.toNat % 16 = 0)

/-- R89, R90: a frame with such a command byte, of the length that byte gives, and 0x00 in the result bytes after it. -/
abbrev ProducedFrame (f : CmdFrame) : Prop :=
  ProducedByte f.b0 ∧ f.len.toNat = lenOfCommandByte f.b0 ∧
    (f.len.toNat < 2 → f.b1 = 0#8) ∧ (f.len.toNat < 4 → f.b2 = 0#8 ∧ f.b3 = 0#8)

theorem frame1_produced {c : Byte} (h : ProducedByte c ∧ lenOfCommandByte c = 1) (rlen : Byte) :
    ProducedFrame (frame1 c rlen) :=
  ⟨h.1, h.2.symm, fun _ => rfl, fun _ => ⟨rfl, rfl⟩⟩

/-- R85, R86: the bases that take a ChannelSet give a one-byte frame with each of the 16 sets. -/
theorem withChans_produced : ∀ base ∈ [0x10#8, 0x20#8, 0x30#8, 0x40#8], ∀ p : ChannelSet,
    ProducedByte (withChans base p) ∧ lenOfCommandByte (withChans base p) = 1 := by decide

/-- R77: an accepted address does not change the frame. -/
theorem eq_of_checkAddr_ok {addr : Byte} {f g : CmdFrame} (h : checkAddr addr f = .ok g) : f = g := by
  unfold checkAddr at h
  split at h
  · cases h
  · exact Except.ok.inj h

theorem rrFrame_produced {addr : Byte} {f : CmdFrame} (h : rrFrame addr = .ok f) : ProducedFrame f := by
  obtain ⟨hbyte, hlen⟩ : ProducedByte 0x50#8 ∧ lenOfCommandByte 0x50#8 = 2 := by decide
  rw [← eq_of_checkAddr_ok h]
  exact ⟨hbyte, hlen.symm, by simp, fun _ => ⟨rfl, rfl⟩⟩

theorem wrFrame_produced {addr : Byte} {data : Word16} {f : CmdFrame} (h : wrFrame addr data = .ok f) :
    ProducedFrame f := by
  obtain ⟨hbyte, hlen⟩ : ProducedByte 0x60#8 ∧ lenOfCommandByte 0x60#8 = 4 := by decide
  rw [← eq_of_checkAddr_ok h]
  exact ⟨hbyte, hlen.symm, by simp, by simp⟩

/-- Every frame that CMDENC forms, base byte by base byte (R150). -/
theorem commandFrame_produced {base : Byte} {chans : ChannelSet} {addr : Byte} {data : Word16} {f : CmdFrame}
    (h : commandFrame base chans addr data = .ok f) : ProducedFrame f := by
  unfold commandFrame at h
  split at h
  · exact Except.ok.inj h ▸ frame1_produced (withChans_produced 0x10#8 (by decide) chans) _
  · exact Except.ok.inj h ▸ frame1_produced (withChans_produced 0x20#8 (by decide) chans) _
  · exact Except.ok.inj h ▸ frame1_produced (withChans_produced 0x30#8 (by decide) chans) _
  · exact Except.ok.inj h ▸ frame1_produced (withChans_produced 0x40#8 (by decide) chans) _
  · exact rrFrame_produced h
  · exact wrFrame_produced h
  · exact Except.ok.inj h ▸ frame1_produced (c := 0x80#8) (by decide) _
  · exact Except.ok.inj h ▸ frame1_produced (c := 0xD0#8) (by decide) _
  · exact Except.ok.inj h ▸ frame1_produced (c := 0xE0#8) (by decide) _
  · exact Except.ok.inj h ▸ frame1_produced (c := 0xF0#8) (by decide) _
  · nomatch h

/-- Settles O30: whatever request returns the frame, it is one that CMDENC forms. -/
theorem producedCommandBytes : Obligations.ProducedCommandBytes := by
  unfold Obligations.ProducedCommandBytes
  intro i s f h
  obtain ⟨base, chans, addr, data, hframe⟩ := commandFrame_of_returns h
  obtain ⟨⟨hhigh, hlow⟩, hlen, hb1, hb23⟩ := commandFrame_produced hframe
  exact ⟨hhigh, hlow, hlen, hb1, hb23⟩

/-- R85: the bytes of the frame that a command returns are those of the record it is encoded as. -/
theorem encode_of_frame {i : Instr} {s : State} {f : CmdFrame} (hbus : (encode i).space = .bus)
    (h : Returns i s (.frame f)) : encode i = busRecord (frameBytes f) := by
  cases i
  case sb p => exact Except.ok.inj (frame_of_exec (exec_sb p s) h) ▸ rfl
  case sw p => exact Except.ok.inj (frame_of_exec (exec_sw p s) h) ▸ rfl
  case sm p => exact Except.ok.inj (frame_of_exec (exec_sm p s) h) ▸ rfl
  case rm p => exact Except.ok.inj (frame_of_exec (exec_rm p s) h) ▸ rfl
  case rr addr => exact eq_of_checkAddr_ok (frame_of_exec (exec_rr addr s) h) ▸ rfl
  case wr addr data => exact eq_of_checkAddr_ok (frame_of_exec (exec_wr addr data s) h) ▸ rfl
  case ex => exact Except.ok.inj (frame_of_exec (exec_ex s) h) ▸ rfl
  case hr => exact Except.ok.inj (frame_of_exec (exec_hr s) h) ▸ rfl
  case hs => exact Except.ok.inj (frame_of_exec (exec_hs s) h) ▸ rfl
  case rt => exact Except.ok.inj (frame_of_exec (exec_rt s) h) ▸ rfl
  all_goals cases hbus

/-- Settles O31: the frame's bytes are the encoder's record, which decodes to the command. -/
theorem producedFramesDecodeToTheirCommand : Obligations.ProducedFramesDecodeToTheirCommand := by
  unfold Obligations.ProducedFramesDecodeToTheirCommand
  intro i s f hbus hwf h
  have hencode : encode i = ⟨.bus, frameBytes f⟩ := encode_of_frame hbus h
  exact ⟨hencode, hencode ▸ decode_encode hwf⟩

end Sys2Proof.Machine

/-! ### Written requests -/

namespace Sys2Proof.Machine

/-! ### Operands of a written request -/

section Operands
variable (a : Byte) (w : Word16)

theorem onRegister_toNat (k : Byte → Word16 → Instr) : onRegister k [.number a.toNat, .number w.toNat] = some (k a w) := by
  simp [onRegister]

theorem onRegisterBit_toNat (k : Byte → Word16 → Bool → Instr) (x : Bool) :
    onRegisterBit k [.number a.toNat, .number w.toNat, .flag x] = some (k a w x) := by
  simp [onRegisterBit]

theorem onBytes_of_le (k : List Byte → Instr) {b : List Byte} (h : b.length ≤ 255) :
    onBytes k [.bytes b] = some (k b) := by
  simp [onBytes, vecOperand_of_le h]

theorem onChannels_of_mem_iff (base : Byte) {cs : List Channel} {p : ChannelSet}
    (h : ∀ c, c ∈ cs ↔ hasChannel p c = true) : onChannels base [.chans cs] = some (.cmdenc base p 0#8 0#16) := by
  rw [onChannels, channelMask_eq h]

/-! ### Written requests whose operands have a shape of their own -/

theorem assemble_fget {name : String} {idx : BitVec 5} (h : fieldIdx name = some idx) :
    assemble "FGET" [.number a.toNat, .number w.toNat, .field name] = some (.fget a w idx) := by
  change (do return Instr.fget (← byteOperand a.toNat) (← wordOperand w.toNat) (← fieldIdx name)) = _
  simp [h]

theorem assemble_fset {name : String} {idx : BitVec 5} (h : fieldIdx name = some idx) (v : Word16) :
    assemble "FSET" [.number a.toNat, .number w.toNat, .field name, .number v.toNat] = some (.fset a w idx v) := by
  change (do
    return Instr.fset (← byteOperand a.toNat) (← wordOperand w.toNat) (← fieldIdx name)
      (← wordOperand v.toNat)) = _
  simp [h]

theorem assemble_egain (g : Byte) :
    assemble "EGAIN" [.number a.toNat, .number w.toNat, .number g.toNat] = some (.egain a w g) := by
  change (do return Instr.egain (← byteOperand a.toNat) (← wordOperand w.toNat) (← byteOperand g.toNat)) = _
  simp

theorem assemble_snapcap (w0 w1 w2 tref : Word16) :
    assemble "SNAPCAP" [.number w0.toNat, .number w1.toNat, .number w2.toNat, .number tref.toNat] =
      some (.snapcap w0 w1 w2 tref) := by
  change (do
    return Instr.snapcap (← wordOperand w0.toNat) (← wordOperand w1.toNat) (← wordOperand w2.toNat)
      (← wordOperand tref.toNat)) = _
  simp

theorem assemble_stdec : assemble "STDEC" [.number a.toNat] = some (.stdec a) := by
  change (do return Instr.stdec (← byteOperand a.toNat)) = _
  simp

theorem assemble_rr : assemble "CMDENC" [.command "RR", .number a.toNat] = some (.cmdenc 0x50#8 0#4 a 0#16) := by
  change (do return Instr.cmdenc 0x50#8 0#4 (← byteOperand a.toNat) 0#16) = _
  simp

theorem assemble_wr :
    assemble "CMDENC" [.command "WR", .number a.toNat, .number w.toNat] = some (.cmdenc 0x60#8 0#4 a w) := by
  change (do return Instr.cmdenc 0x60#8 0#4 (← byteOperand a.toNat) (← wordOperand w.toNat)) = _
  simp

end Operands

section Channels
variable {cs : List Channel} {p : ChannelSet} (h : ∀ c, c ∈ cs ↔ hasChannel p c = true)
include h

theorem assemble_sm : assemble "CMDENC" [.command "SM", .chans cs] = some (.cmdenc 0x30#8 p 0#8 0#16) :=
  onChannels_of_mem_iff 0x30#8 h

theorem assemble_rm : assemble "CMDENC" [.command "RM", .chans cs] = some (.cmdenc 0x40#8 p 0#8 0#16) :=
  onChannels_of_mem_iff 0x40#8 h

theorem assemble_conv (raw : RawSample) : assemble "CONV" [.chans cs, .sample raw] = some (.conv p raw) := by
  rw [← channelMask_eq h]
  rfl

theorem assemble_rmdec {b : List Byte} (hb : b.length ≤ 255) :
    assemble "RMDEC" [.chans cs, .bytes b] = some (.rmdec p b) := by
  change (do return Instr.rmdec (channelMask cs) (← vecOperand b)) = _
  simp [vecOperand_of_le hb, channelMask_eq h]

end Channels

theorem assemble_rrdec {b : List Byte} (h : b.length ≤ 255) : assemble "RRDEC" [.bytes b] = some (.rrdec b) :=
  onBytes_of_le .rrdec h

theorem assemble_s1dec {b : List Byte} (h : b.length ≤ 255) : assemble "S1DEC" [.bytes b] = some (.s1dec b) :=
  onBytes_of_le .s1dec h

/-! ### What assembles is well-formed -/

/-- A written line stands for no request, or for a well-formed one. -/
def OnlyWellFormed (r : Option Instr) : Prop := ∀ i, r = some i → i.wellFormed = true

theorem OnlyWellFormed.of_none : OnlyWellFormed none := by nofun

theorem OnlyWellFormed.of_some {i : Instr} (h : i.wellFormed = true) : OnlyWellFormed (some i) := by
  rintro _ ⟨⟩
  exact h

/-- An operand that is read first. -/
theorem OnlyWellFormed.bind {α : Type} {x : Option α} {f : α → Option Instr}
    (h : ∀ a, x = some a → OnlyWellFormed (f a)) : OnlyWellFormed (x >>= f) := by
  cases x with
  | none => exact .of_none
  | some a => exact h a rfl

theorem onRegister_onlyWellFormed {k : Byte → Word16 → Instr} (hk : ∀ a w, (k a w).wellFormed = true)
    (ops : List Operand) : OnlyWellFormed (onRegister k ops) := by
  unfold onRegister
  split
  · exact .bind fun a _ => .bind fun w _ => .of_some (hk a w)
  · exact .of_none

theorem onRegisterBit_onlyWellFormed {k : Byte → Word16 → Bool → Instr} (hk : ∀ a w x, (k a w x).wellFormed = true)
    (ops : List Operand) : OnlyWellFormed (onRegisterBit k ops) := by
  unfold onRegisterBit
  split
  · exact .bind fun a _ => .bind fun w _ => .of_some (hk a w _)
  · exact .of_none

theorem onBytes_onlyWellFormed {k : List Byte → Instr} (hk : ∀ b, (k b).wellFormed = vecOk b) (ops : List Operand) :
    OnlyWellFormed (onBytes k ops) := by
  unfold onBytes
  split
  · exact .bind fun b hb => .of_some ((hk b).trans (vecOk_of_vecOperand hb))
  · exact .of_none

theorem onChannels_onlyWellFormed (base : Byte) (ops : List Operand) : OnlyWellFormed (onChannels base ops) := by
  unfold onChannels
  split
  · exact .of_some rfl
  · exact .of_none

theorem onNothing_onlyWellFormed (base : Byte) (ops : List Operand) : OnlyWellFormed (onNothing base ops) := by
  unfold onNothing
  split
  · exact .of_some rfl
  · exact .of_none

theorem assembleCommand_onlyWellFormed (name : String) (ops : List Operand) :
    OnlyWellFormed (assembleCommand name ops) := by
  unfold assembleCommand
  split
  · exact onChannels_onlyWellFormed _ _
  · exact onChannels_onlyWellFormed _ _
  · exact onChannels_onlyWellFormed _ _
  · exact onChannels_onlyWellFormed _ _
  · split
    · exact .bind fun _ _ => .of_some rfl
    · exact .of_none
  · split
    · exact .bind fun _ _ => .bind fun _ _ => .of_some rfl
    · exact .of_none
  · exact onNothing_onlyWellFormed _ _
  · exact onNothing_onlyWellFormed _ _
  · exact onNothing_onlyWellFormed _ _
  · exact onNothing_onlyWellFormed _ _
  · exact .of_none

/-- R81, R93: case by case in the order of `assemble`, a byte vector is the one operand that has a bound to keep. -/
theorem assemble_onlyWellFormed (mnemonic : String) (ops : List Operand) : OnlyWellFormed (assemble mnemonic ops) := by
  unfold assemble
  split
  · split
    · exact .bind fun _ _ => .bind fun _ _ => .bind fun _ _ => .of_some rfl
    · exact .of_none
  · split
    · exact .bind fun _ _ => .bind fun _ _ => .bind fun _ _ => .bind fun _ _ => .of_some rfl
    · exact .of_none
  · exact onRegister_onlyWellFormed (fun _ _ => rfl) ops
  · exact onRegister_onlyWellFormed (fun _ _ => rfl) ops
  · exact onRegister_onlyWellFormed (fun _ _ => rfl) ops
  · exact onRegister_onlyWellFormed (fun _ _ => rfl) ops
  · exact onRegister_onlyWellFormed (fun _ _ => rfl) ops
  · exact onRegister_onlyWellFormed (fun _ _ => rfl) ops
  · split
    · exact .bind fun _ _ => .bind fun _ _ => .bind fun _ _ => .of_some rfl
    · exact .of_none
  · exact onRegisterBit_onlyWellFormed (fun _ _ _ => rfl) ops
  · exact onRegisterBit_onlyWellFormed (fun _ _ _ => rfl) ops
  · exact onRegisterBit_onlyWellFormed (fun _ _ _ => rfl) ops
  · split
    · exact .bind fun _ _ => .bind fun _ _ => .bind fun _ _ => .bind fun _ _ => .of_some rfl
    · exact .of_none
  · split
    · exact .of_some rfl
    · exact .of_none
  · split
    · exact assembleCommand_onlyWellFormed _ _
    · exact .of_none
  · split
    · exact .bind fun _ _ => .of_some rfl
    · exact .of_none
  · split
    · exact .bind fun _ hb => .of_some (vecOk_of_vecOperand hb)
    · exact .of_none
  · exact onBytes_onlyWellFormed (fun _ => rfl) ops
  · exact onBytes_onlyWellFormed (fun _ => rfl) ops
  · split
    · exact .of_some rfl
    · exact .of_none
  · split
    · exact .of_some rfl
    · exact .of_none
  · exact onBytes_onlyWellFormed (fun _ => rfl) ops
  · exact onBytes_onlyWellFormed (fun _ => rfl) ops
  · exact onBytes_onlyWellFormed (fun _ => rfl) ops
  · exact onBytes_onlyWellFormed (fun _ => rfl) ops
  · split
    · exact .of_some rfl
    · exact .of_none
  · split
    · exact .of_some rfl
    · exact .of_none
  · exact .of_none

/-! ### The pseudo-sequences -/

/-- R94: the written requests of MEASURE_CYCLE. -/
theorem measureCycle_assembles {cs : List Channel} {p : ChannelSet} (h : ∀ c, c ∈ cs ↔ hasChannel p c = true)
    (px py pz : F32) {sm rm : List Byte} (hsm : sm.length ≤ 255) (hrm : rm.length ≤ 255) (raw : RawSample)
    (field : MagneticField) : (measureCycle p px py pz sm rm raw field).map some =
      [assemble "CMDENC" [.command "SM", .chans cs], assemble "S1DEC" [.bytes sm],
       assemble "CMDENC" [.command "RM", .chans cs], assemble "RMDEC" [.chans cs, .bytes rm],
       assemble "CONV" [.chans cs, .sample raw], assemble "MSGTX" [.message ⟨field, px, py, pz⟩]] := by
  rw [assemble_sm h, assemble_s1dec hsm, assemble_rm h, assemble_rmdec h hrm, assemble_conv h]
  rfl

/-- R94: the written requests of REG_RMW. -/
theorem regRmw_assembles (addr : Byte) {name : String} {idx : BitVec 5} (h : fieldIdx name = some idx)
    (value word word' : Word16) {rr wr : List Byte} (hrr : rr.length ≤ 255) (hwr : wr.length ≤ 255) :
    (regRmw addr idx value rr wr word word').map some =
      [assemble "CMDENC" [.command "RR", .number addr.toNat], assemble "RRDEC" [.bytes rr],
       assemble "FSET" [.number addr.toNat, .number word.toNat, .field name, .number value.toNat],
       assemble "CMDENC" [.command "WR", .number addr.toNat, .number word'.toNat], assemble "S1DEC" [.bytes wr]] := by
  rw [assemble_rr, assemble_rrdec hrr, assemble_fset addr word h, assemble_wr, assemble_s1dec hwr]
  rfl

/-- Settles O59: each mnemonic with its operands assembles to its request, and a sequence is the list of such
requests. -/
theorem writtenRequestsAssemble : Obligations.WrittenRequestsAssemble := by
  unfold Obligations.WrittenRequestsAssemble
  refine ⟨fun a w v name idx h => ⟨assemble_fget a w h, assemble_fset a w h v⟩, fun a g w x => ?registers,
    assemble_snapcap, rfl, rfl, assemble_stdec, fun cs p h => ?channels,
    fun addr data => ⟨assemble_rr addr, assemble_wr addr data⟩, rfl, rfl, rfl, rfl, fun b h => ?vectors,
    fun m => ⟨rfl, rfl⟩, assemble_onlyWellFormed, rfl,
    fun cs p px py pz sm rm raw field h hsm hrm => measureCycle_assembles h px py pz hsm hrm raw field,
    fun addr name idx value word word' rr wr h hrr hwr => regRmw_assembles addr h value word word' hrr hwr⟩
  case registers =>
    exact ⟨onRegister_toNat a w .dgain, onRegister_toNat a w .dtcmp, onRegister_toNat a w .dhall,
      onRegister_toNat a w .dzser, onRegister_toNat a w .dbist, onRegister_toNat a w .dres, assemble_egain a w g,
      onRegisterBit_toNat a w .etcmp x, onRegisterBit_toNat a w .ezser x, onRegisterBit_toNat a w .ebist x⟩
  case channels =>
    exact ⟨onChannels_of_mem_iff 0x10#8 h, onChannels_of_mem_iff 0x20#8 h, assemble_sm h, assemble_rm h,
      assemble_conv h, fun b hb => assemble_rmdec h hb⟩
  case vectors =>
    exact ⟨assemble_rrdec h, assemble_s1dec h, onBytes_of_le .deser h, onBytes_of_le .cenc h, onBytes_of_le .cdec h,
      onBytes_of_le .fwrite h⟩

end Sys2Proof.Machine

/-! ### The register decoder -/

namespace Sys2Proof.Machine

/-! ### Ending a register request -/

section Answer
variable {i : Instr} {s : State}

/-- What a request returns is what its pseudocode returns. -/
theorem returns_iff {r : Except ReqFault Result} (h : exec i s = finish s r) {v : Result} :
    Returns i s v ↔ r = .ok v := by
  unfold Returns
  rw [h]
  constructor
  · exact finish_returned
  · rintro rfl
    exact finish_ok s v

/-- What a request raises is what its pseudocode raises. -/
theorem raises_iff {r : Except ReqFault Result} (h : exec i s = finish s r) {f : ReqFault} :
    Raises i s f ↔ r = .error f := by
  unfold Raises
  rw [h]
  constructor
  · exact finish_raised
  · rintro rfl
    exact finish_error s f

/-- R113: a request for register `a` raises AccessorMismatch on any other address. -/
theorem raises_accessorMismatch {addr a : Byte} {r : Except ReqFault Result}
    (h : exec i s = finish s (withTag addr a r)) (hne : addr ≠ a) : Raises i s (.accessorMismatch addr) :=
  (raises_iff h).mpr (withTag_other hne r)

/-- R113: on its own address a request returns what the rest of its pseudocode returns. -/
theorem returns_of_tagged {a : Byte} {v : Result} (h : exec i s = finish s (withTag a a (.ok v))) : Returns i s v :=
  (returns_iff h).mpr (withTag_same a _)

end Answer

/-! ### Generic field access -/

section GenericField
variable (addr : Byte) (word : Word16) {idx : BitVec 5}

/-- R112: FGET of an index without a row. -/
theorem fget_no_row (h : 23 < idx.toNat) : fget addr word idx = .error (.illegalRequest (idx.setWidth 8)) := by
  simp only [fget, cma_none h]

theorem fset_no_row (h : 23 < idx.toNat) (value : Word16) :
    fset addr word idx value = .error (.illegalRequest (idx.setWidth 8)) := by
  simp only [fset, cma_none h]

variable {a : Byte} {o l : Nat} (hrow : cma idx = .ok (a, o, l))
include hrow

/-- R110: FGET of an index with a row. -/
theorem fget_row : fget addr word idx = withTag addr a (.ok (.value (getField word o l))) := by
  simp only [fget, hrow]

/-- R111: FSET at an index with a row. -/
theorem fset_row (value : Word16) : fset addr word idx value =
    withTag addr a (if 2 ^ l ≤ value.toNat then .error (.fieldRange idx) else .ok (.word (setField word o l value))) := by
  simp only [fset, hrow]

/-- R110: FGET on the field's own register. -/
theorem returns_fget (s : State) : Returns (.fget a word idx) s (.value (getField word o l)) :=
  returns_of_tagged ((exec_fget a word idx s).trans (congrArg (finish s) (fget_row a word hrow)))

/-- R111: FSET on the field's own register, of a value that fits. -/
theorem returns_fset {value : Word16} (hfits : value.toNat < 2 ^ l) (s : State) :
    Returns (.fset a word idx value) s (.word (setField word o l value)) := by
  rw [returns_iff (exec_fset a word idx value s), fset_row a word hrow, withTag_same, if_neg (by omega)]

/-- R111: FSET on the field's own register, of a value that does not fit. -/
theorem raises_fset_fieldRange {value : Word16} (hbig : 2 ^ l ≤ value.toNat) (s : State) :
    Raises (.fset a word idx value) s (.fieldRange idx) := by
  rw [raises_iff (exec_fset a word idx value s), fset_row a word hrow, withTag_same, if_pos hbig]

end GenericField

/-- A field is its value as a word. -/
theorem getField_eq_ofNat (w : Word16) {o l : Nat} (h : o + l ≤ 16) :
    getField w o l = BitVec.ofNat 16 (w.toNat / 2 ^ o % 2 ^ l) := by
  rw [← toNat_getField w o l h, BitVec.ofNat_toNat, BitVec.setWidth_eq]

/-- Settles O17: FGET looks up the row, checks the address, and returns the field. -/
theorem fgetReturnsTheField : Obligations.FgetReturnsTheField := by
  unfold Obligations.FgetReturnsTheField
  refine fun s addr word idx => ⟨fun hidx => ?_, fun a o l hrow => ⟨fun hne => ?_, ?_⟩⟩
  · rw [raises_iff (exec_fget addr word idx s), fget_no_row addr word hidx]
  · rw [raises_iff (exec_fget addr word idx s), fget_row addr word hrow, withTag_other hne]
  · rintro rfl
    rw [← getField_eq_ofNat word (cma_bounds hrow).2]
    exact returns_fget word hrow s

/-- Settles O18: FSET looks up the row, checks the address and then the value, and replaces the field. -/
theorem fsetReplacesTheField : Obligations.FsetReplacesTheField := by
  unfold Obligations.FsetReplacesTheField
  refine fun s addr word idx value => ⟨fun hidx => ?_, fun a o l hrow => ⟨fun hne => ?_, ?_, ?_⟩⟩
  · rw [raises_iff (exec_fset addr word idx value s), fset_no_row addr word hidx]
  · rw [raises_iff (exec_fset addr word idx value s), fset_row addr word hrow, withTag_other hne]
  · rintro rfl hbig
    exact raises_fset_fieldRange word hrow hbig s
  · rintro rfl hfits
    refine ⟨setField word o l value, returns_fset word hrow hfits s,
      fun b hb => getLsbD_setField word value o l b hfits hb, ?_⟩
    have hback := returns_fget (setField word o l value) hrow s
    rwa [getField_setField word value o l (cma_bounds hrow).2 hfits] at hback

/-! ### Typed decodes -/

/-- R116: the pattern of w[3:0] as a number. -/
theorem toNat_hallBits (w : Word16) : (w.extractLsb' 0 4).toNat = w.toNat % 16 := by
  rw [BitVec.extractLsb'_toNat, Nat.shiftRight_zero]

theorem hallBits_eq_iff (w : Word16) (p : BitVec 4) : w.extractLsb' 0 4 = p ↔ w.toNat % 16 = p.toNat := by
  rw [← BitVec.toNat_inj, toNat_hallBits]

/-- R116: the hall configuration by the number its pattern is. -/
theorem hallOf_eq (w : Word16) : hallOf w =
    if w.toNat % 16 = 0b0000 then some .twoPhase else if w.toNat % 16 = 0b1100 then some .fourPhase else none := by
  simp only [hallOf, hallBits_eq_iff]
  rfl

theorem returns_dhall (word : Word16) (s : State) : Returns (.dhall 0#8 word) s (.hall (hallOf word)) :=
  returns_of_tagged (exec_dhall 0#8 word s)

/-- Settles O20: the pattern is 0000, 1100 or another. -/
theorem dhallDecodesTwoPatterns : Obligations.DhallDecodesTwoPatterns := by
  unfold Obligations.DhallDecodesTwoPatterns
  intro s addr word
  have hdecode := returns_dhall word s
  rw [hallOf_eq] at hdecode
  refine ⟨raises_accessorMismatch (exec_dhall addr word s), fun h0 => ?_, fun h12 => ?_, fun h0 h12 => ?_⟩
  · rwa [if_pos h0] at hdecode
  · rwa [if_neg (by omega), if_pos h12] at hdecode
  · rwa [if_neg h0, if_neg h12] at hdecode

/-- R114: GainSel as FGET reads it, in its 3 bits. -/
theorem gainOf_eq_getField (w : Word16) : gainOf w = (getField w 4 3).setWidth 3 := by
  apply BitVec.eq_of_toNat_eq
  rw [gainOf, BitVec.extractLsb'_toNat, BitVec.toNat_setWidth, toNat_getField w 4 3 (by decide),
    Nat.shiftRight_eq_div_pow, Nat.mod_mod]

theorem gainOf_eq_ofNat (w : Word16) : gainOf w = BitVec.ofNat 3 (w.toNat / 16 % 8) := by
  rw [gainOf_eq_getField, getField_eq_ofNat w (by decide), BitVec.setWidth_ofNat_of_le (by decide)]
  rfl

theorem returns_dgain (word : Word16) (s : State) : Returns (.dgain 0#8 word) s (.gain (gainOf word)) :=
  returns_of_tagged (exec_dgain 0#8 word s)

theorem returns_dtcmp (word : Word16) (s : State) : Returns (.dtcmp 1#8 word) s (.flag (tcmpOf word)) :=
  returns_of_tagged (exec_dtcmp 1#8 word s)

/-- Settles O19: each typed decode checks its register's address and reads its bits. -/
theorem typedDecodesReadTheirBits : Obligations.TypedDecodesReadTheirBits := by
  unfold Obligations.TypedDecodesReadTheirBits
  intro s addr word
  rw [← gainOf_eq_ofNat]
  exact ⟨raises_accessorMismatch (exec_dgain addr word s), returns_dgain word s,
    raises_accessorMismatch (exec_dtcmp addr word s), returns_dtcmp word s,
    raises_accessorMismatch (exec_dzser addr word s), returns_of_tagged (exec_dzser 0#8 word s),
    raises_accessorMismatch (exec_dbist addr word s), returns_of_tagged (exec_dbist 0#8 word s)⟩

/-! ### Resolutions -/

/-- R119: the X code. -/
theorem toNat_resolutionCode_resXOf (w : Word16) : (resolutionCode (resXOf w)).toNat = w.toNat / 2 ^ 5 % 4 := by
  rw [resXOf, resolutionCode_resolutionOf, BitVec.extractLsb'_toNat, Nat.shiftRight_eq_div_pow]

/-- R119: the Z code. -/
theorem toNat_resolutionCode_resZOf (w : Word16) : (resolutionCode (resZOf w)).toNat = w.toNat / 2 ^ 9 % 4 := by
  rw [resZOf, resolutionCode_resolutionOf, BitVec.extractLsb'_toNat, Nat.shiftRight_eq_div_pow]

theorem toNat_append_bits : ∀ v y : BitVec 1, (v ++ y).toNat = 2 * v.toNat + y.toNat := by decide

/-- R119: the Y code, its high bit the selector w[7] and its low bit w[8]. -/
theorem toNat_resolutionCode_resYOf (w : Word16) :
    (resolutionCode (resYOf w)).toNat = 2 * (w.toNat / 2 ^ 7 % 2) + w.toNat / 2 ^ 8 % 2 := by
  rw [resYOf, resolutionCode_resolutionOf, toNat_append_bits, BitVec.extractLsb'_toNat, BitVec.extractLsb'_toNat,
    Nat.shiftRight_eq_div_pow, Nat.shiftRight_eq_div_pow]

theorem returns_dres (word : Word16) (s : State) :
    Returns (.dres 2#8 word) s (.resolutions (resXOf word) (resYOf word) (resZOf word)) :=
  returns_of_tagged (exec_dres 2#8 word s)

/-- Settles O21: DRES checks the address and reads the three codes. -/
theorem dresReadsTheResolutionCodes : Obligations.DresReadsTheResolutionCodes := by
  unfold Obligations.DresReadsTheResolutionCodes
  refine ⟨⟨rfl, rfl, rfl, rfl⟩, fun s addr word => ⟨raises_accessorMismatch (exec_dres addr word s), ?_⟩⟩
  exact ⟨_, _, _, returns_dres word s, toNat_resolutionCode_resXOf word, toNat_resolutionCode_resYOf word,
    toNat_resolutionCode_resZOf word⟩

/-- The row of ResY (R36). -/
theorem cma_resY : cma 14#5 = .ok (2#8, 7, 2) := rfl

/-- The two bits of a 2-bit code, swapped. -/
def swapped (k : Nat) : Nat := 2 * (k % 2) + k / 2

theorem swapped_lt {k : Nat} (h : k < 4) : swapped k < 4 := by
  unfold swapped
  omega

theorem swapped_swapped {k : Nat} (h : k < 4) : swapped (swapped k) = k := by
  unfold swapped
  omega

/-- The swapped code as FSET's operand. -/
theorem toNat_ofNat_swapped (k : BitVec 2) : (BitVec.ofNat 16 (swapped k.toNat)).toNat = swapped k.toNat :=
  Nat.mod_eq_of_lt (Nat.lt_trans (swapped_lt k.isLt) (by decide))

/-- The swapped code fits the field ResY. -/
theorem toNat_ofNat_swapped_lt (k : BitVec 2) : (BitVec.ofNat 16 (swapped k.toNat)).toNat < 2 ^ 2 :=
  (toNat_ofNat_swapped k).trans_lt (swapped_lt k.isLt)

/-- R121: the Y code is the raw field of ResY with its bits swapped. -/
theorem toNat_resolutionCode_resYOf_eq_swapped (w : Word16) :
    (resolutionCode (resYOf w)).toNat = swapped (getField w 7 2).toNat := by
  rw [toNat_resolutionCode_resYOf, toNat_getField w 7 2 (by decide), swapped]
  omega

/-- R121: the Y code is the raw field of ResY itself exactly when its two bits are alike. -/
theorem resolutionCode_resYOf_eq_getField_iff (w : Word16) :
    (resolutionCode (resYOf w)).toNat = (getField w 7 2).toNat ↔ w.getLsbD 7 = w.getLsbD 8 := by
  rw [toNat_resolutionCode_resYOf, toNat_getField w 7 2 (by decide), BitVec.getLsbD, BitVec.getLsbD,
    Nat.testBit_eq_decide_div_mod_eq, Nat.testBit_eq_decide_div_mod_eq, decide_eq_decide]
  omega

/-- R126: with the swapped code in the field ResY, the Y code is that code. -/
theorem resolutionCode_resYOf_setField (w : Word16) (k : BitVec 2) :
    resolutionCode (resYOf (setField w 7 2 (BitVec.ofNat 16 (swapped k.toNat)))) = k := by
  apply BitVec.eq_of_toNat_eq
  rw [toNat_resolutionCode_resYOf_eq_swapped, getField_setField w _ 7 2 (by decide) (toNat_ofNat_swapped_lt k),
    toNat_ofNat_swapped, swapped_swapped k.isLt]

/-- Settles O22: FGET and DRES read the same two bits, in opposite orders. -/
theorem resYRawFieldIsTheCodeSwapped : Obligations.ResYRawFieldIsTheCodeSwapped := by
  unfold Obligations.ResYRawFieldIsTheCodeSwapped
  refine ⟨fun s word v x y z hfget hdres => ?_, fun s word k => ?_⟩
  · obtain rfl : getField word 7 2 = v := by
      simpa [fget_row _ _ cma_resY, withTag_same] using (returns_iff (exec_fget 2#8 word 14#5 s)).mp hfget
    obtain ⟨-, rfl, -⟩ : resXOf word = x ∧ resYOf word = y ∧ resZOf word = z := by
      simpa [withTag_same] using (returns_iff (exec_dres 2#8 word s)).mp hdres
    exact ⟨toNat_resolutionCode_resYOf_eq_swapped word, resolutionCode_resYOf_eq_getField_iff word⟩
  · exact ⟨_, _, _, _, returns_fset word cma_resY (toNat_ofNat_swapped_lt k) s, returns_dres _ s,
      resolutionCode_resYOf_setField word k⟩

/-! ### Typed encodes -/

theorem returns_egain {gain : Byte} (h : gain.toNat ≤ 7) (word : Word16) (s : State) :
    Returns (.egain 0#8 word gain) s (.word (setField word 4 3 (gain.setWidth 16))) := by
  rw [returns_iff (exec_egain 0#8 word gain s), egain, withTag_same, if_neg (by omega)]

theorem raises_egain_fieldRange {gain : Byte} (h : 7 < gain.toNat) (word : Word16) (s : State) :
    Raises (.egain 0#8 word gain) s (.fieldRange 1#5) := by
  rw [raises_iff (exec_egain 0#8 word gain s), egain, withTag_same, if_pos h]

/-- A gain that EGAIN accepts fits the field GainSel. -/
theorem toNat_gainOperand_lt {gain : Byte} (h : gain.toNat ≤ 7) : (gain.setWidth 16).toNat < 2 ^ 3 := by
  rw [BitVec.toNat_setWidth]
  omega

/-- R122: after EGAIN, GainSel is the gain. -/
theorem gainOf_setField_gain {gain : Byte} (h : gain.toNat ≤ 7) (word : Word16) :
    gainOf (setField word 4 3 (gain.setWidth 16)) = gain.setWidth 3 := by
  rw [gainOf_eq_getField, getField_setField word _ 4 3 (by decide) (toNat_gainOperand_lt h),
    BitVec.setWidth_setWidth_of_le _ (by decide)]

/-- Settles O23: EGAIN checks the address and then the gain, and replaces the field that DGAIN reads. -/
theorem egainWritesTheGainBits : Obligations.EgainWritesTheGainBits := by
  unfold Obligations.EgainWritesTheGainBits
  refine fun s addr word gain => ⟨raises_accessorMismatch (exec_egain addr word gain s),
    fun hbig => raises_egain_fieldRange hbig word s, fun hgain => ⟨_, returns_egain hgain word s, ?_, ?_⟩⟩
  · intro b hb
    rw [getLsbD_setField word _ 4 3 b (toNat_gainOperand_lt hgain) hb, BitVec.getLsbD_setWidth,
      decide_eq_true (by omega), Bool.true_and]
  · rw [← gainOf_setField_gain hgain word]
    exact returns_dgain _ s

/-- A request that sets bit `o` of a word gives a word whose bit `o` a decode of that bit reads back, and whose other
bits are as they were. -/
theorem bitEncode_writes {enc : Instr} {dec : Word16 → Instr} {s : State} {a : Byte} {word : Word16} {o : Nat}
    {x : Bool} (ho : o < 16) (henc : exec enc s = finish s (withTag a a (.ok (.word (setBit word o x)))))
    (hdec : ∀ w, exec (dec w) s = finish s (withTag a a (.ok (.flag (w.getLsbD o))))) :
    ∃ w : Word16, Returns enc s (.word w) ∧ Returns (dec w) s (.flag x) ∧
      ∀ b < 16, w.getLsbD b = if b = o then x else word.getLsbD b := by
  refine ⟨setBit word o x, returns_of_tagged henc, ?_, fun b hb => getLsbD_setBit word o b x hb⟩
  have hback := returns_of_tagged (hdec (setBit word o x))
  rwa [getLsbD_setBit word o o x ho, if_pos rfl] at hback

/-- Settles O24: each of the three checks its address and sets the bit of its decode. -/
theorem bitEncodesWriteOneBit : Obligations.BitEncodesWriteOneBit := by
  unfold Obligations.BitEncodesWriteOneBit
  exact fun s addr word x => ⟨raises_accessorMismatch (exec_etcmp addr word x s),
    raises_accessorMismatch (exec_ezser addr word x s), raises_accessorMismatch (exec_ebist addr word x s),
    bitEncode_writes (by decide) (exec_etcmp 1#8 word x s) fun w => exec_dtcmp 1#8 w s,
    bitEncode_writes (by decide) (exec_ezser 0#8 word x s) fun w => exec_dzser 0#8 w s,
    bitEncode_writes (by decide) (exec_ebist 0#8 word x s) fun w => exec_dbist 0#8 w s⟩

/-! ### Calibration snapshot -/

/-- Settles O25: the captured snapshot consists of the answers of the four decodes. -/
theorem snapcapCapturesTheDecodes : Obligations.SnapcapCapturesTheDecodes := by
  unfold Obligations.SnapcapCapturesTheDecodes
  exact fun s w0 w1 w2 tref => ⟨_, _, _, _, _, _, returns_dhall w0 s, returns_dgain w0 s, returns_dtcmp w1 s,
    returns_dres w2 s, exec_snapcap w0 w1 w2 tref s⟩

theorem shownSnap_uncaptured {p : Snap} (h : p.captured = false) : shownSnap p = zeroSnap := by
  simp only [shownSnap, h, Bool.false_eq_true, if_false]

theorem shownSnap_captured {p : Snap} (h : p.captured = true) : shownSnap p = p := if_pos h

/-- Settles O26: SNAPQ returns what it shows of `SNAP`. -/
theorem snapqShowsTheSnapshot : Obligations.SnapqShowsTheSnapshot := by
  unfold Obligations.SnapqShowsTheSnapshot
  refine fun s => ⟨fun h => ?_, fun h => ?_⟩
  · rw [returns_iff (exec_snapq s), shownSnap_uncaptured h, zeroSnap]
  · rw [returns_iff (exec_snapq s), shownSnap_captured h]

end Sys2Proof.Machine

/-! ### The command codec -/

namespace Sys2Proof.Machine

/-! ### One-byte commands -/

/-- R85, R86: a ChannelSet fills the zero low nibble of its command's base byte. -/
theorem toNat_withChans : ∀ base ∈ [0x10#8, 0x20#8, 0x30#8, 0x40#8], ∀ p : ChannelSet,
    (withChans base p).toNat = base.toNat + p.toNat := by decide

/-- `popcount` by the digits of the ChannelSet's number (R13). -/
theorem popcount_eq_digits : ∀ p : ChannelSet,
    popcount p = p.toNat % 2 + p.toNat / 2 % 2 + p.toNat / 4 % 2 + p.toNat / 8 := by decide

theorem rmLen_eq_digits (p : ChannelSet) :
    rmLen p = 1 + 2 * (p.toNat % 2 + p.toNat / 2 % 2 + p.toNat / 4 % 2 + p.toNat / 8) := by
  rw [rmLen, popcount_eq_digits]

/-- R86: a request that ends with the frame of a command with channels has returned it, its byte as a number. -/
theorem returns_withChans {i : Instr} {s : State} {base : Byte} {p : ChannelSet} {rlen : Byte}
    (h : exec i s = finish s (.ok (.frame (frame1 (withChans base p) rlen))))
    (hbase : base ∈ [0x10#8, 0x20#8, 0x30#8, 0x40#8]) :
    Returns i s (.frame ⟨1#8, BitVec.ofNat 8 (base.toNat + p.toNat), 0#8, 0#8, 0#8, rlen⟩) := by
  rw [returns_iff h, frame1, ← toNat_withChans base hbase p, BitVec.ofNat_toNat, BitVec.setWidth_eq]

/-- Settles O27: each command answers with its frame; the byte of a command with channels is its base plus the set. -/
theorem oneByteCommandFrames : Obligations.OneByteCommandFrames := by
  unfold Obligations.OneByteCommandFrames
  intro s p
  rw [← rmLen_eq_digits p]
  exact ⟨returns_withChans (base := 0x10#8) (exec_sb p s) (by decide),
    returns_withChans (base := 0x20#8) (exec_sw p s) (by decide),
    returns_withChans (base := 0x30#8) (exec_sm p s) (by decide),
    returns_withChans (base := 0x40#8) (exec_rm p s) (by decide),
    (returns_iff (exec_ex s)).mpr rfl, (returns_iff (exec_hr s)).mpr rfl, (returns_iff (exec_hs s)).mpr rfl,
    (returns_iff (exec_rt s)).mpr rfl⟩

/-! ### Register commands -/

/-- R87: the address byte is four times the address. -/
theorem addrByte_eq_ofNat (addr : Byte) : addrByte addr = BitVec.ofNat 8 (4 * addr.toNat) := by
  apply BitVec.eq_of_toNat_eq
  rw [addrByte, BitVec.toNat_shiftLeft, BitVec.toNat_ofNat, Nat.shiftLeft_eq, Nat.mul_comm]

theorem highByte_eq_ofNat (w : Word16) : highByte w = BitVec.ofNat 8 (w.toNat / 256) := by
  apply BitVec.eq_of_toNat_eq
  rw [highByte, BitVec.extractLsb'_toNat, BitVec.toNat_ofNat, Nat.shiftRight_eq_div_pow]

theorem lowByte_eq_ofNat (w : Word16) : lowByte w = BitVec.ofNat 8 (w.toNat % 256) := by
  apply BitVec.eq_of_toNat_eq
  rw [lowByte, BitVec.extractLsb'_toNat, BitVec.toNat_ofNat, Nat.shiftRight_zero, Nat.mod_mod]

/-- R77: an address of six bits is accepted. -/
theorem checkAddr_of_le {addr : Byte} (h : addr.toNat ≤ 0x3F) (f : CmdFrame) : checkAddr addr f = .ok f :=
  if_neg (not_lt.mpr h)

theorem checkAddr_of_lt {addr : Byte} (h : 0x3F < addr.toNat) (f : CmdFrame) :
    checkAddr addr f = .error (.addressRange addr) := if_pos h

/-- Settles O28: the address check passes the frame or raises, and the frame's bytes are those of the operands. -/
theorem registerCommandFrames : Obligations.RegisterCommandFrames := by
  unfold Obligations.RegisterCommandFrames
  refine fun s addr data => ⟨fun hle => ⟨?_, ?_⟩, fun hlt => ⟨?_, ?_⟩⟩
  · rw [returns_iff (exec_rr addr s), rrFrame, checkAddr_of_le hle, addrByte_eq_ofNat, frameResult]
  · rw [returns_iff (exec_wr addr data s), wrFrame, checkAddr_of_le hle, addrByte_eq_ofNat, highByte_eq_ofNat,
      lowByte_eq_ofNat, frameResult]
  · rw [raises_iff (exec_rr addr s), rrFrame, checkAddr_of_lt hlt, frameResult]
  · rw [raises_iff (exec_wr addr data s), wrFrame, checkAddr_of_lt hlt, frameResult]

/-! ### Dispatch on the base byte -/

/-- The base bytes of the ten commands (R88). -/
abbrev commandBases : List Byte :=
  [0x10#8, 0x20#8, 0x30#8, 0x40#8, 0x50#8, 0x60#8, 0x80#8, 0xD0#8, 0xE0#8, 0xF0#8]

/-- R150: a command's base gives a frame that begins with that base, its channels in the low nibble. -/
theorem commandFrame_of_mem {base : Byte} (hbase : base ∈ commandBases) (chans : ChannelSet) {addr : Byte}
    (haddr : base.toNat ∈ [0x50, 0x60] → addr.toNat ≤ 0x3F) (data : Word16) :
    ∃ f, commandFrame base chans addr data = .ok f ∧
      f.b0.toNat = base.toNat + if base.toNat ≤ 0x40 then chans.toNat else 0 := by
  simp only [List.mem_cons, List.not_mem_nil, or_false] at hbase
  rcases hbase with rfl | rfl | rfl | rfl | rfl | rfl | rfl | rfl | rfl | rfl
  · exact ⟨_, rfl, toNat_withChans 0x10#8 (by decide) chans⟩
  · exact ⟨_, rfl, toNat_withChans 0x20#8 (by decide) chans⟩
  · exact ⟨_, rfl, toNat_withChans 0x30#8 (by decide) chans⟩
  · exact ⟨_, rfl, toNat_withChans 0x40#8 (by decide) chans⟩
  · exact ⟨_, checkAddr_of_le (haddr (by decide)) _, rfl⟩
  · exact ⟨_, checkAddr_of_le (haddr (by decide)) _, rfl⟩
  · exact ⟨_, rfl, rfl⟩
  · exact ⟨_, rfl, rfl⟩
  · exact ⟨_, rfl, rfl⟩
  · exact ⟨_, rfl, rfl⟩

/-- R150: any other base is refused. -/
theorem commandFrame_of_not_mem {base : Byte} (h : base ∉ commandBases) (chans : ChannelSet) (addr : Byte)
    (data : Word16) : commandFrame base chans addr data = .error (.illegalRequest base) := by
  simp only [List.mem_cons, List.not_mem_nil, or_false, ← BitVec.toNat_inj, BitVec.toNat_ofNat] at h
  unfold commandFrame
  split
  on_goal 11 => rfl
  all_goals omega

/-- Settles O29: CMDENC ends with its base's command frame, which is the command's own, or refuses the base. -/
theorem cmdencDispatchesOnTheBase : Obligations.CmdencDispatchesOnTheBase := by
  unfold Obligations.CmdencDispatchesOnTheBase
  refine fun s chans addr data => ⟨rfl, rfl, rfl, rfl, rfl, rfl, rfl, rfl, rfl, rfl, fun base haddr hbase => ?_,
    fun base hbase => ?_⟩
  · obtain ⟨f, hframe, hb0⟩ := commandFrame_of_mem hbase chans haddr data
    refine ⟨f, ?_, hb0⟩
    rw [returns_iff (exec_cmdenc base chans addr data s), hframe, frameResult]
  · rw [raises_iff (exec_cmdenc base chans addr data s), commandFrame_of_not_mem hbase, frameResult]

/-! ### The status byte -/

/-- R42: the status byte is the sum of its fields, each at its place. -/
theorem toNat_eq_statusFields (b : Byte) : b.toNat =
    128 * (statusFields b).burst.toNat + 64 * (statusFields b).woc.toNat + 32 * (statusFields b).sm.toNat +
      16 * (statusFields b).error.toNat + 8 * (statusFields b).sed.toNat + 4 * (statusFields b).rs.toNat +
      (statusFields b).d.toNat := by
  have hb := b.isLt
  simp only [statusFields, BitVec.getLsbD, Nat.toNat_testBit, BitVec.extractLsb'_toNat, Nat.shiftRight_zero]
  omega

/-- R170: STDEC never faults. -/
theorem returns_stdec (b : Byte) (s : State) : Returns (.stdec b) s (.status (statusFields b)) := finish_ok s _

/-- Settles O32: STDEC returns the fields of the byte, of which the byte is the sum. -/
theorem stdecReadsTheStatusFields : Obligations.StdecReadsTheStatusFields := by
  unfold Obligations.StdecReadsTheStatusFields
  exact fun s b => ⟨_, returns_stdec b s, toNat_eq_statusFields b⟩

/-! ### What the response decoders raise -/

/-- R172: RMDEC faults on the length of the response alone. -/
theorem rmDecode_error_iff {p : ChannelSet} {b : List Byte} {f : ReqFault} :
    rmDecode p b = .error f ↔ b.length ≠ rmLen p ∧ .responseLengthMismatch b.length = f := by
  unfold rmDecode
  split
  · rename_i hne
    simp [hne]
  · rename_i heq
    simp [not_not.mp heq]

/-- R174: RRDEC faults on the length of the response alone. -/
theorem rrDecode_error_iff {b : List Byte} {f : ReqFault} :
    rrDecode b = .error f ↔ b.length ≠ 3 ∧ .responseLengthMismatch b.length = f := by
  unfold rrDecode
  split
  · simp
  · rename_i hother
    have hne : b.length ≠ 3 := fun h => by
      obtain ⟨x, hi, lo, rfl⟩ := List.length_eq_three.mp h
      exact hother x hi lo rfl
    simp [hne]

/-- R175: S1DEC faults on the length of the response alone. -/
theorem s1Decode_error_iff {b : List Byte} {f : ReqFault} :
    s1Decode b = .error f ↔ b.length ≠ 1 ∧ .responseLengthMismatch b.length = f := by
  unfold s1Decode
  split
  · simp
  · rename_i hother
    have hne : b.length ≠ 1 := fun h => by
      obtain ⟨x, rfl⟩ := List.length_eq_one_iff.mp h
      exact hother x rfl
    simp [hne]

section RaisedByDecoders
variable {p : ChannelSet} {b : List Byte} {s : State} {f : ReqFault}

theorem raises_rmdec_iff :
    Raises (.rmdec p b) s f ↔ b.length ≠ 1 + 2 * popcount p ∧ .responseLengthMismatch b.length = f := by
  rw [raises_iff (exec_rmdec p b s), rmDecode_error_iff, rmLen]

theorem raises_rrdec_iff : Raises (.rrdec b) s f ↔ b.length ≠ 3 ∧ .responseLengthMismatch b.length = f := by
  rw [raises_iff (exec_rrdec b s), rrDecode_error_iff]

theorem raises_s1dec_iff : Raises (.s1dec b) s f ↔ b.length ≠ 1 ∧ .responseLengthMismatch b.length = f := by
  rw [raises_iff (exec_s1dec b s), s1Decode_error_iff]

end RaisedByDecoders

/-- R171: CONV does not read the sample's status byte. -/
theorem convert_status (c : Config.ConvParams) (snap : Snap) (chans : ChannelSet) (raw : RawSample) (x : Byte) :
    convert c snap chans { raw with status := x } = convert c snap chans raw := rfl

/-- Settles O35: the decoders fault on a length, which the status byte is no part of, STDEC does not fault, and CONV
does not read the byte. -/
theorem noFaultDependsOnTheStatusByte : Obligations.NoFaultDependsOnTheStatusByte := by
  unfold Obligations.NoFaultDependsOnTheStatusByte
  intro s x y tail p raw f
  have hlen : (x :: tail).length = (y :: tail).length := rfl
  refine ⟨?_, ?_, ?_, ?_, ?_⟩
  · rw [raises_rmdec_iff, raises_rmdec_iff, hlen]
    exact id
  · rw [raises_rrdec_iff, raises_rrdec_iff, hlen]
    exact id
  · rw [raises_s1dec_iff, raises_s1dec_iff, hlen]
    exact id
  · rw [raises_iff (exec_stdec x s)]
    nofun
  · rw [exec_conv, exec_conv, convert_status _ _ _ raw x, convert_status _ _ _ raw y]

/-! ### Register responses -/

/-- R61: a word of two bytes, the high one first, as a number. -/
theorem toNat_be16 (hi lo : Byte) : (be16 hi lo).toNat = 256 * hi.toNat + lo.toNat := by
  rw [be16, toNat_append_eq, Nat.mul_comm]
  rfl

theorem be16_eq_ofNat (hi lo : Byte) : be16 hi lo = BitVec.ofNat 16 (256 * hi.toNat + lo.toNat) := by
  rw [← toNat_be16, BitVec.ofNat_toNat, BitVec.setWidth_eq]

/-- Settles O34: the decoders fault on every length but their own, and read the status byte as STDEC does. -/
theorem registerResponsesDecode : Obligations.RegisterResponsesDecode := by
  unfold Obligations.RegisterResponsesDecode
  refine fun s b => ⟨fun h => raises_rrdec_iff.mpr ⟨h, rfl⟩, fun h => raises_s1dec_iff.mpr ⟨h, rfl⟩,
    fun x hi lo => ⟨statusFields x, returns_stdec x s, (returns_iff (exec_s1dec [x] s)).mpr rfl, ?_⟩⟩
  rw [returns_iff (exec_rrdec [x, hi, lo] s), rrDecode, be16_eq_ofNat]

/-! ### Measurement responses -/

/-- R172: a channel takes its two bytes when it is enabled, and none otherwise. -/
theorem takeChannel_rest (enabled : Bool) (b : List Byte) :
    (takeChannel enabled b).2 = b.drop (2 * enabled.toNat) := by
  cases enabled
  · rfl
  · match b with
    | [] => rfl
    | [_] => rfl
    | _ :: _ :: _ => rfl

/-- R62, R172: an enabled channel's word is the next two bytes, the high one first. -/
theorem takeChannel_word {b : List Byte} (h : 2 ≤ b.length) :
    (takeChannel true b).1 = be16 (b.getD 0 0#8) (b.getD 1 0#8) := by
  match b, h with
  | _ :: _ :: _, _ => rfl

/-- How many of the channels before `c` in the order Temp, X, Y, Z are enabled (R172). -/
def enabledBefore (p : ChannelSet) : Channel → Nat
  | .temp => 0
  | .x => (hasChannel p .temp).toNat
  | .y => (hasChannel p .temp).toNat + (hasChannel p .x).toNat
  | .z => (hasChannel p .temp).toNat + (hasChannel p .x).toNat + (hasChannel p .y).toNat

/-- R173: the channels before `c` are those of the bits below its own. -/
theorem popcount_below (p : ChannelSet) (c : Channel) :
    popcount (p &&& BitVec.ofNat 4 (2 ^ channelBit c - 1)) = enabledBefore p c := by
  cases c <;> revert p <;> decide

/-- An enabled channel is one more than those before it. -/
theorem enabledBefore_lt_popcount {p : ChannelSet} {c : Channel} (h : hasChannel p c = true) :
    enabledBefore p c < popcount p := by
  cases c <;> revert p <;> decide

/-- The word of a channel in a ReadMeasurement response: what is taken behind the status byte and the words of the
enabled channels before it (R172, R173). -/
def channelWord (p : ChannelSet) (b : List Byte) (c : Channel) : Word16 :=
  (takeChannel (hasChannel p c) (b.drop (1 + 2 * enabledBefore p c))).1

/-- The sample of a ReadMeasurement response. -/
def responseSample (p : ChannelSet) (b : List Byte) : RawSample :=
  { status := b.headD 0#8, present := p, wT := channelWord p b .temp, wX := channelWord p b .x,
    wY := channelWord p b .y, wZ := channelWord p b .z }

theorem sampleWord_responseSample (p : ChannelSet) (b : List Byte) (c : Channel) :
    sampleWord (responseSample p b) c = channelWord p b c := by
  cases c <;> rfl

/-- R172: RMDEC's successive takes give each channel its word. -/
theorem rmDecode_of_length {p : ChannelSet} {b : List Byte} (h : b.length = rmLen p) :
    rmDecode p b = .ok (.sample (responseSample p b)) := by
  simp only [rmDecode, h, ne_eq, not_true_eq_false, if_false, takeChannel_rest, ← List.drop_one, List.drop_drop,
    responseSample, channelWord, enabledBefore, Nat.mul_add, Nat.mul_zero, Nat.add_zero, Nat.add_assoc]

/-- R173: an enabled channel's word in a response of the right length. -/
theorem toNat_channelWord {p : ChannelSet} {b : List Byte} {c : Channel} (hlen : b.length = rmLen p)
    (hc : hasChannel p c = true) : (channelWord p b c).toNat =
      256 * (b.getD (1 + 2 * enabledBefore p c) 0#8).toNat + (b.getD (2 + 2 * enabledBefore p c) 0#8).toNat := by
  have hlt := enabledBefore_lt_popcount hc
  have hdrop : 2 ≤ (b.drop (1 + 2 * enabledBefore p c)).length := by
    rw [List.length_drop, hlen, rmLen]
    omega
  have hlow : 1 + 2 * enabledBefore p c + 1 = 2 + 2 * enabledBefore p c := by omega
  rw [channelWord, hc, takeChannel_word hdrop, toNat_be16]
  simp only [List.getD_eq_getElem?_getD, List.getElem?_drop, Nat.add_zero, hlow]

/-- R172: an absent channel's word is driven 0. -/
theorem channelWord_absent {p : ChannelSet} {c : Channel} (hc : hasChannel p c = false) (b : List Byte) :
    channelWord p b c = 0#16 := by
  rw [channelWord, hc]
  rfl

/-- Settles O33: a response of the right length gives the sample whose words stand behind those before them. -/
theorem rmdecPlacesTheChannelWords : Obligations.RmdecPlacesTheChannelWords := by
  unfold Obligations.RmdecPlacesTheChannelWords
  refine fun s p b => ⟨fun h => raises_rmdec_iff.mpr ⟨h, rfl⟩,
    fun hlen => ⟨responseSample p b, ?_, ?_, rfl, fun c => ?_⟩⟩
  · rw [returns_iff (exec_rmdec p b s), rmDecode_of_length hlen]
  · cases b <;> rfl
  · rw [sampleWord_responseSample, popcount_below]
    exact ⟨toNat_channelWord hlen, fun hc => channelWord_absent hc b⟩

end Sys2Proof.Machine

/-! ### The converter -/

namespace Sys2Proof.Machine

/-! ### CONV's answer -/

/-- Settles O36: `convert` tests `captured`, then `valid`, then the presence mask. -/
theorem convFaultsInOrder : Obligations.ConvFaultsInOrder := by
  unfold Obligations.ConvFaultsInOrder
  intro s chans raw
  simp only [raises_iff (exec_conv chans raw s)]
  refine ⟨fun hc => ?_, fun hc hv => ?_, fun hc hv hp => ?_⟩
  · simp [convert, hc, fieldResult]
  · simp [convert, hc, hv, fieldResult]
  · simp [convert, hc, hv, hp, fieldResult]

/-- R200, R205: with a usable snapshot and a sample of the requested channels, CONV gives each requested value. -/
theorem convert_of_usable (c : Config.ConvParams) {p : Snap} {chans : ChannelSet} {raw : RawSample}
    (hc : p.captured = true) (hv : p.valid = true) (hp : raw.present = chans) :
    convert c p chans raw = .ok
      { x := axisField c p chans raw .x, y := axisField c p chans raw .y, z := axisField c p chans raw .z,
        t := tempField c p chans raw } := by
  simp [convert, hc, hv, hp]

/-- Settles O37: the values of `convert` are the formulas, with the snapshot's hall configuration named. -/
theorem convReturnsTheRequestedValues : Obligations.ConvReturnsTheRequestedValues := by
  unfold Obligations.ConvReturnsTheRequestedValues
  intro s chans raw hc hcap hvalid hhall hp
  have haxis (a : Axis) (w : Word16) : axisValue Config.convParams s.snap a w =
      mul32 (f32 w.toInt) (Config.sens s.snap.gain (axisRes s.snap a) hc a) := by
    rw [axisValue, hhall]
    rfl
  rw [returns_iff (exec_conv chans raw s), convert_of_usable _ hcap hvalid hp]
  simp only [axisField, haxis]
  rfl

/-! ### Classes of binary32 values -/

section Operands
variable {a b : F32}

/-- What is not finite is a NaN or an infinity. -/
theorem isFinite_eq_false_iff : isFinite a = false ↔ isNaN a = true ∨ isInf a = true := by
  by_cases he : expField a = 255 <;> by_cases hf : fracField a = 0 <;> simp [isFinite, isNaN, isInf, he, hf]

theorem isNaN_of_isInf (h : isInf a = true) : isNaN a = false := by
  simp only [isInf, Bool.and_eq_true, beq_iff_eq] at h
  simp [isNaN, h]

theorem isZero_of_isInf (h : isInf a = true) : isZero a = false := by
  simp only [isInf, Bool.and_eq_true, beq_iff_eq] at h
  simp [isZero, h]

theorem isFinite_of_isZero (h : isZero a = true) : isFinite a = true := by
  simp only [isZero, Bool.and_eq_true, beq_iff_eq] at h
  simp [isFinite, h]

theorem mant_of_isZero (h : isZero a = true) : mant a = 0 := by
  simp only [isZero, Bool.and_eq_true, beq_iff_eq] at h
  simp [mant, h]

/-! ### NaN operands -/

/-- The operation propagates its NaN operands (R208). -/
def PropagatesOperands (op : FloatOp) (f : F32 → F32 → F32) : Prop :=
  ∀ a b, (isNaN a || isNaN b) = true → f a b = propagatedNaN op a b

theorem mul32_propagatesOperands : PropagatesOperands .mul mul32 := fun _ _ h => if_pos h

theorem div32_propagatesOperands : PropagatesOperands .div div32 := fun _ _ h => if_pos h

theorem add32_propagatesOperands : PropagatesOperands .add add32 := fun _ _ h => if_pos h

section Propagation
variable {op : FloatOp} {f : F32 → F32 → F32}

theorem PropagatesOperands.left (hf : PropagatesOperands op f) (ha : isNaN a = true) (hb : isNaN b = false) :
    PropagatesNaN (f a b) a := by
  rw [hf a b (by rw [ha, Bool.true_or])]
  exact propagatedNaN_left op ha hb

theorem PropagatesOperands.right (hf : PropagatesOperands op f) (ha : isNaN a = true) (hb : isNaN b = false) :
    PropagatesNaN (f b a) a := by
  rw [hf b a (by rw [ha, Bool.or_true])]
  exact propagatedNaN_right op hb

theorem PropagatesOperands.either (hf : PropagatesOperands op f) (ha : isNaN a = true) :
    PropagatesNaN (f a b) a ∨ PropagatesNaN (f a b) b := by
  rw [hf a b (by rw [ha, Bool.true_or])]
  exact propagatedNaN_either op a b

end Propagation

/-! ### Infinite operands and zero divisors -/

theorem mul32_inf_zero (ha : isInf a = true) (hz : isZero b = true) :
    mul32 a b = invalidNaN .mul a b ∧ mul32 b a = invalidNaN .mul b a := by
  simp [mul32, isNaN_of_isInf ha, isNaN_of_isFinite (isFinite_of_isZero hz), ha, hz]

theorem mul32_inf (ha : isInf a = true) (hb : isNaN b = false) (hz : isZero b = false) :
    mul32 a b = signedInf (signBit a ^^ signBit b) ∧ mul32 b a = signedInf (signBit b ^^ signBit a) := by
  simp [mul32, isNaN_of_isInf ha, isZero_of_isInf ha, ha, hb, hz]

theorem div32_inf_inf (ha : isInf a = true) (hb : isInf b = true) : div32 a b = invalidNaN .div a b := by
  simp [div32, isNaN_of_isInf ha, isNaN_of_isInf hb, ha, hb]

theorem div32_inf_finite (ha : isInf a = true) (hb : isFinite b = true) :
    div32 a b = signedInf (signBit a ^^ signBit b) := by
  simp [div32, isNaN_of_isInf ha, isNaN_of_isFinite hb, isInf_of_isFinite hb, ha]

theorem div32_finite_inf (ha : isFinite a = true) (hb : isInf b = true) :
    div32 a b = signedZero (signBit a ^^ signBit b) := by
  simp [div32, isNaN_of_isFinite ha, isInf_of_isFinite ha, isNaN_of_isInf hb, hb]

theorem div32_finite_zero (ha : isFinite a = true) (hz : isZero b = true) :
    div32 a b = if isZero a then invalidNaN .div a b else signedInf (signBit a ^^ signBit b) := by
  have hb := isFinite_of_isZero hz
  simp [div32, isNaN_of_isFinite ha, isInf_of_isFinite ha, isNaN_of_isFinite hb, isInf_of_isFinite hb, hz]

theorem add32_inf_inf (ha : isInf a = true) (hb : isInf b = true) :
    add32 a b = if signBit a ^^ signBit b then invalidNaN .add a b else a := by
  simp [add32, isNaN_of_isInf ha, isNaN_of_isInf hb, ha, hb]

theorem add32_inf_finite (ha : isInf a = true) (hb : isFinite b = true) : add32 a b = a ∧ add32 b a = a := by
  simp [add32, isNaN_of_isInf ha, isNaN_of_isFinite hb, isInf_of_isFinite hb, ha]

end Operands

/-! ### The converter's formulas -/

theorem isFinite_f32_toInt (w : Word16) : isFinite (f32 w.toInt) = true := by
  have hlo := BitVec.le_toInt w
  have hhi := BitVec.toInt_lt (x := w)
  exact (f32OfSmallIntegersIsExact w.toInt (by omega)).1

/-- The factor of `AXIS` that the word gives is no NaN, so a NaN of `SENS` propagates (R203). -/
theorem axisValue_propagates {c : Config.ConvParams} {p : Snap} {a : Axis}
    (h : isNaN (c.sens p.gain (axisRes p a) (hallPhase p.hall) a) = true) (w : Word16) :
    PropagatesNaN (axisValue c p a w) (c.sens p.gain (axisRes p a) (hallPhase p.hall) a) :=
  mul32_propagatesOperands.right h (isNaN_of_isFinite (isFinite_f32_toInt w))

/-- The summand of `T0` that the word gives is no NaN, so a NaN of `REF_OFFSET` propagates (R206). -/
theorem tempBase_propagates {c : Config.ConvParams} {p : Snap} (h : isNaN (c.refOffset p.tref) = true)
    (hs : isFinite c.tempScale = true) (hz : isZero c.tempScale = false) (w : Word16) :
    PropagatesNaN (tempBase c p w) (c.refOffset p.tref) := by
  have hquot : isNaN (div32 (f32 w.toInt) c.tempScale) = false := by
    rw [div32_finite (isFinite_f32_toInt w) hs hz]
    exact isNaN_round32 _ _ _
  exact add32_propagatesOperands.left h hquot

/-- Settles O40: each operation propagates its NaN operands, and is decided by the classes of its operands where one
is infinite or the divisor is zero. -/
theorem infinitiesAndNaNsPropagate : Obligations.InfinitiesAndNaNsPropagate := by
  unfold Obligations.InfinitiesAndNaNsPropagate
  refine ⟨fun a b => ⟨fun ha hb => ?_, fun ha _ => ?_, fun ha hz => ?_, fun ha hz => ?_, fun ha hb => ?_,
    fun ha hne hz => ?_, fun ha hb hz => ?_, fun ha hb => ?_⟩,
    fun c p a w => ⟨fun h => axisValue_propagates h w, fun h hs hz => tempBase_propagates h hs hz w⟩⟩
  case refine_1 =>
    exact ⟨mul32_propagatesOperands.left ha hb, mul32_propagatesOperands.right ha hb,
      div32_propagatesOperands.left ha hb, div32_propagatesOperands.right ha hb,
      add32_propagatesOperands.left ha hb, add32_propagatesOperands.right ha hb⟩
  case refine_2 =>
    exact ⟨mul32_propagatesOperands.either ha, div32_propagatesOperands.either ha,
      add32_propagatesOperands.either ha⟩
  case refine_3 =>
    rw [(mul32_inf_zero ha hz).1, (mul32_inf_zero ha hz).2]
    exact ⟨invalidNaN_quiet _ _ _, invalidNaN_quiet _ _ _⟩
  case refine_4 =>
    rw [div32_finite_zero (isFinite_of_isZero ha) hz, if_pos ha]
    exact invalidNaN_quiet _ _ _
  case refine_5 =>
    rw [div32_inf_inf ha hb, add32_inf_inf ha hb]
    refine ⟨invalidNaN_quiet _ _ _, fun hne => ?_, fun heq => ?_⟩
    · simpa [hne] using invalidNaN_quiet .add a b
    · simp [heq]
  case refine_6 =>
    simp [div32_finite_zero ha hz, hne]
  case refine_7 =>
    simp [mul32_inf ha hb hz]
  case refine_8 =>
    simp [div32_inf_finite ha hb, div32_finite_inf hb ha, add32_inf_finite ha hb]

/-- The word 0x0000 is the factor +0. -/
theorem f32_zero_word : f32 (0#16).toInt = signedZero false := by
  rw [BitVec.toInt_zero]
  exact round32_zero _ _

/-- A zero times a finite value is a zero of the exclusive-or of the signs. -/
theorem mul32_zero_finite {a b : F32} (hz : isZero a = true) (hb : isFinite b = true) :
    mul32 a b = signedZero (signBit a ^^ signBit b) := by
  rw [mul32_finite (isFinite_of_isZero hz) hb, mant_of_isZero hz, Nat.zero_mul, round32_zero]

/-- Settles O39: +0 times `SENS` is a zero of its sign where it is finite, and otherwise the NaN that propagates or the
one of zero times infinity. -/
theorem rawZeroGivesZeroOrNaN : Obligations.RawZeroGivesZeroOrNaN := by
  unfold Obligations.RawZeroGivesZeroOrNaN
  intro c p a
  refine ⟨fun hfin => ?_, fun hfin => ?_⟩
  · rw [axisValue, f32_zero_word, mul32_zero_finite (isZero_signedZero false) hfin]
    simp
  · rcases isFinite_eq_false_iff.mp hfin with hnan | hinf
    · exact (axisValue_propagates hnan 0#16).1.1
    · rw [axisValue, f32_zero_word, (mul32_inf_zero hinf (isZero_signedZero false)).2]
      exact (invalidNaN_quiet _ _ _).1

end Sys2Proof.Machine

/-! ### The wire framer -/

namespace Sys2Proof.Machine

/-! ### What the framer's requests return and raise -/

section Answers
variable {s : State} {b c d f : List Byte} {m : Message} {e : ReqFault}

theorem bytesResult_eq_ok_iff {r : Except ReqFault (List Byte)} : bytesResult r = .ok (.bytes b) ↔ r = .ok b := by
  cases r <;> simp [bytesResult]

theorem bytesResult_eq_error_iff {r : Except ReqFault (List Byte)} : bytesResult r = .error e ↔ r = .error e := by
  cases r <;> simp [bytesResult]

theorem messageResult_eq_ok_iff {r : Except ReqFault Message} : messageResult r = .ok (.message m) ↔ r = .ok m := by
  cases r <;> simp [messageResult]

theorem messageResult_eq_error_iff {r : Except ReqFault Message} : messageResult r = .error e ↔ r = .error e := by
  cases r <;> simp [messageResult]

theorem returns_ser_iff : Returns (.ser m) s (.bytes b) ↔ payloadOf m = b := by
  rw [returns_iff (exec_ser m s), bytesResult_eq_ok_iff, serialize_eq, Except.ok.injEq]

theorem returns_deser_iff : Returns (.deser d) s (.message m) ↔ deserialize d = .ok m := by
  rw [returns_iff (exec_deser d s), messageResult_eq_ok_iff]

theorem raises_deser_iff : Raises (.deser d) s e ↔ deserialize d = .error e := by
  rw [raises_iff (exec_deser d s), messageResult_eq_error_iff]

theorem returns_cdec_iff : Returns (.cdec c) s (.bytes b) ↔ cobsDecode c = .ok b := by
  rw [returns_iff (exec_cdec c s), bytesResult_eq_ok_iff]

theorem raises_cdec_iff : Raises (.cdec c) s e ↔ cobsDecode c = .error e := by
  rw [raises_iff (exec_cdec c s), bytesResult_eq_error_iff]

/-- R250, with the size of the frame buffer. -/
theorem cobsEncode_eq (b : List Byte) : cobsEncode b =
    if 64 < (cobs b).length + 1 then .error (.frameEncodeFailure ((cobs b).length + 1)) else .ok (cobs b ++ [0#8]) := by
  rw [cobsEncode, List.length_append, List.length_singleton, Config.frameBufLen]

/-- R250: CENC returns the COBS form and its terminator, where they fit the frame buffer. -/
theorem returns_cenc_iff : Returns (.cenc b) s (.bytes f) ↔ (cobs b).length + 1 ≤ 64 ∧ cobs b ++ [0#8] = f := by
  rw [returns_iff (exec_cenc b s), bytesResult_eq_ok_iff, cobsEncode_eq]
  by_cases h : 64 < (cobs b).length + 1
  · rw [if_pos h]
    exact iff_of_false nofun fun hfits => absurd hfits.1 (not_le.mpr h)
  · rw [if_neg h, Except.ok.injEq, and_iff_right (not_lt.mp h)]

/-- R250: CENC raises FrameEncodeFailure with the length of a frame that does not fit, and nothing else. -/
theorem raises_cenc_iff :
    Raises (.cenc b) s e ↔ 64 < (cobs b).length + 1 ∧ .frameEncodeFailure ((cobs b).length + 1) = e := by
  rw [raises_iff (exec_cenc b s), bytesResult_eq_error_iff, cobsEncode_eq]
  by_cases h : 64 < (cobs b).length + 1
  · rw [if_pos h, Except.error.injEq, and_iff_right h]
  · rw [if_neg h]
    exact iff_of_false nofun fun hlong => absurd hlong.1 h

end Answers

/-- R252: the COBS form of a payload is one byte longer. -/
theorem length_cobs_payloadOf (m : Message) : (cobs (payloadOf m)).length = (payloadOf m).length + 1 :=
  length_cobs_short (by have := (length_payloadOf_bounds m).2; omega)

/-- CDEC inverts COBS at the decided value of `EMPTY_CHUNK_FAULT`. -/
theorem cobsDecode_cobs (b : List Byte) : cobsDecode (cobs b) = .ok b := cobsDecodeWith_cobs _ b

/-- R257: CDEC gives back what CENC framed, from the frame without its terminator. -/
theorem returns_cdec_dropLast {s : State} {b f : List Byte} (h : Returns (.cenc b) s (.bytes f)) :
    Returns (.cdec f.dropLast) s (.bytes b) := by
  obtain ⟨-, rfl⟩ := returns_cenc_iff.mp h
  rw [List.dropLast_concat]
  exact returns_cdec_iff.mpr (cobsDecode_cobs b)

/-- R250, R252: CENC returns a frame for every payload of SER. -/
theorem returns_cenc_payloadOf (s : State) (m : Message) :
    Returns (.cenc (payloadOf m)) s (.bytes (cobs (payloadOf m) ++ [0#8])) := by
  have hle := (length_payloadOf_bounds m).2
  exact returns_cenc_iff.mpr ⟨by rw [length_cobs_payloadOf]; omega, rfl⟩

/-- R246, R247: DESER returns the Message of a payload, whatever follows it. -/
theorem returns_deser_payloadOf (s : State) (m : Message) (trailing : List Byte) :
    Returns (.deser (payloadOf m ++ trailing)) s (.message m) :=
  returns_deser_iff.mpr (deserialize_payload m trailing)

/-- Settles O50: COBS decoding inverts encoding by induction over the runs of the input, so CDEC inverts CENC, and
every payload of SER fits a frame. -/
theorem cdecInvertsCenc : Obligations.CdecInvertsCenc := by
  unfold Obligations.CdecInvertsCenc
  refine ⟨fun s b => returns_cdec_iff.mpr (cobsDecode_cobs b), fun s b hb => ?_, fun s m => ?_⟩
  · have hframe : Returns (.cenc b) s (.bytes (cobs b ++ [0#8])) := returns_cenc_iff.mpr ⟨hb, rfl⟩
    exact ⟨_, hframe, returns_cdec_dropLast hframe⟩
  · have hframe := returns_cenc_payloadOf s m
    refine ⟨payloadOf m, _, returns_ser_iff.mpr rfl, hframe, returns_cdec_dropLast hframe, ?_⟩
    simpa using returns_deser_payloadOf s m []

/-! ### Serializing and deserializing -/

/-- R242: a binary32 as four bytes of its number, least significant first. -/
theorem bytesLE32_eq_digits (u : F32) :
    bytesLE32 u = (List.range 4).map fun k => BitVec.ofNat 8 (u.toNat / 256 ^ k) := by
  have hbyte (k : Nat) : u.extractLsb' (8 * k) 8 = BitVec.ofNat 8 (u.toNat / 256 ^ k) := by
    apply BitVec.eq_of_toNat_eq
    rw [BitVec.extractLsb'_toNat, BitVec.toNat_ofNat, Nat.shiftRight_eq_div_pow, Nat.pow_mul]
  simp only [List.range, List.range.loop, List.map_cons, List.map_nil, ← hbyte]
  rfl

/-- R240: the optional values in the order x, y, z, t, then the position. -/
theorem payloadOf_eq_flatMap (m : Message) : payloadOf m =
    [m.field.x, m.field.y, m.field.z, m.field.t].flatMap putTagged ++ [m.px, m.py, m.pz].flatMap bytesLE32 := by
  simp [payloadOf]

/-- R243, with the present values counted. -/
theorem length_payloadOf_countP (m : Message) : (payloadOf m).length =
    16 + 4 * ([m.field.x, m.field.y, m.field.z, m.field.t].countP fun v => v.isSome) := by
  rw [length_payloadOf]
  simp only [List.countP_cons, List.countP_nil, Bool.toNat, Bool.cond_eq_ite]
  omega

/-- Settles O44: SER returns the payload, its binary32 values as the digits of their numbers. -/
theorem serLaysOutTheMessage : Obligations.SerLaysOutTheMessage := by
  unfold Obligations.SerLaysOutTheMessage
  intro s m
  refine ⟨returns_ser_iff.mpr ?_, fun b hb => ?_⟩
  · rw [payloadOf_eq_flatMap]
    congr 1
    · congr 1
      funext v
      cases v with
      | none => rfl
      | some u => simp only [putTagged, bytesLE32_eq_digits]
    · rw [funext bytesLE32_eq_digits]
  · rw [← returns_ser_iff.mp hb]
    exact length_payloadOf_countP m

/-- Settles O45: reading a value back leaves what follows it, value by value. -/
theorem deserInvertsSer : Obligations.DeserInvertsSer := by
  unfold Obligations.DeserInvertsSer
  exact fun s m trailing => ⟨payloadOf m, returns_ser_iff.mpr rfl, returns_deser_payloadOf s m trailing⟩

/-- A written binary32 that is cut is missing. -/
theorem getF32_cut (u : F32) {k : Nat} (hk : k < (bytesLE32 u).length) :
    getF32 ((bytesLE32 u).take k) = .error (.payloadDecodeFailure .unexpectedEnd) :=
  getF32_short (by rw [List.length_take]; exact (min_le_left _ _).trans_lt hk)

/-- A written optional value that is cut is missing, its tag or the binary32 behind it. -/
theorem getTagged_cut (v : Option F32) {k : Nat} (hk : k < (putTagged v).length) :
    getTagged ((putTagged v).take k) = .error (.payloadDecodeFailure .unexpectedEnd) := by
  cases k with
  | zero => simp [getTagged]
  | succ k =>
    cases v with
    | none => simp [putTagged] at hk
    | some u =>
      have hcut := getF32_cut u (k := k) (Nat.lt_of_succ_lt_succ hk)
      simp [putTagged, getTagged, hcut]

/-- R244: a tag above 0x01 faults, whatever follows it. -/
theorem getTagged_badTag {tag : Byte} (htag : 2 ≤ tag.toNat) (rest : List Byte) :
    getTagged (tag :: rest) = .error (.payloadDecodeFailure .badOptionTag) := by
  have h0 : tag ≠ 0x00#8 := by rintro rfl; simp at htag
  have h1 : tag ≠ 0x01#8 := by rintro rfl; simp at htag
  simp [getTagged, h0, h1]

/-- Reading from a cut input: where the cut falls into the value, the reader faults; where it falls behind, so does what
reads on. -/
theorem bind_cut {α β : Type} {read : List Byte → Except ReqFault (α × List Byte)} {a : α} {w rest : List Byte}
    {next : α × List Byte → Except ReqFault β} {e : ReqFault} {k : Nat}
    (hwhole : ∀ tail, read (w ++ tail) = .ok (a, tail)) (hcut : ∀ j < w.length, read (w.take j) = .error e)
    (hnext : ∀ j < rest.length, next (a, rest.take j) = .error e) (hk : k < (w ++ rest).length) :
    (read ((w ++ rest).take k) >>= next) = .error e := by
  by_cases h : k < w.length
  · rw [List.take_append_of_le_length h.le, hcut k h]
    rfl
  · have hj : k - w.length < rest.length := by rw [List.length_append] at hk; omega
    rw [List.take_append, List.take_of_length_le (not_lt.mp h), hwhole]
    exact hnext _ hj

/-- R244: a payload that is cut short faults, wherever the cut falls. -/
theorem deserialize_cut (m : Message) {k : Nat} (hk : k < (payloadOf m).length) :
    deserialize ((payloadOf m).take k) = .error (.payloadDecodeFailure .unexpectedEnd) := by
  rw [← List.append_nil (payloadOf m)] at hk ⊢
  simp only [payloadOf, List.append_assoc] at hk ⊢
  refine bind_cut (getTagged_put _) (fun _ => getTagged_cut _) (fun k hk => ?_) hk
  refine bind_cut (getTagged_put _) (fun _ => getTagged_cut _) (fun k hk => ?_) hk
  refine bind_cut (getTagged_put _) (fun _ => getTagged_cut _) (fun k hk => ?_) hk
  refine bind_cut (getTagged_put _) (fun _ => getTagged_cut _) (fun k hk => ?_) hk
  refine bind_cut (getF32_put _) (fun _ => getF32_cut _) (fun k hk => ?_) hk
  refine bind_cut (getF32_put _) (fun _ => getF32_cut _) (fun k hk => ?_) hk
  exact bind_cut (getF32_put _) (fun _ => getF32_cut _) (fun k hk => absurd hk (Nat.not_lt_zero k)) hk

/-- R244: a bad tag in the place of the first, second, third or fourth optional value decides the fault. -/
theorem deserialize_badTag {vs : List (Option F32)} (hvs : vs.length < 4) {tag : Byte} (htag : 2 ≤ tag.toNat)
    (rest : List Byte) :
    deserialize (vs.flatMap putTagged ++ tag :: rest) = .error (.payloadDecodeFailure .badOptionTag) := by
  have hbad := getTagged_badTag htag rest
  match vs, hvs with
  | [], _ => simp [deserialize, hbad, bind, Except.bind]
  | [x], _ => simp [deserialize, getTagged_put, hbad, bind, Except.bind]
  | [x, y], _ => simp [deserialize, getTagged_put, hbad, bind, Except.bind]
  | [x, y, z], _ => simp [deserialize, getTagged_put, hbad, bind, Except.bind]

/-- A pipeline whose first stage returns goes on with what it returned. -/
theorem bind_ok {ε α β : Type} (a : α) (next : α → Except ε β) : (Except.ok a >>= next) = next a := rfl

/-- A pipeline that returns has returned at its first stage. -/
theorem exists_of_bind_eq_ok {ε α β : Type} {x : Except ε α} {next : α → Except ε β} {b : β}
    (h : (x >>= next) = .ok b) : ∃ a, x = .ok a ∧ next a = .ok b := by
  cases x with
  | error e => cases h
  | ok a => exact ⟨a, rfl, h⟩

/-- What DESER reads is what SER writes: an input it accepts begins with the payload of the Message it returns. -/
theorem deserialize_ok {d : List Byte} {m : Message} (h : deserialize d = .ok m) :
    ∃ rest, d = payloadOf m ++ rest := by
  obtain ⟨⟨x, d1⟩, hx, h⟩ := exists_of_bind_eq_ok h
  obtain ⟨⟨y, d2⟩, hy, h⟩ := exists_of_bind_eq_ok h
  obtain ⟨⟨z, d3⟩, hz, h⟩ := exists_of_bind_eq_ok h
  obtain ⟨⟨t, d4⟩, ht, h⟩ := exists_of_bind_eq_ok h
  obtain ⟨⟨px, d5⟩, hpx, h⟩ := exists_of_bind_eq_ok h
  obtain ⟨⟨py, d6⟩, hpy, h⟩ := exists_of_bind_eq_ok h
  obtain ⟨⟨pz, d7⟩, hpz, h⟩ := exists_of_bind_eq_ok h
  obtain rfl := Except.ok.inj h
  refine ⟨d7, ?_⟩
  rw [getTagged_ok hx, getTagged_ok hy, getTagged_ok hz, getTagged_ok ht, getF32_ok hpx, getF32_ok hpy, getF32_ok hpz]
  simp [payloadOf]

/-- Settles O46: a cut or a bad tag faults in the place where it stands, and DESER accepts only what SER writes. -/
theorem deserFaultsOnCutOrBadPayloads : Obligations.DeserFaultsOnCutOrBadPayloads := by
  unfold Obligations.DeserFaultsOnCutOrBadPayloads
  refine ⟨fun s m b k hser hk => ?_, fun s vs tag rest hvs htag => ?_, fun s d m hdeser => ?_⟩
  · obtain rfl := returns_ser_iff.mp hser
    exact raises_deser_iff.mpr (deserialize_cut m hk)
  · exact raises_deser_iff.mpr (deserialize_badTag hvs htag rest)
  · obtain ⟨rest, hd⟩ := deserialize_ok (returns_deser_iff.mp hdeser)
    exact ⟨payloadOf m, rest, returns_ser_iff.mpr rfl, hd⟩

/-! ### COBS framing -/

/-- Settles O47: CENC's one test is the length of the frame. -/
theorem cencTerminatesOrFaults : Obligations.CencTerminatesOrFaults := by
  unfold Obligations.CencTerminatesOrFaults
  exact fun s b => ⟨fun h => returns_cenc_iff.mpr ⟨h, rfl⟩, fun h => raises_cenc_iff.mpr ⟨h, rfl⟩⟩

/-- Settles O48: the loop is the recursion over an open block, which a run of non-zero bytes fills. -/
theorem cobsReplacesZerosByDistances : Obligations.CobsReplacesZerosByDistances := by
  unfold Obligations.CobsReplacesZerosByDistances
  exact fun run rest hrun =>
    ⟨cobs_lastRun hrun, fun hlen => cobs_zero hrun hlen rest, fun hlen => cobs_fullRun hrun hlen rest⟩

/-- A block of a code byte and non-zero bytes holds no zero. -/
theorem zero_notMem_block {code : Byte} {run : List Byte} (hcode : code ≠ 0#8) (hrun : ∀ x ∈ run, x ≠ 0#8) :
    0#8 ∉ code :: run := by
  rw [List.mem_cons, not_or]
  exact ⟨hcode.symm, fun hmem => hrun _ hmem rfl⟩

/-- R252: the COBS form has no zero byte. -/
theorem zero_notMem_cobs (b : List Byte) : 0#8 ∉ cobs b := by
  induction b using run_induction with
  | last run hrun hlen =>
    rw [cobs_lastRun hrun hlen]
    exact zero_notMem_block (code_ne_zero hlen) hrun
  | zero run rest hrun hlen ih =>
    rw [cobs_zero hrun hlen, List.mem_append, not_or]
    exact ⟨zero_notMem_block (code_ne_zero hlen) hrun, ih⟩
  | full run rest hrun hlen ih =>
    rw [cobs_fullRun hrun hlen, List.mem_append, not_or]
    exact ⟨zero_notMem_block (by decide) hrun, ih⟩

/-- R253: the overhead is one byte, and at most one more for every 254 bytes. -/
theorem length_cobs_bounds (b : List Byte) :
    b.length + 1 ≤ (cobs b).length ∧ (cobs b).length ≤ b.length + 1 + b.length / 254 := by
  induction b using run_induction with
  | last run hrun hlen =>
    rw [cobs_lastRun hrun hlen, List.length_cons]
    omega
  | zero run rest hrun hlen ih =>
    simp only [cobs_zero hrun hlen, List.length_append, List.length_cons]
    omega
  | full run rest hrun hlen ih =>
    simp only [cobs_fullRun hrun hlen, List.length_append, List.length_cons]
    omega

/-- Settles O49: no zero and the overhead by induction over the runs of the input; a frame is the COBS form and a
zero. -/
theorem cobsHasNoZeroAndBoundedOverhead : Obligations.CobsHasNoZeroAndBoundedOverhead := by
  unfold Obligations.CobsHasNoZeroAndBoundedOverhead
  refine ⟨fun b => ⟨zero_notMem_cobs b, length_cobs_bounds b⟩, fun s b f hframe => ?_⟩
  obtain ⟨-, rfl⟩ := returns_cenc_iff.mp hframe
  exact ⟨cobs b, rfl, zero_notMem_cobs b⟩

section Blocks
variable {code : Byte} {tail out : List Byte}

/-- CDEC of a chunk is R255's loop. -/
theorem cobsDecode_eq_loop {c : List Byte} (hc : c ≠ []) : cobsDecode c = cobsDecodeFrom c.length 0 c [] := by
  rw [cobsDecode, cobsDecodeWith, if_neg hc]

/-- R255: a code byte 0, or one that points past the chunk, faults at its index. -/
theorem cobsDecode_badCode (h : code = 0#8 ∨ tail.length + 1 < code.toNat) :
    cobsDecode (code :: tail) = .error (.frameDecodeFailure 0) := by
  rw [cobsDecode_eq_loop (List.cons_ne_nil _ _), List.length_cons, cobsDecodeFrom]
  rcases h with h | h
  · simp [h]
  · simp [h]

/-- R255: the last block is copied, and no zero follows it. -/
theorem cobsDecode_lastBlock (h0 : code ≠ 0#8) (hlen : tail.length + 1 = code.toNat) :
    cobsDecode (code :: tail) = .ok tail := by
  have hblock := cobsDecodeFrom_block (fuel := tail.length) (i := 0) (rest := []) (out := []) h0 hlen.symm
  rw [List.append_nil] at hblock
  rw [cobsDecode_eq_loop (List.cons_ne_nil _ _), List.length_cons, hblock]
  simp [cobsDecodeFrom]

theorem toNat_ne_zero_of_code (h0 : code ≠ 0#8) : code.toNat ≠ 0 := fun h => h0 (BitVec.eq_of_toNat_eq h)

/-- A code byte that points into the chunk leaves some of it. -/
theorem drop_block_ne_nil (h0 : code ≠ 0#8) (hlen : code.toNat < tail.length + 1) :
    tail.drop (code.toNat - 1) ≠ [] := by
  have hpos := toNat_ne_zero_of_code h0
  rw [ne_eq, List.drop_eq_nil_iff]
  omega

/-- R255: a block that others follow is copied, a zero follows unless its code is 0xFF, and the loop goes on behind
it. -/
theorem cobsDecode_block (h0 : code ≠ 0#8) (hlen : code.toNat < tail.length + 1) :
    cobsDecode (code :: tail) = cobsDecodeFrom tail.length (0 + code.toNat) (tail.drop (code.toNat - 1))
      (tail.take (code.toNat - 1) ++ if code = 0xFF#8 then [] else [0#8]) := by
  have hpos := toNat_ne_zero_of_code h0
  have hblock := cobsDecodeFrom_block (fuel := tail.length) (i := 0) (blk := tail.take (code.toNat - 1))
    (rest := tail.drop (code.toNat - 1)) (out := []) h0 (by rw [List.length_take]; omega)
  rw [List.take_append_drop] at hblock
  rw [cobsDecode_eq_loop (List.cons_ne_nil _ _), List.length_cons, hblock]
  by_cases hfull : code = 0xFF#8
  · simp [hfull]
  · simp [hfull, drop_block_ne_nil h0 hlen]

/-- R255: what the rest decodes to stands behind the first block. -/
theorem cobsDecode_block_ok (h0 : code ≠ 0#8) (hlen : code.toNat < tail.length + 1)
    (hrest : cobsDecode (tail.drop (code.toNat - 1)) = .ok out) :
    cobsDecode (code :: tail) =
      .ok (tail.take (code.toNat - 1) ++ (if code = 0xFF#8 then [] else [0#8]) ++ out) := by
  rw [cobsDecode_eq_loop (drop_block_ne_nil h0 hlen)] at hrest
  rw [cobsDecode_block h0 hlen,
    cobsDecodeFrom_shift _ _ _ _ 0 code.toNat _ le_rfl (List.drop_sublist ..).length_le le_rfl, hrest]

/-- R255: a fault in the rest is the chunk's, at its index counted on. -/
theorem cobsDecode_block_error (h0 : code ≠ 0#8) (hlen : code.toNat < tail.length + 1) {i : Nat}
    (hrest : cobsDecode (tail.drop (code.toNat - 1)) = .error (.frameDecodeFailure i)) :
    cobsDecode (code :: tail) = .error (.frameDecodeFailure (i + code.toNat)) := by
  rw [cobsDecode_eq_loop (drop_block_ne_nil h0 hlen)] at hrest
  rw [cobsDecode_block h0 hlen,
    cobsDecodeFrom_shift _ _ _ _ 0 code.toNat _ le_rfl (List.drop_sublist ..).length_le le_rfl, hrest]

end Blocks

/-- Settles O51: the first turn of the loop faults, ends, or goes on behind the first block as CDEC of the rest. -/
theorem cdecDecodesBlockByBlock : Obligations.CdecDecodesBlockByBlock := by
  unfold Obligations.CdecDecodesBlockByBlock
  intro s code tail
  simp only [raises_cdec_iff, returns_cdec_iff]
  exact ⟨rfl, cobsDecode_badCode, cobsDecode_lastBlock, fun h0 hlen =>
    ⟨fun _ => cobsDecode_block_ok h0 hlen, fun _ => cobsDecode_block_error h0 hlen⟩⟩

/-! ### Transport -/

section Sink
variable {s : State} {f : List Byte} {k : Nat} {rest : List Nat}

/-- R258: what a write of a frame leaves, for the sink's choice. -/
theorem writeFrame_eq (f : List Byte) (r : Result) (s : State) : writeFrame f r s =
    .next ((s.offer f).respond (if s.sinkChoice f.length < f.length
      then .fault (.transportWriteFailure (s.sinkChoice f.length)) else .ok r)) := by
  rw [writeFrame, finish_eq, writeAnswer]
  split <;> rfl

/-- R258: a sink that takes the whole frame. -/
theorem writeFrame_taken (h : s.sinkTakes = k :: rest) (hk : f.length ≤ k) (r : Result) : writeFrame f r s =
    .next { s with sink := s.sink ++ f, sinkTakes := rest, response := some (.ok r) } := by
  rw [writeFrame_eq, offer_script h, sinkChoice_script h, min_eq_right hk, List.take_length, if_neg (lt_irrefl _)]
  rfl

/-- R258: a sink that takes only the first `k` bytes; they stay. -/
theorem writeFrame_cut (h : s.sinkTakes = k :: rest) (hk : k < f.length) (r : Result) : writeFrame f r s =
    .next { s with sink := s.sink ++ f.take k, sinkTakes := rest,
                   response := some (.fault (.transportWriteFailure k)) } := by
  rw [writeFrame_eq, offer_script h, sinkChoice_script h, min_eq_left hk.le, if_pos hk]
  rfl

end Sink

/-- Settles O52: a scripted choice is within the frame or takes all of it; any other is bounded by the frame. -/
theorem fwriteEmitsWhatTheSinkTakes : Obligations.FwriteEmitsWhatTheSinkTakes := by
  unfold Obligations.FwriteEmitsWhatTheSinkTakes
  simp only [exec_fwrite]
  refine ⟨fun s f k rest h => ⟨fun hk => writeFrame_taken h hk .none, fun hk => writeFrame_cut h hk .none⟩,
    fun s f _ => ?_⟩
  exact ⟨s.sinkChoice f.length, _, sinkChoice_le s f.length, writeFrame_eq f .none s, rfl, rfl, rfl, rfl, rfl, rfl⟩

/-- A write that answers `r` where the whole frame is taken differs from FWRITE's in that answer alone. -/
theorem writeFrame_of_fwrite {f : List Byte} {s t : State} (r : Result) (h : exec (.fwrite f) s = .next t) :
    (t.response = some (.ok .none) → writeFrame f r s = .next { t with response := some (.ok r) }) ∧
    (t.response ≠ some (.ok .none) → writeFrame f r s = .next t) := by
  rw [exec_fwrite, writeFrame_eq, Host.Outcome.next.injEq] at h
  subst h
  rw [writeFrame_eq]
  by_cases hcut : s.sinkChoice f.length < f.length
  · rw [if_pos hcut, if_pos hcut]
    exact ⟨nofun, fun _ => rfl⟩
  · rw [if_neg hcut, if_neg hcut]
    exact ⟨fun _ => rfl, fun hne => absurd rfl hne⟩

/-- Settles O53: SER and CENC of a Message give its frame, and MSGTX is the write of it. -/
theorem msgtxSerializesFramesAndWrites : Obligations.MsgtxSerializesFramesAndWrites := by
  unfold Obligations.MsgtxSerializesFramesAndWrites
  intro s m
  have hbounds := length_payloadOf_bounds m
  have hlen : (cobs (payloadOf m) ++ [0#8]).length = (payloadOf m).length + 2 := by
    rw [List.length_append, length_cobs_payloadOf, List.length_singleton]
  refine ⟨payloadOf m, cobs (payloadOf m) ++ [0#8], returns_ser_iff.mpr rfl, returns_cenc_payloadOf s m, hlen,
    by omega, by omega, fun t ht => ?_, fun k rest hscript hk => ?_⟩
  · rw [exec_msgtx]
    exact writeFrame_of_fwrite _ ht
  · rw [exec_msgtx]
    exact writeFrame_taken hscript hk _

/-! ### Splitting a block -/

/-- Induction over a block by its zero bytes. -/
theorem zero_induction {P : List Byte → Prop} (noZero : ∀ b : List Byte, 0#8 ∉ b → P b)
    (zero : ∀ pre rest : List Byte, 0#8 ∉ pre → P rest → P (pre ++ 0#8 :: rest)) (b : List Byte) : P b := by
  induction hn : b.length using Nat.strong_induction_on generalizing b with
  | _ n ih =>
    by_cases hb : 0#8 ∈ b
    · obtain ⟨pre, rest, rfl, hpre⟩ := List.eq_append_cons_of_mem hb
      exact zero pre rest hpre (ih rest.length (by simp at hn; omega) rest rfl)
    · exact noZero b hb

theorem length_split0 (b : List Byte) : (split0 b).length = b.count 0#8 + 1 := by
  induction b using zero_induction with
  | noZero b hb => simp [split0_noZero hb, List.count_eq_zero_of_not_mem hb]
  | zero pre rest hpre ih => simp [split0_zero hpre, ih, List.count_eq_zero_of_not_mem hpre]

theorem zero_notMem_of_mem_split0 (b : List Byte) : ∀ ch ∈ split0 b, 0#8 ∉ ch := by
  induction b using zero_induction with
  | noZero b hb => simpa [split0_noZero hb] using hb
  | zero pre rest hpre ih => simpa [split0_zero hpre] using ⟨hpre, ih⟩

theorem intercalate_split0 (b : List Byte) : List.intercalate [0#8] (split0 b) = b := by
  induction b using zero_induction with
  | noZero b hb => rw [split0_noZero hb, List.intercalate_singleton]
  | zero pre rest hpre ih =>
    rw [split0_zero hpre, List.intercalate_cons_of_ne_nil (split0_ne_nil rest), ih, List.append_assoc,
      List.singleton_append]

/-- Settles O54: each by induction over the zero bytes of the block. -/
theorem splitIsExact : Obligations.SplitIsExact := by
  unfold Obligations.SplitIsExact
  exact fun b => ⟨length_split0 b, zero_notMem_of_mem_split0 b, intercalate_split0 b⟩

/-! ### Reading a block -/

section Source
variable {s : State} {rest : List SourceAnswer}

/-- R262: FREAD of a scripted answer. -/
theorem exec_fread_script {a : SourceAnswer} (h : s.source = a :: rest) : exec .fread s =
    .next { s with source := rest, consumed := s.consumed + consumedBy a,
                   response := some (responseOf (messageResult (messageOfAnswer a))) } := by
  rw [exec_fread, finish_eq, afterRead_script h, sourceChoice_script h]
  rfl

/-- R262: a block is consumed whole, whatever comes of it. -/
theorem exec_fread_block {blk : Vector Byte 128} (h : s.source = .block blk :: rest) : exec .fread s =
    .next { s with source := rest, consumed := s.consumed + 128,
                   response := some (responseOf (messageResult (messageOfBlock blk.toList))) } :=
  exec_fread_script h

end Source

section Chunk
variable {blk pre ch post : List Byte}

/-- R262: a block without a zero byte has no second chunk. -/
theorem messageOfBlock_noZero (h : 0#8 ∉ blk) :
    messageOfBlock blk = .error (.transportReadFailure .noSecondChunk) := by
  rw [messageOfBlock, secondChunk, split0_noZero h]
  rfl

/-- R263: the first chunk of what follows a zero byte ends at the next one, or at the block's end. -/
theorem split0_chunk (hch : 0#8 ∉ ch) (hpost : post = [] ∨ post.head? = some 0#8) :
    ∃ more, split0 (ch ++ post) = ch :: more := by
  rcases hpost with rfl | hhead
  · exact ⟨[], by rw [List.append_nil, split0_noZero hch]⟩
  · obtain ⟨tail, rfl⟩ := List.head?_eq_some_iff.mp hhead
    exact ⟨split0 tail, split0_zero hch tail⟩

/-- R262: the Message of a block is the one of the bytes between its first and second zero byte or its end. -/
theorem messageOfBlock_chunk (hblk : blk = pre ++ 0#8 :: ch ++ post) (hpre : 0#8 ∉ pre) (hch : 0#8 ∉ ch)
    (hpost : post = [] ∨ post.head? = some 0#8) : messageOfBlock blk = cobsDecode ch >>= deserialize := by
  obtain ⟨more, hmore⟩ := split0_chunk hch hpost
  rw [messageOfBlock, secondChunk, hblk, List.append_assoc, List.cons_append, split0_zero hpre, hmore]
  rfl

end Chunk

/-- Settles O55: FREAD answers with the Message of the source's answer, which is decoded from its second chunk. -/
theorem freadDecodesTheSecondChunk : Obligations.FreadDecodesTheSecondChunk := by
  unfold Obligations.FreadDecodesTheSecondChunk
  refine ⟨fun s rest h => exec_fread_script h, fun s blk rest h => ⟨_, exec_fread_block h, fun hnone => ?_,
    fun pre ch post hblk hpre hch hpost => ?_⟩⟩
  · rw [messageOfBlock_noZero hnone]
    rfl
  · rw [messageOfBlock_chunk hblk hpre hch hpost]
    simp only [raises_cdec_iff, returns_cdec_iff, raises_deser_iff, returns_deser_iff]
    refine ⟨fun f hcdec => ?_, fun p hcdec => ⟨fun f hdeser => ?_, fun m hdeser => ?_⟩⟩
    · rw [hcdec]
      rfl
    · rw [hcdec, bind_ok, hdeser]
      rfl
    · rw [hcdec, bind_ok, hdeser]
      rfl

/-- Settles O56: the frame of a Message behind the first zero byte is the second chunk and its end, and COBS and SER are
inverted. -/
theorem freadDeliversAFramedMessage : Obligations.FreadDeliversAFramedMessage := by
  unfold Obligations.FreadDeliversAFramedMessage
  intro s m p f pre post blk rest hser hcenc hsource hblk hpre
  obtain rfl := returns_ser_iff.mp hser
  obtain ⟨-, rfl⟩ := returns_cenc_iff.mp hcenc
  have hsplit : blk.toList = pre ++ 0#8 :: cobs (payloadOf m) ++ 0#8 :: post := by simpa using hblk
  have hdeser := deserialize_payload m []
  rw [List.append_nil] at hdeser
  rw [exec_fread_block hsource, messageOfBlock_chunk hsplit hpre (zero_notMem_cobs _) (.inr rfl), cobsDecode_cobs,
    bind_ok, hdeser]
  rfl

end Sys2Proof.Machine

/-! ### Faults of requests -/

namespace Sys2Proof.Machine

/-! ### The table of faults -/

/-- Settles O14: `ReqFault.code` and `ReqFault.info` are R280's rows, read off their definitions. -/
theorem faultCodesAndInfoAreTheTables : Obligations.FaultCodesAndInfoAreTheTables := by
  unfold Obligations.FaultCodesAndInfoAreTheTables
  exact ⟨fun _ => ⟨rfl, rfl⟩, fun _ => ⟨rfl, rfl⟩, fun _ => ⟨rfl, rfl⟩, rfl, rfl, rfl, rfl, fun _ => ⟨rfl, rfl⟩,
    rfl, rfl, rfl, rfl, rfl, rfl, rfl, rfl, fun _ => ⟨rfl, rfl⟩, fun _ => ⟨rfl, rfl⟩, fun _ => ⟨rfl, rfl⟩,
    fun _ => ⟨rfl, rfl⟩, fun _ => ⟨rfl, rfl⟩, rfl, rfl, fun _ => ⟨rfl, rfl⟩, rfl, rfl⟩

/-! ### What a faulted request leaves -/

/-- R67, R262: a read consumes nothing or a block. -/
theorem afterRead_consumed_cases (s : State) :
    s.afterRead.consumed = s.consumed ∨ s.afterRead.consumed = s.consumed + 128 := by
  rw [afterRead_consumed]
  cases s.sourceChoice with
  | block bytes => exact .inr rfl
  | readError => exact .inl rfl

/-- Settles O10: SNAPCAP does not fault; a write faults with the number of bytes the sink took; FREAD consumes its
block or nothing; and every other request changes the response port alone. -/
theorem faultedRequestsWriteNoState : Obligations.FaultedRequestsWriteNoState := by
  unfold Obligations.FaultedRequestsWriteNoState
  intro i s t f h hfault
  obtain ⟨w0, w1, w2, tref, rfl⟩ | ⟨frame, r, hwrite⟩ | rfl | ⟨r, hanswer⟩ := exec_cases i s
  · rw [exec_snapcap, Host.Outcome.next.injEq] at h
    subst h
    cases hfault
  · rw [hwrite, writeFrame_eq, Host.Outcome.next.injEq] at h
    subst h
    rw [respond_response, Option.some.injEq] at hfault
    split at hfault
    · exact ⟨rfl, .inr ⟨_, _, (Response.fault.inj hfault).symm,
        List.length_take_of_le (sinkChoice_le s frame.length), rfl⟩, .inl ⟨rfl, rfl⟩⟩
    · cases hfault
  · rw [exec_fread, finish_eq, Host.Outcome.next.injEq] at h
    subst h
    exact ⟨rfl, .inl rfl, .inr ⟨rfl, rfl, afterRead_consumed_cases s⟩⟩
  · rw [hanswer, Host.Outcome.next.injEq] at h
    subst h
    exact ⟨rfl, .inl rfl, .inl ⟨rfl, rfl⟩⟩

/-! ### The reserved codes -/

/-- R280: the code is one of the two that are reserved. -/
def ReqFault.reserved (f : ReqFault) : Bool := f.code == 8#8 || f.code == 16#8

/-- R280: every fault has a code of the table. -/
theorem toNat_code_bounds (f : ReqFault) : 1 ≤ f.code.toNat ∧ f.code.toNat ≤ 16 := by
  cases f <;> simp [ReqFault.code]

/-- A fault that is not reserved has one of the codes 1 … 7 and 9 … 15. -/
theorem code_of_not_reserved {f : ReqFault} (h : f.reserved = false) :
    f.code ≠ 0#8 ∧ f.code ≠ 8#8 ∧ f.code ≠ 16#8 ∧ f.code.toNat ≤ 15 := by
  have hbounds := toNat_code_bounds f
  simp only [ReqFault.reserved, Bool.or_eq_false_iff, beq_eq_false_iff_ne] at h
  bv_omega

/-- A pseudocode does not raise a reserved fault. -/
def Unreserved {α : Type} (r : Except ReqFault α) : Prop := ∀ f, r = .error f → f.reserved = false

theorem unreserved_ok {α : Type} (v : α) : Unreserved (.ok v) := nofun

theorem unreserved_error {α : Type} {f : ReqFault} (h : f.reserved = false) :
    Unreserved (.error f : Except ReqFault α) :=
  fun _ hf => Except.error.inj hf ▸ h

/-- A pseudocode that branches on a check raises what one of the branches raises. -/
theorem unreserved_ite {α : Type} {c : Prop} [Decidable c] {x y : Except ReqFault α} (hx : Unreserved x)
    (hy : Unreserved y) : Unreserved (if c then x else y) := by
  split
  · exact hx
  · exact hy

/-- A pipeline raises what one of its stages raises. -/
theorem unreserved_bind {α β : Type} {x : Except ReqFault α} {next : α → Except ReqFault β} (hx : Unreserved x)
    (hnext : ∀ a, Unreserved (next a)) : Unreserved (x >>= next) := by
  cases x with
  | ok a => exact hnext a
  | error f => exact unreserved_error (hx f rfl)

/-! ### What each pseudocode raises -/

section Register
variable (addr : Byte) (word : Word16) (idx : BitVec 5)

theorem unreserved_withTag {r : Except ReqFault Result} (h : Unreserved r) (a : Byte) :
    Unreserved (withTag addr a r) := unreserved_ite (unreserved_error rfl) h

theorem unreserved_withTag_ok (a : Byte) (v : Result) : Unreserved (withTag addr a (.ok v)) :=
  unreserved_withTag addr (unreserved_ok v) a

theorem unreserved_cma : Unreserved (cma idx) := by
  unfold cma
  split
  · exact unreserved_ok _
  · exact unreserved_error rfl

theorem unreserved_fget : Unreserved (fget addr word idx) := by
  unfold fget
  split
  · rename_i f hrow
    exact unreserved_error (unreserved_cma idx f hrow)
  · exact unreserved_withTag_ok addr _ _

theorem unreserved_fset (value : Word16) : Unreserved (fset addr word idx value) := by
  unfold fset
  split
  · rename_i f hrow
    exact unreserved_error (unreserved_cma idx f hrow)
  · exact unreserved_withTag addr (unreserved_ite (unreserved_error rfl) (unreserved_ok _)) _

theorem unreserved_egain (gain : Byte) : Unreserved (egain addr word gain) :=
  unreserved_withTag addr (unreserved_ite (unreserved_error rfl) (unreserved_ok _)) _

end Register

theorem unreserved_checkAddr (addr : Byte) (f : CmdFrame) : Unreserved (checkAddr addr f) :=
  unreserved_ite (unreserved_error rfl) (unreserved_ok f)

/-- R150: RR and WR check their address, the other commands have a frame, and any other base is refused. -/
theorem unreserved_commandFrame (base : Byte) (chans : ChannelSet) (addr : Byte) (data : Word16) :
    Unreserved (commandFrame base chans addr data) := by
  unfold commandFrame
  split
  case h_5 => exact unreserved_checkAddr addr _
  case h_6 => exact unreserved_checkAddr addr _
  case h_11 => exact unreserved_error rfl
  all_goals exact unreserved_ok _

theorem unreserved_frameResult {r : Except ReqFault CmdFrame} (h : Unreserved r) : Unreserved (frameResult r) := by
  cases r with
  | ok f => exact unreserved_ok _
  | error e => exact unreserved_error (h e rfl)

theorem unreserved_rmDecode (chans : ChannelSet) (b : List Byte) : Unreserved (rmDecode chans b) :=
  unreserved_ite (unreserved_error rfl) (unreserved_ok _)

theorem unreserved_rrDecode (b : List Byte) : Unreserved (rrDecode b) := by
  intro f hf
  obtain ⟨-, rfl⟩ := rrDecode_error_iff.mp hf
  rfl

theorem unreserved_s1Decode (b : List Byte) : Unreserved (s1Decode b) := by
  intro f hf
  obtain ⟨-, rfl⟩ := s1Decode_error_iff.mp hf
  rfl

theorem unreserved_convert (c : Config.ConvParams) (p : Snap) (chans : ChannelSet) (raw : RawSample) :
    Unreserved (convert c p chans raw) :=
  unreserved_ite (unreserved_error rfl)
    (unreserved_ite (unreserved_error rfl) (unreserved_ite (unreserved_error rfl) (unreserved_ok _)))

theorem unreserved_fieldResult {r : Except ReqFault MagneticField} (h : Unreserved r) : Unreserved (fieldResult r) := by
  cases r with
  | ok m => exact unreserved_ok _
  | error e => exact unreserved_error (h e rfl)

theorem unreserved_bytesResult {r : Except ReqFault (List Byte)} (h : Unreserved r) : Unreserved (bytesResult r) :=
  fun f hf => h f (bytesResult_eq_error_iff.mp hf)

theorem unreserved_messageResult {r : Except ReqFault Message} (h : Unreserved r) : Unreserved (messageResult r) :=
  fun f hf => h f (messageResult_eq_error_iff.mp hf)

theorem unreserved_serialize (m : Message) : Unreserved (serialize m) :=
  serialize_eq m ▸ unreserved_ok _

theorem unreserved_getF32 (d : List Byte) : Unreserved (getF32 d) := by
  unfold getF32
  split
  · exact unreserved_ok _
  · exact unreserved_error rfl

theorem unreserved_getTagged (d : List Byte) : Unreserved (getTagged d) := by
  cases d with
  | nil => exact unreserved_error rfl
  | cons tag rest =>
    refine unreserved_ite (unreserved_ok _) (unreserved_ite ?_ (unreserved_error rfl))
    split
    · exact unreserved_ok _
    · rename_i e hf32
      exact unreserved_error (unreserved_getF32 rest e hf32)

theorem unreserved_deserialize (d : List Byte) : Unreserved (deserialize d) :=
  unreserved_bind (unreserved_getTagged _) fun _ => unreserved_bind (unreserved_getTagged _) fun _ =>
  unreserved_bind (unreserved_getTagged _) fun _ => unreserved_bind (unreserved_getTagged _) fun _ =>
  unreserved_bind (unreserved_getF32 _) fun _ => unreserved_bind (unreserved_getF32 _) fun _ =>
  unreserved_bind (unreserved_getF32 _) fun _ => unreserved_ok _

theorem unreserved_cobsEncode (b : List Byte) : Unreserved (cobsEncode b) :=
  unreserved_ite (unreserved_error rfl) (unreserved_ok _)

/-- R255: each turn of the loop raises FrameDecodeFailure or goes on. -/
theorem unreserved_cobsDecodeFrom (fuel i : Nat) (rest out : List Byte) :
    Unreserved (cobsDecodeFrom fuel i rest out) := by
  induction fuel generalizing i rest out with
  | zero => cases rest <;> exact unreserved_ok _
  | succ fuel ih =>
    cases rest with
    | nil => exact unreserved_ok _
    | cons code tail =>
      exact unreserved_ite (unreserved_error rfl) (unreserved_ite (unreserved_error rfl) (ih _ _ _))

theorem unreserved_cobsDecode (c : List Byte) : Unreserved (cobsDecode c) :=
  unreserved_ite (unreserved_error rfl) (unreserved_cobsDecodeFrom _ _ _ _)

theorem unreserved_secondChunk (blk : List Byte) : Unreserved (secondChunk blk) := by
  unfold secondChunk
  split
  · exact unreserved_ok _
  · exact unreserved_error rfl

theorem unreserved_messageOfBlock (blk : List Byte) : Unreserved (messageOfBlock blk) :=
  unreserved_bind (unreserved_secondChunk blk) fun ch =>
    unreserved_bind (unreserved_cobsDecode ch) unreserved_deserialize

theorem unreserved_messageOfAnswer (a : SourceAnswer) : Unreserved (messageOfAnswer a) := by
  cases a with
  | block bytes => exact unreserved_messageOfBlock _
  | readError => exact unreserved_error rfl

theorem unreserved_writeAnswer (k n : Nat) (v : Result) : Unreserved (writeAnswer k n v) :=
  unreserved_ite (unreserved_error rfl) (unreserved_ok v)

/-! ### Every request -/

/-- R280: every request ends with an outcome that is no reserved fault. -/
theorem exec_unreserved (i : Instr) (s : State) : ∃ u r, exec i s = finish u r ∧ Unreserved r := by
  cases i
  case sb => exact ⟨_, _, exec_sb _ _, unreserved_ok _⟩
  case sw => exact ⟨_, _, exec_sw _ _, unreserved_ok _⟩
  case sm => exact ⟨_, _, exec_sm _ _, unreserved_ok _⟩
  case rm => exact ⟨_, _, exec_rm _ _, unreserved_ok _⟩
  case rr => exact ⟨_, _, exec_rr _ _, unreserved_frameResult (unreserved_checkAddr _ _)⟩
  case wr => exact ⟨_, _, exec_wr _ _ _, unreserved_frameResult (unreserved_checkAddr _ _)⟩
  case ex => exact ⟨_, _, exec_ex _, unreserved_ok _⟩
  case hr => exact ⟨_, _, exec_hr _, unreserved_ok _⟩
  case hs => exact ⟨_, _, exec_hs _, unreserved_ok _⟩
  case rt => exact ⟨_, _, exec_rt _, unreserved_ok _⟩
  case fget => exact ⟨_, _, exec_fget _ _ _ _, unreserved_fget _ _ _⟩
  case fset => exact ⟨_, _, exec_fset _ _ _ _ _, unreserved_fset _ _ _ _⟩
  case dgain => exact ⟨_, _, exec_dgain _ _ _, unreserved_withTag_ok _ _ _⟩
  case dtcmp => exact ⟨_, _, exec_dtcmp _ _ _, unreserved_withTag_ok _ _ _⟩
  case dhall => exact ⟨_, _, exec_dhall _ _ _, unreserved_withTag_ok _ _ _⟩
  case dzser => exact ⟨_, _, exec_dzser _ _ _, unreserved_withTag_ok _ _ _⟩
  case dbist => exact ⟨_, _, exec_dbist _ _ _, unreserved_withTag_ok _ _ _⟩
  case dres => exact ⟨_, _, exec_dres _ _ _, unreserved_withTag_ok _ _ _⟩
  case egain => exact ⟨_, _, exec_egain _ _ _ _, unreserved_egain _ _ _⟩
  case etcmp => exact ⟨_, _, exec_etcmp _ _ _ _, unreserved_withTag_ok _ _ _⟩
  case ezser => exact ⟨_, _, exec_ezser _ _ _ _, unreserved_withTag_ok _ _ _⟩
  case ebist => exact ⟨_, _, exec_ebist _ _ _ _, unreserved_withTag_ok _ _ _⟩
  case snapcap => exact ⟨_, _, (exec_snapcap _ _ _ _ _).trans (finish_ok _ _).symm, unreserved_ok _⟩
  case snapq => exact ⟨_, _, exec_snapq _, unreserved_ok _⟩
  case cmdenc => exact ⟨_, _, exec_cmdenc _ _ _ _ _, unreserved_frameResult (unreserved_commandFrame _ _ _ _)⟩
  case stdec => exact ⟨_, _, exec_stdec _ _, unreserved_ok _⟩
  case rmdec => exact ⟨_, _, exec_rmdec _ _ _, unreserved_rmDecode _ _⟩
  case rrdec => exact ⟨_, _, exec_rrdec _ _, unreserved_rrDecode _⟩
  case s1dec => exact ⟨_, _, exec_s1dec _ _, unreserved_s1Decode _⟩
  case conv => exact ⟨_, _, exec_conv _ _ _, unreserved_fieldResult (unreserved_convert _ _ _ _)⟩
  case ser => exact ⟨_, _, exec_ser _ _, unreserved_bytesResult (unreserved_serialize _)⟩
  case deser => exact ⟨_, _, exec_deser _ _, unreserved_messageResult (unreserved_deserialize _)⟩
  case cenc => exact ⟨_, _, exec_cenc _ _, unreserved_bytesResult (unreserved_cobsEncode _)⟩
  case cdec => exact ⟨_, _, exec_cdec _ _, unreserved_bytesResult (unreserved_cobsDecode _)⟩
  case fwrite => exact ⟨_, _, exec_fwrite _ _, unreserved_writeAnswer _ _ _⟩
  case fread => exact ⟨_, _, exec_fread _, unreserved_messageResult (unreserved_messageOfAnswer _)⟩
  case msgtx => exact ⟨_, _, exec_msgtx _ _, unreserved_writeAnswer _ _ _⟩

/-- Settles O13: the response is a success, whose code is 0, or a fault that is not reserved. -/
theorem reservedFaultCodesAreNeverAnswered : Obligations.ReservedFaultCodesAreNeverAnswered := by
  unfold Obligations.ReservedFaultCodesAreNeverAnswered
  intro i s t r h hr
  obtain ⟨u, outcome, hexec, houtcome⟩ := exec_unreserved i s
  rw [hexec, finish_eq, Host.Outcome.next.injEq] at h
  subst h
  obtain rfl : responseOf outcome = r := Option.some.inj hr
  cases outcome with
  | ok v =>
    have hcode : (responseOf (.ok v)).code = 0#8 := rfl
    rw [hcode]
    exact ⟨iff_of_true rfl ⟨v, rfl⟩, by decide, by decide, by decide⟩
  | error f =>
    obtain ⟨hzero, hrest⟩ := code_of_not_reserved (houtcome f rfl)
    exact ⟨iff_of_false hzero nofun, hrest⟩

end Sys2Proof.Machine

/-! ### Reset and hazards -/

namespace Sys2Proof.Machine

/-- Settles O8: after reset nothing is captured and nothing is consumed. -/
theorem resetMeetsTheInvariant : Obligations.ResetMeetsTheInvariant := by
  unfold Obligations.ResetMeetsTheInvariant
  exact ⟨nofun, rfl⟩

/-- Settles O5: every request ends by driving the response port, and none touches the request port. -/
theorem everyRequestIsAnswered : Obligations.EveryRequestIsAnswered := by
  unfold Obligations.EveryRequestIsAnswered
  intro i s
  obtain ⟨u, r, hexec, -⟩ := exec_unreserved i s
  have hnext : exec i s = .next (u.respond (responseOf r)) := hexec.trans (finish_eq u r)
  exact ⟨_, responseOf r, hnext, respond_response u _, (exec_keepsOrder hnext).2⟩

/-! ### What an uncaptured snapshot hides -/

/-- R310: while nothing is captured, a request without an effect outside the response answers by its operands alone:
SNAPQ shows zeros and CONV faults, whatever the other fields of `SNAP` hold. -/
theorem exec_eq_finish_of_pure_uncaptured {i : Instr} (hwrite : ∀ b, i ≠ .fwrite b) (htx : ∀ m, i ≠ .msgtx m)
    (hread : i ≠ .fread) (hcap : ∀ w0 w1 w2 tref, i ≠ .snapcap w0 w1 w2 tref) :
    ∃ r, ∀ s : State, s.snap.captured = false → exec i s = finish s r := by
  obtain ⟨r, hr⟩ | rfl | ⟨chans, raw, rfl⟩ := exec_pure i hwrite htx hread hcap
  · exact ⟨r, fun s _ => hr s⟩
  · exact ⟨.ok (.snapshot zeroSnap), fun s hs => by rw [exec_snapq, shownSnap_uncaptured hs]⟩
  · exact ⟨.error .snapshotAbsent, fun s hs => by rw [exec_conv, convert_uncaptured hs, fieldResult]⟩

/-- What a request does in the states without a capture, alike in all of them: overwrite the snapshot, write a frame,
read the source, or end with one answer. -/
theorem exec_uncaptured_cases (i : Instr) :
    (∃ w0 w1 w2 tref, i = .snapcap w0 w1 w2 tref) ∨ (∃ f r, ∀ s, exec i s = writeFrame f r s) ∨ i = .fread ∨
      ∃ r, ∀ s : State, s.snap.captured = false → exec i s = finish s r := by
  cases i
  case snapcap => exact .inl ⟨_, _, _, _, rfl⟩
  case fwrite f => exact .inr (.inl ⟨f, .none, exec_fwrite f⟩)
  case msgtx m => exact .inr (.inl ⟨_, _, exec_msgtx m⟩)
  case fread => exact .inr (.inr (.inl rfl))
  all_goals exact .inr (.inr (.inr (exec_eq_finish_of_pure_uncaptured nofun nofun nofun nofun)))

/-- R310: two states that differ in nothing but an uncaptured `SNAP` go on to states that differ in nothing but
`SNAP`. -/
theorem exec_hides_uncaptured (i : Instr) {s : State} {p : Snap} (hs : s.snap.captured = false)
    (hp : p.captured = false) :
    ∃ t q, exec i s = .next t ∧ exec i { s with snap := p } = .next { t with snap := q } := by
  obtain ⟨w0, w1, w2, tref, rfl⟩ | ⟨f, r, hwrite⟩ | rfl | ⟨r, hanswer⟩ := exec_uncaptured_cases i
  · exact ⟨_, captureSnap w0 w1 w2 tref, exec_snapcap w0 w1 w2 tref s, exec_snapcap w0 w1 w2 tref _⟩
  · exact ⟨_, p, (hwrite s).trans (writeFrame_eq f r s), (hwrite _).trans (writeFrame_eq f r _)⟩
  · exact ⟨_, p, (exec_fread s).trans (finish_eq _ _), (exec_fread _).trans (finish_eq _ _)⟩
  · exact ⟨_, p, (hanswer s hs).trans (finish_eq s r), (hanswer { s with snap := p } hp).trans (finish_eq _ r)⟩

/-! ### The reset input -/

/-- R310: a step at the reset input takes it and resets the block. -/
theorem step_of_reset {s : State} {rest : List Stimulus} (h : s.inbox = .reset :: rest) :
    step s = .next s.advance.blockReset := by
  simp only [step, nextOf, h]

/-- R32: a request that is no SNAPCAP leaves `SNAP` as it was. -/
theorem exec_snap_of_ne_snapcap {i : Instr} {s t : State} (h : exec i s = .next t)
    (hi : ∀ w0 w1 w2 tref, i ≠ .snapcap w0 w1 w2 tref) : t.snap = s.snap :=
  (exec_snap h).resolve_left fun ⟨w0, w1, w2, tref, hcap, _⟩ => hi w0 w1 w2 tref hcap

/-- Settles O4: a reset step is `blockReset`; SNAPQ and CONV look at `captured` before any other field, and no other
request reads `SNAP`; RT's encodings are no SNAPCAP. -/
theorem resetClearsCapturedAndHidesTheRest : Obligations.ResetClearsCapturedAndHidesTheRest := by
  unfold Obligations.ResetClearsCapturedAndHidesTheRest
  refine ⟨rfl, fun s rest hin => ?_, fun s hs => ⟨?_, fun chans raw => ?_⟩, fun i s p hs hp => ?_, fun s t h => ?_⟩
  · exact ⟨_, step_of_reset hin, rfl, by simp [hin], rfl, rfl, rfl, rfl, rfl⟩
  · exact (snapqShowsTheSnapshot s).1 hs
  · exact (convFaultsInOrder s chans raw).1 hs
  · obtain ⟨t, q, ht, hu⟩ := exec_hides_uncaptured i hs hp
    exact ⟨t, _, ht, hu, rfl, rfl, rfl, rfl, rfl⟩
  · obtain h | h := h
    · exact exec_snap_of_ne_snapcap h nofun
    · exact exec_snap_of_ne_snapcap h nofun

end Sys2Proof.Machine
